-- ==== Sys2Proof/Word.lean ====
section
/-! DEFINITION. The word types of the frame-sync core (00_scope.md R11: every value is an unsigned
integer of its stated width; bit 0 is the least significant). -/

namespace Sys2Proof

/-- A command word or a response word: 32 bits (30_encoding.md R110). -/
abbrev Word := BitVec 32

/-- One payload byte, or one byte of a word carried over a byte-wide bus (20_memory.md R84, R87). -/
abbrev Byte := BitVec 8

/-- The tag of a sample: TAG_W = 8 bits (00_scope.md R9). -/
abbrev Tag := BitVec 8

/-- `(a - b) mod m`, the mathematical remainder in [0, m) also where `a < b` (R11, R12). -/
def modSub (m a b : Nat) : Nat := (a % m + (m - b % m)) % m

end Sys2Proof
end

