-- ==== Sys2Proof/Syntax.lean ====
section
/-! DEFINITION. The commands: one constructor per row of spec/opcode_table.json (30_encoding.md
R117), each with the operand fields of its format (R111 to R115) taken as they are (R116). -/

namespace Sys2Proof

/-- A command word whose OP is assigned and whose reserved bits are 0, with its operands. -/
inductive Instr where
  /-- NOP, OP 0x00, format N with a 24-bit hint space that is ignored (R127). -/
  | nop (hint : BitVec 24)
  /-- RB_PUT, OP 0x01, format S (R144). -/
  | rbPut (bit : Bool) (tag : Tag)
  /-- RB_PSPACE, OP 0x02, format N (R145). -/
  | rbPspace
  /-- RB_GET, OP 0x10, format N (R146). -/
  | rbGet
  /-- RB_SPACE, OP 0x11, format N (R147). -/
  | rbSpace
  /-- RB_OCC, OP 0x12, format N (R148). -/
  | rbOcc
  /-- RB_OVFCLR, OP 0x13, format N (R149). -/
  | rbOvfclr
  /-- RB_FLUSH, OP 0x14, format N (R150). -/
  | rbFlush
  /-- FEED, OP 0x20, format N (R391). -/
  | feed
  /-- DATABIT, OP 0x21, format S (R393). -/
  | databit (bit : Bool) (tag : Tag)
  /-- COR_PEEK, OP 0x30, format U with IDX (R188). -/
  | corPeek (unit : BitVec 4) (idx : BitVec 4)
  /-- STAT_RD, OP 0x31, format U, IDX reserved (R401). -/
  | statRd (unit : BitVec 4)
  /-- FSM_RESET, OP 0x40, format U, IDX reserved (R394). -/
  | fsmReset (unit : BitVec 4)
  /-- MODE_SET, OP 0x41, format M (R395). -/
  | modeSet (mode : BitVec 3)
  /-- CFG_WR, OP 0x50, format K (R399). -/
  | cfgWr (reg : BitVec 8) (value : BitVec 16)
  /-- CFG_RD, OP 0x51, format K, VALUE reserved (R400). -/
  | cfgRd (reg : BitVec 8)
  deriving DecidableEq, Repr

end Sys2Proof
end

