-- ==== Sys2Proof/WellFormed.lean ====
section
/-! DEFINITION. Well-formedness of a command: its operands lie in the ranges of 30_encoding.md R119,
row BAD_FIELD. A command that is not well-formed still decodes (R125: "the decode of such a word is
defined") and is answered BAD_FIELD by its meaning. The bound of COR_PEEK's IDX is a parameter (the
unit's pattern count) and is checked by the meaning only. -/

namespace Sys2Proof

/-- UNIT is 0..5, MODE is 0..5, a CFG_WR's REG is 0x00..0x05 and a CFG_RD's REG 0x00..0x06. -/
def Instr.wellFormed : Instr → Bool
  | .nop _ => true
  | .rbPut _ _ => true
  | .rbPspace => true
  | .rbGet => true
  | .rbSpace => true
  | .rbOcc => true
  | .rbOvfclr => true
  | .rbFlush => true
  | .feed => true
  | .databit _ _ => true
  | .corPeek unit _ => decide (unit.toNat ≤ 5)
  | .statRd unit => decide (unit.toNat ≤ 5)
  | .fsmReset unit => decide (unit.toNat ≤ 5)
  | .modeSet mode => decide (mode.toNat ≤ 5)
  | .cfgWr reg _ => decide (reg.toNat ≤ 5)
  | .cfgRd reg => decide (reg.toNat ≤ 6)

end Sys2Proof
end

