-- ==== Sys2Proof/Decode.lean ====
section
/-! DEFINITION. The command decoder and encoder (30_encoding.md). The decoder is total (R128): a word
gives a command, or is rejected by name as ILLEGAL_OP (R122) or for a non-zero reserved field (R124).
The port and the operand ranges are checked where the command runs (R121). -/

namespace Sys2Proof

/-- The sixteen assigned values of OP (R117). -/
inductive Opcode where
  | nop | rbPut | rbPspace | rbGet | rbSpace | rbOcc | rbOvfclr | rbFlush
  | feed | databit | corPeek | statRd | fsmReset | modeSet | cfgWr | cfgRd
  deriving DecidableEq, Repr

/-- The opcodes in the order of the table of R117. -/
def Opcode.all : List Opcode :=
  [.nop, .rbPut, .rbPspace, .rbGet, .rbSpace, .rbOcc, .rbOvfclr, .rbFlush,
   .feed, .databit, .corPeek, .statRd, .fsmReset, .modeSet, .cfgWr, .cfgRd]

/-- The OP field of each opcode (R117). -/
def Opcode.code : Opcode → BitVec 8
  | .nop => 0x00 | .rbPut => 0x01 | .rbPspace => 0x02
  | .rbGet => 0x10 | .rbSpace => 0x11 | .rbOcc => 0x12 | .rbOvfclr => 0x13 | .rbFlush => 0x14
  | .feed => 0x20 | .databit => 0x21
  | .corPeek => 0x30 | .statRd => 0x31
  | .fsmReset => 0x40 | .modeSet => 0x41
  | .cfgWr => 0x50 | .cfgRd => 0x51

/-- The opcode a value of OP stands for; `none` for the illegal values of R122 and R123. -/
def Opcode.ofByte? (b : BitVec 8) : Option Opcode :=
  Opcode.all.find? fun op => op.code == b

/-- Whether OP is legal on the producer port (R117, column "port"; R143). -/
def Opcode.onProducer : Opcode → Bool
  | .nop | .rbPut | .rbPspace => true
  | _ => false

/-- Whether OP is legal on the consumer port (R117, column "port"; R143). -/
def Opcode.onConsumer : Opcode → Bool
  | .rbPut | .rbPspace => false
  | _ => true

/-- The OP field, bits [31:24] of every format (R111 to R115). -/
def opField (w : Word) : BitVec 8 := w.extractLsb' 24 8

/-- Every bit that the format of `op` marks reserved is 0 in `w` (R111 to R115, R124, R127). -/
def reservedZero (op : Opcode) (w : Word) : Bool :=
  match op with
  | .nop => true
  | .rbPut | .databit => w.extractLsb' 16 8 == 0 && w.extractLsb' 1 7 == 0
  | .rbPspace | .rbGet | .rbSpace | .rbOcc | .rbOvfclr | .rbFlush | .feed =>
    w.extractLsb' 0 24 == 0
  | .corPeek => w.extractLsb' 0 16 == 0
  | .statRd | .fsmReset => w.extractLsb' 0 20 == 0
  | .modeSet => w.extractLsb' 3 21 == 0
  | .cfgWr => true
  | .cfgRd => w.extractLsb' 0 16 == 0

/-- The command with the operand fields of `w` (formats N, S, U, M, K: R111 to R116). -/
def operands (op : Opcode) (w : Word) : Instr :=
  match op with
  | .nop => .nop (w.extractLsb' 0 24)
  | .rbPut => .rbPut (w.getLsbD 0) (w.extractLsb' 8 8)
  | .rbPspace => .rbPspace
  | .rbGet => .rbGet
  | .rbSpace => .rbSpace
  | .rbOcc => .rbOcc
  | .rbOvfclr => .rbOvfclr
  | .rbFlush => .rbFlush
  | .feed => .feed
  | .databit => .databit (w.getLsbD 0) (w.extractLsb' 8 8)
  | .corPeek => .corPeek (w.extractLsb' 20 4) (w.extractLsb' 16 4)
  | .statRd => .statRd (w.extractLsb' 20 4)
  | .fsmReset => .fsmReset (w.extractLsb' 20 4)
  | .modeSet => .modeSet (w.extractLsb' 0 3)
  | .cfgWr => .cfgWr (w.extractLsb' 16 8) (w.extractLsb' 0 16)
  | .cfgRd => .cfgRd (w.extractLsb' 16 8)

/-- Why a word is no command. -/
inductive Reject where
  /-- The OP field is not in the table of R117 (R122). -/
  | illegalOp
  /-- The OP field is assigned, but a bit its format marks reserved is set (R124). -/
  | reservedField (op : Opcode)
  deriving DecidableEq, Repr

/-- The decoder: every 32-bit word is a command or is rejected by name (R117, R124, R128). -/
def decode (w : Word) : Except Reject Instr :=
  match Opcode.ofByte? (opField w) with
  | none => .error .illegalOp
  | some op => if reservedZero op w then .ok (operands op w) else .error (.reservedField op)

/-- The opcode of a command. -/
def Instr.opcode : Instr → Opcode
  | .nop _ => .nop
  | .rbPut _ _ => .rbPut
  | .rbPspace => .rbPspace
  | .rbGet => .rbGet
  | .rbSpace => .rbSpace
  | .rbOcc => .rbOcc
  | .rbOvfclr => .rbOvfclr
  | .rbFlush => .rbFlush
  | .feed => .feed
  | .databit _ _ => .databit
  | .corPeek _ _ => .corPeek
  | .statRd _ => .statRd
  | .fsmReset _ => .fsmReset
  | .modeSet _ => .modeSet
  | .cfgWr _ _ => .cfgWr
  | .cfgRd _ => .cfgRd

/-- Bits [23:0] of a command's word, by its format (R111 to R115). -/
def operandBits : Instr → BitVec 24
  | .nop hint => hint
  | .rbPut bit tag => 0#8 ++ tag ++ 0#7 ++ BitVec.ofBool bit
  | .rbPspace => 0
  | .rbGet => 0
  | .rbSpace => 0
  | .rbOcc => 0
  | .rbOvfclr => 0
  | .rbFlush => 0
  | .feed => 0
  | .databit bit tag => 0#8 ++ tag ++ 0#7 ++ BitVec.ofBool bit
  | .corPeek unit idx => unit ++ idx ++ 0#16
  | .statRd unit => unit ++ 0#20
  | .fsmReset unit => unit ++ 0#20
  | .modeSet mode => 0#21 ++ mode
  | .cfgWr reg value => reg ++ value
  | .cfgRd reg => reg ++ 0#16

/-- The encoder: the word of a command (R111 to R117). -/
def encode (i : Instr) : Word := i.opcode.code ++ operandBits i

/-- One row of spec/opcode_table.json: the words of `op` are those `w` with `w AND mask = base`
(30_encoding.md R124). -/
structure TableRow where
  op : Opcode
  base : Word
  mask : Word
  deriving DecidableEq, Repr

/-- The match and mask of every row of spec/opcode_table.json (R124). -/
def opcodeTable : List TableRow :=
  [⟨.nop, 0x00000000, 0xFF000000⟩, ⟨.rbPut, 0x01000000, 0xFFFF00FE⟩,
   ⟨.rbPspace, 0x02000000, 0xFFFFFFFF⟩, ⟨.rbGet, 0x10000000, 0xFFFFFFFF⟩,
   ⟨.rbSpace, 0x11000000, 0xFFFFFFFF⟩, ⟨.rbOcc, 0x12000000, 0xFFFFFFFF⟩,
   ⟨.rbOvfclr, 0x13000000, 0xFFFFFFFF⟩, ⟨.rbFlush, 0x14000000, 0xFFFFFFFF⟩,
   ⟨.feed, 0x20000000, 0xFFFFFFFF⟩, ⟨.databit, 0x21000000, 0xFFFF00FE⟩,
   ⟨.corPeek, 0x30000000, 0xFF00FFFF⟩, ⟨.statRd, 0x31000000, 0xFF0FFFFF⟩,
   ⟨.fsmReset, 0x40000000, 0xFF0FFFFF⟩, ⟨.modeSet, 0x41000000, 0xFFFFFFF8⟩,
   ⟨.cfgWr, 0x50000000, 0xFF000000⟩, ⟨.cfgRd, 0x51000000, 0xFF00FFFF⟩]

/-- A word as the four bytes a byte-wide bus carries, bits [31:24] first (20_memory.md R87). -/
def serialBytes (w : Word) : List Byte :=
  [w.extractLsb' 24 8, w.extractLsb' 16 8, w.extractLsb' 8 8, w.extractLsb' 0 8]

/-- The word of four bytes received from a byte-wide bus, bits [31:24] first (20_memory.md R87). -/
def wordOfBytes (b3 b2 b1 b0 : Byte) : Word := b3 ++ b2 ++ b1 ++ b0

/-- The command our decoder reads from the table's bits: a command is one 32-bit parallel word
(R110; R87: it has no byte order), and the bits above `nbits` are 0. -/
def decodeTableWord (nbits w : Nat) : Option Instr :=
  match decode (BitVec.ofNat 32 (w % 2 ^ nbits)) with
  | .ok i => some i
  | .error _ => none

end Sys2Proof
end

