-- ==== Sys2Proof/Config.lean ====
section
/-! DEFINITION. What the implementation fixes: the constants to which 00_scope.md R9 gives a value,
the type of the parameters R9 leaves OPEN (`Params`), and the one free value (the signal level of
42_frame_common.md R220). Notes: notes/assumptions/1.md, 2.md, 3.md. -/

namespace Sys2Proof

/-- Role of a sync pattern, also the value of `SK_u`: 0 DATA, 1 VOICE (10_state.md R52, R182). -/
inductive Role where
  | data
  | voice
  deriving DecidableEq, Repr

/-- The class of a TDMA data type: the range of `DT_CLASS` (00_scope.md R9, 43_tdma_duplex.md R257). -/
inductive DtClass where
  | header
  | cont
  | vhdr
  | tlc
  | other
  deriving DecidableEq, Repr

/-- The class of a second-protocol frame type, also the value of `CL_P2`: 0 VOICE, 1 DATA, 2 TERM
(00_scope.md R9, 10_state.md R60). -/
inductive FClass where
  | voice
  | data
  | term
  deriving DecidableEq, Repr

/-- The six receive units, in identifier order (00_scope.md R10). -/
inductive UnitId where
  | dx1
  | dx2
  | sx
  | is
  | p2
  | p3
  deriving DecidableEq, Repr

/-- The two timeslots of the duplex TDMA units (43_tdma_duplex.md R250). -/
inductive SlotId where
  | slot1
  | slot2
  deriving DecidableEq, Repr

/-- A sync pattern (role, N, P), the earliest-received bit at bit N-1 (41_correlator.md R182). -/
structure SyncPattern where
  role : Role
  len : Nat
  value : BitVec 64
  deriving DecidableEq, Repr

/-- A parameter set: every parameter of 00_scope.md R9 that R9 leaves OPEN, as plain data.

The pure functions among them are given by their graphs, finite because their arguments are:
`slotCodec` is `SlotTypeDecode` (the field values that decode, each with its colour code and data
type; every other value fails to decode), `nidCodec` is `NidDecode` (network id and frame type),
`dtClass` is `DT_CLASS` (a data type it does not list is OTHER) and `frameTypes` is `FLEN` with
`FCLASS` (a frame type it does not list has no length). Where a key is listed twice the first entry
counts. ST_LEN is the length of `stPos`. -/
structure Params where
  aw : Nat
  patDx : List SyncPattern
  patSx : List SyncPattern
  patIs : List SyncPattern
  patP2 : List SyncPattern
  patP3 : List SyncPattern
  tAcqDx : Nat
  tAcqSx : Nat
  tAcqIs : Nat
  tAcqP2 : Nat
  tAcqP3 : Nat
  tLockDx : Nat
  tLockSx : Nat
  tLockP2 : Nat
  tLockP3 : Nat
  maxLostDx : Nat
  maxLostSx : Nat
  maxLostP2 : Nat
  maxLostP3 : Nat
  wSx : Nat
  wIs : Nat
  wP2 : Nat
  wP3 : Nat
  fT : Nat
  periodSx : Nat
  syncEndOfs : Nat
  stPos : List Nat
  slotCodec : List (Nat × BitVec 4 × BitVec 4)
  dtClass : List (BitVec 4 × DtClass)
  idleFwdDt : BitVec 4
  nidLen : Nat
  nidCodec : List (Nat × BitVec 12 × BitVec 4)
  frameTypes : List (BitVec 4 × Nat × FClass)
  f3 : Nat
  deriving DecidableEq, Repr

/-- W_DX = 576 (00_scope.md R9). -/
def Config.wDx : Nat := 576

/-- PERIOD_DX = 576 = W_DX (00_scope.md R9). -/
def Config.periodDx : Nat := 576

/-- ACQ_WIN = 2 (00_scope.md R9). -/
def Config.acqWin : Nat := 2

/-- SR_W = 64, the width of the correlator shift register (00_scope.md R9). -/
def Config.srW : Nat := 64

/-- SYNC_STAGES = 2 (00_scope.md R9: timing only, no rule of the model depends on it;
note 17). -/
def Config.syncStages : Nat := 2

/-- TAG_SLOT1 = 1 and TAG_SLOT2 = 2 (00_scope.md R9, 43_tdma_duplex.md R250). -/
def Config.tagSlot : SlotId → Tag
  | .slot1 => 1
  | .slot2 => 2

/-- `RssiRead()`: the n-th signal-level draw. A FREE VALUE (42_frame_common.md R220): nothing in
this package can evaluate it; a statement holds for every value of it. Notes: assumption 3. -/
opaque Config.rssiDraw : Nat → BitVec 16

end Sys2Proof
end

