-- ==== Sys2Proof/Machine/Params.lean ====
section
/-! DEFINITION. The parameter set as the rules use it: derived parameters, the constraints of
00_scope.md R9 (`paramsOk`), and the sample set that `State.reset` is built with. -/

namespace Sys2Proof.Machine

open Sys2Proof

/-- L = 2^AW, the ring buffer capacity in samples (00_scope.md R9). -/
def capacity (p : Params) : Nat := 2 ^ p.aw

/-- PAT_u, the ordered pattern list of unit u (41_correlator.md R185). -/
def patterns (p : Params) : UnitId → List SyncPattern
  | .dx1 | .dx2 => p.patDx
  | .sx => p.patSx
  | .is => p.patIs
  | .p2 => p.patP2
  | .p3 => p.patP3

/-- SYNC_LEN_u, the common length of the patterns of unit u (41_correlator.md R182). -/
def syncLen (p : Params) (u : UnitId) : Nat :=
  match patterns p u with
  | [] => 0
  | q :: _ => q.len

/-- W_u, the sample window length of unit u (00_scope.md R9). -/
def winLen (p : Params) : UnitId → Nat
  | .dx1 | .dx2 => Config.wDx
  | .sx => p.wSx
  | .is => p.wIs
  | .p2 => p.wP2
  | .p3 => p.wP3

/-- T_ACQ_u (00_scope.md R9). -/
def tAcq (p : Params) : UnitId → Nat
  | .dx1 | .dx2 => p.tAcqDx
  | .sx => p.tAcqSx
  | .is => p.tAcqIs
  | .p2 => p.tAcqP2
  | .p3 => p.tAcqP3

/-- T_LOCK_u; IS never locks and has none, so its acquisition threshold stands (R187). -/
def tLock (p : Params) : UnitId → Nat
  | .dx1 | .dx2 => p.tLockDx
  | .sx => p.tLockSx
  | .is => p.tAcqIs
  | .p2 => p.tLockP2
  | .p3 => p.tLockP3

/-- MAX_LOST_u; IS has no lock-loss counter (10_state.md R50). -/
def maxLost (p : Params) : UnitId → Nat
  | .dx1 | .dx2 => p.maxLostDx
  | .sx => p.maxLostSx
  | .is => 0
  | .p2 => p.maxLostP2
  | .p3 => p.maxLostP3

/-- PRE_T = (F_T - SYNC_LEN_T) / 2, SYNC_LEN_T being unit u's pattern length (00_scope.md R9). -/
def preT (p : Params) (u : UnitId) : Nat := (p.fT - syncLen p u) / 2

/-- `DT_CLASS(dt)` (00_scope.md R9, 43_tdma_duplex.md R257). -/
def classOf (p : Params) (dt : BitVec 4) : DtClass := (p.dtClass.lookup dt).getD .other

/-- `SlotTypeDecode(v)`: none, or the colour code and the data type (43_tdma_duplex.md R255). -/
def slotTypeDecode (p : Params) (v : Nat) : Option (BitVec 4 × BitVec 4) := p.slotCodec.lookup v

/-- `NidDecode(v)`: none, or the network id and the frame type (46_proto2.md R333). -/
def nidDecode (p : Params) (v : Nat) : Option (BitVec 12 × BitVec 4) := p.nidCodec.lookup v

/-- `FLEN(ft)` with `FCLASS(ft)`, which is defined where FLEN is (00_scope.md R9). -/
def frameType (p : Params) (ft : BitVec 4) : Option (Nat × FClass) := p.frameTypes.lookup ft

/-- The constraints on one pattern list: 1 to 16 patterns, one length N for all of them with
1 ≤ N ≤ SR_W, every value below 2^N (00_scope.md R9, 41_correlator.md R182, R185). -/
def patternListOk (l : List SyncPattern) : Bool :=
  match l with
  | [] => false
  | q :: _ =>
    decide (l.length ≤ 16) && decide (1 ≤ q.len) && decide (q.len ≤ Config.srW) &&
      l.all fun r => r.len == q.len && decide (r.value.toNat < 2 ^ r.len)

/-- A list of exactly one pattern of role DATA (41_correlator.md R182, R185: IS, P2, P3). -/
def singleDataPattern (l : List SyncPattern) : Bool :=
  patternListOk l && l.length == 1 && l.all fun q => q.role == .data

/-- 0 ≤ T_ACQ ≤ 2, 2 ≤ T_LOCK ≤ 4 and T_ACQ ≤ T_LOCK (00_scope.md R9). -/
def thresholdsOk (acq lock : Nat) : Bool :=
  decide (acq ≤ 2) && decide (2 ≤ lock) && decide (lock ≤ 4) && decide (acq ≤ lock)

/-- 1 ≤ MAX_LOST ≤ 255 (00_scope.md R9). -/
def maxLostOk (n : Nat) : Bool := decide (1 ≤ n) && decide (n ≤ 255)

/-- The pattern and threshold constraints of all units, the simplex thresholds no looser than the
duplex ones (00_scope.md R9, 41_correlator.md R185, R187). -/
def correlatorOk (p : Params) : Bool :=
  patternListOk p.patDx && patternListOk p.patSx && singleDataPattern p.patIs &&
    singleDataPattern p.patP2 && singleDataPattern p.patP3 &&
    thresholdsOk p.tAcqDx p.tLockDx && thresholdsOk p.tAcqSx p.tLockSx &&
    decide (p.tAcqIs ≤ 2) && thresholdsOk p.tAcqP2 p.tLockP2 && thresholdsOk p.tAcqP3 p.tLockP3 &&
    decide (p.tAcqSx ≤ p.tAcqDx) && decide (p.tLockSx ≤ p.tLockDx)

/-- The TDMA constraints: one SYNC_LEN_T for DX, SX and IS; F_T - SYNC_LEN_T even and at least 2;
F_T at most every TDMA window; PERIOD_SX ≥ 1; SYNC_END_OFS < W_DX; ST_POS ascending and within
[0, F_T) (00_scope.md R9, 42_frame_common.md R203, R209). -/
def tdmaOk (p : Params) : Bool :=
  syncLen p .sx == syncLen p .dx1 && syncLen p .is == syncLen p .dx1 &&
    decide (syncLen p .dx1 + 2 ≤ p.fT) && (p.fT - syncLen p .dx1) % 2 == 0 &&
    decide (p.fT ≤ Config.wDx) && decide (p.fT ≤ p.wSx) && decide (p.fT ≤ p.wIs) &&
    decide (1 ≤ p.periodSx) && decide (p.syncEndOfs < Config.wDx) &&
    decide (p.stPos.Pairwise (· < ·)) && p.stPos.all (fun j => decide (j < p.fT))

/-- Frame type `ft`, if it has a length, satisfies SYNC_LEN_P2 + NID_LEN ≤ FLEN(ft) ≤ W_P2, and
fits the 16-bit register FL_P2 (00_scope.md R9; the fit is DEDUCED from 10_state.md R60, note 4). -/
def frameTypeOk (p : Params) (ft : BitVec 4) : Bool :=
  match frameType p ft with
  | none => true
  | some (len, _) =>
    decide (syncLen p .p2 + p.nidLen ≤ len) && decide (len ≤ p.wP2) && decide (len < 2 ^ 16)

/-- The second-protocol constraints: NID_LEN ≥ 1, a window of at least one bit (DEDUCED, note 4), and
those of every frame type (00_scope.md R9). -/
def proto2Ok (p : Params) : Bool :=
  decide (1 ≤ p.nidLen) && decide (1 ≤ p.wP2) &&
    (List.range 16).all fun ft => frameTypeOk p (BitVec.ofNat 4 ft)

/-- 1 ≤ F3 ≤ W_P3 (00_scope.md R9). -/
def proto3Ok (p : Params) : Bool := decide (1 ≤ p.f3) && decide (p.f3 ≤ p.wP3)

/-- The well-formedness conditions of a parameter set (00_scope.md R9, last column): "a parameter set
that violates one is refused". -/
def paramsOk (p : Params) : Bool :=
  decide (1 ≤ p.aw) && decide (p.aw ≤ 23) && correlatorOk p &&
    maxLostOk p.maxLostDx && maxLostOk p.maxLostSx && maxLostOk p.maxLostP2 &&
    maxLostOk p.maxLostP3 && tdmaOk p && proto2Ok p && proto3Ok p

/-- The parameter set `State.reset` is built with. DESIGN CHOICE (note 1, unsafe): 00_scope.md R9
leaves every one of these values OPEN; they are the small set TOY of 95_test_vectors.md §0, which
is normative for nothing. Every statement quantifies over the parameter set of its state. -/
def sampleParams : Params :=
  { aw := 2
    patDx := [⟨.data, 16, 0xB2D4⟩, ⟨.voice, 16, 0x4D2B⟩]
    patSx := [⟨.data, 16, 0x2B4D⟩, ⟨.voice, 16, 0xD4B2⟩]
    patIs := [⟨.data, 16, 0x9C63⟩]
    patP2 := [⟨.data, 16, 0xE11E⟩]
    patP3 := [⟨.data, 16, 0xA758⟩]
    tAcqDx := 0, tAcqSx := 0, tAcqIs := 0, tAcqP2 := 1, tAcqP3 := 0
    tLockDx := 2, tLockSx := 2, tLockP2 := 2, tLockP3 := 2
    maxLostDx := 3, maxLostSx := 3, maxLostP2 := 2, maxLostP3 := 2
    wSx := 64, wIs := 64, wP2 := 64, wP3 := 64
    fT := 32, periodSx := 32, syncEndOfs := 23
    stPos := [4, 5, 6, 7, 24, 25, 26, 27]
    slotCodec := (List.range 255).map fun v => (v, BitVec.ofNat 4 (v / 16), BitVec.ofNat 4 v)
    dtClass := [(6, .header), (7, .cont), (1, .vhdr), (2, .tlc)]
    idleFwdDt := 9
    nidLen := 8
    nidCodec := ((List.range 256).drop 1).map fun v =>
      (v, BitVec.ofNat 12 (v / 16), BitVec.ofNat 4 v)
    frameTypes := [(0, 48, .voice), (3, 32, .term), (4, 24, .term), (5, 40, .data)]
    f3 := 16 }

end Sys2Proof.Machine
end

