-- ==== Sys2Proof/Machine/State.lean ====
section
/-! DEFINITION. The state of the core as plain data (10_state.md), its value after reset
(70_reset_and_hazards.md R471), and the reasons a step can stop. Every field cites the rule that
gives it; the fields that are the model's own say so (INVENTORY.md, '## State'). -/

namespace Sys2Proof.Machine

open Sys2Proof

/-- Sparse storage: (index, value) pairs in one canonical form, indexes strictly rising and no value
listed that an unlisted index reads as (`Memory.wf`). -/
abbrev Memory (α : Type) := List (Nat × α)

/-- One ring-buffer entry: `RB_BIT` and `RB_TAG` at one index (10_state.md R34, 20_memory.md R90). -/
structure Sample where
  bit : Bool
  tag : Tag
  deriving DecidableEq, Repr

/-- What an entry of the ring-buffer storage that no put has written reads as. DESIGN CHOICE (note 5,
unsafe): R34 leaves it unspecified; no reachable state reads it (40_ring_buffer.md R160). -/
def Sample.unwritten : Sample := ⟨false, 0⟩

/-- What a window entry that nothing has written reads as: 0, the value mode activation gives every
entry (48_control.md R398). DESIGN CHOICE (note 6, unsafe) for the time before the first activation,
when R46 leaves the content unspecified. -/
def unwrittenBit : Bool := false

/-- The active protocol mode; values 6 and 7 are never held (10_state.md R32). -/
inductive Mode where
  | idle
  | dx
  | sx
  | is
  | p2
  | p3
  deriving DecidableEq, Repr

/-- The acquisition state `ST_u`: 0 NONE, 1 SYNC, 2 VOICE, 3 DATA (10_state.md R44). -/
inductive AcqState where
  | none
  | sync
  | voice
  | data
  deriving DecidableEq, Repr

/-- The two command ports (30_encoding.md R110). -/
inductive Port where
  | producer
  | consumer
  deriving DecidableEq, Repr

/-- The agents of 00_scope.md R8, each taking its own steps. -/
inductive Agent where
  | prod
  | cons
  | syncW2r
  | syncR2w
  | syncO2r
  deriving DecidableEq, Repr

/-- One entry of the interleaving: a step of an agent, or a level set on the reset input `rst`
(70_reset_and_hazards.md R470). -/
inductive Move where
  | agent (a : Agent)
  | rst (level : Bool)
  deriving DecidableEq, Repr

/-- The status codes (30_encoding.md R119). -/
inductive Status where
  | ok
  | illegalOp
  | wrongPort
  | badField
  | disabled
  | empty
  | full
  deriving DecidableEq, Repr

/-- The output events (42_frame_common.md R219, R217); the unit is the protocol tag or channel id,
its identifier (R224, note 18). -/
inductive Event where
  | frame (u : UnitId) (bytes : List Byte)
  | lost (u : UnitId)
  deriving DecidableEq, Repr

/-- The registers common to the units (10_state.md R44 to R54), positions as numbers below `W_u`.
`LC` exists in all units but IS, `SK` in the TDMA units, `SEQ` in DX1, DX2 and SX; elsewhere the
field keeps its reset value (note 7). -/
structure UnitRegs where
  st : AcqState
  sr : BitVec 64
  win : Memory Bool
  dp : Nat
  syp : Nat
  stp : Nat
  enp : Option Nat
  lc : BitVec 8
  sf : Bool
  sk : Role
  loss : Bool
  seq : BitVec 3
  deriving DecidableEq, Repr

/-- The slot-timing registers of a duplex unit: `EXP_u`, `PIS_u`, `DLY_u` (10_state.md R56 to R58). -/
structure SlotRegs where
  exp : Option Nat
  pis : Bool
  dly : BitVec 16
  deriving DecidableEq, Repr

/-- The header registers of P2: `HDP`, `FT`, `FL`, `CL`, `HOK`, `HSY` (10_state.md R59, R60). -/
structure HdrRegs where
  hdp : Option Nat
  ft : BitVec 4
  fl : BitVec 16
  cl : FClass
  hok : Bool
  hsy : Bool
  deriving DecidableEq, Repr

/-- The writable configuration registers (10_state.md R33); register 0x06 is the view of `MODE`. -/
structure CfgRegs where
  cc : BitVec 4
  nid : BitVec 12
  nidWild : Bool
  enables : BitVec 5
  chDelay : BitVec 16
  rssiEn : Bool
  deriving DecidableEq, Repr

/-- The ring buffer: storage, pointers with their Gray registers, the synchronised views, and the
overflow counter (10_state.md R34 to R40, note 17). Pointers and pointer views are numbers below 2L. -/
structure RingRegs where
  mem : Memory Sample
  wptr : Nat
  wptrG : Nat
  rptr : Nat
  rptrG : Nat
  wptrV : Nat
  rptrV : Nat
  ovfCnt : BitVec 8
  ovfG : BitVec 8
  ovfV : BitVec 8
  ovfAck : BitVec 8
  deriving DecidableEq, Repr

/-- A flush in progress: the micro-steps left, the count fixed at its start, and the mode that a
MODE_SET activates in the last micro-step (40_ring_buffer.md R150, 48_control.md R395). -/
structure FlushJob where
  left : Nat
  total : Nat
  activates : Option Mode
  deriving DecidableEq, Repr

/-- The state of the core and of its ports. -/
structure State where
  /-- The parameter set the hardware is built with; no step changes it (00_scope.md R9, R475). -/
  par : Params
  /-- The reset input is asserted (70_reset_and_hazards.md R470). -/
  rst : Bool
  /-- Model's own: the interleaving the environment chose, next move first (60_exceptions.md R438,
  note 8). -/
  moves : List Move
  /-- Model's own: the agent whose turn it is once `moves` is used up (note 8). -/
  turn : Agent
  /-- Command words presented on the producer port and not yet taken, in order (20_memory.md R93,
  note 12). -/
  prodIn : List Word
  /-- Command words presented on the consumer port and not yet taken, in order (20_memory.md R93,
  note 12). -/
  consIn : List Word
  /-- Model's own: the port whose agent stepped last, that is the port of the running
  command (note 11). -/
  port : Port
  /-- The last response word on the producer port (30_encoding.md R110, R118, note 10). -/
  prodResp : Option Word
  /-- The last response word on the consumer port; none while a flush is in progress
  (note 10). -/
  consResp : Option Word
  /-- The output event stream, oldest first (42_frame_common.md R225). -/
  events : List Event
  /-- Model's own: how many signal-level draws were taken (42_frame_common.md R220, note 3). -/
  draws : Nat
  /-- `MODE` (10_state.md R32). -/
  mode : Mode
  /-- The configuration registers (10_state.md R33). -/
  cfg : CfgRegs
  /-- The ring buffer (10_state.md R34 to R40). -/
  rb : RingRegs
  /-- The flush CONS is in the middle of, if any (40_ring_buffer.md R150, note 14). -/
  flush : Option FlushJob
  /-- The registers of the six units (10_state.md R44 to R54). -/
  dx1 : UnitRegs
  dx2 : UnitRegs
  sx : UnitRegs
  is : UnitRegs
  p2 : UnitRegs
  p3 : UnitRegs
  /-- The slot-timing registers of DX1 and DX2 (10_state.md R56 to R58). -/
  slot1 : SlotRegs
  slot2 : SlotRegs
  /-- The header registers of P2 (10_state.md R59, R60). -/
  hdr : HdrRegs
  deriving DecidableEq, Repr

/-- Why the machine stops with a fault. It has no constructor: the core has no traps and no stuck
state (60_exceptions.md R430, R433); an error is a status in a response word (R431, note 16). Safe. -/
inductive Fault where
  deriving DecidableEq, Repr

/-- Why a step has no meaning. -/
inductive Refusal where
  /-- Raised by an arm of `exec` whose instruction has no meaning yet; no arm is left. Safe. -/
  | notModelled (mnemonic : String)
  /-- Raised by `step` where the parameter set violates a constraint: "a parameter set that violates
  one is refused" (00_scope.md R9). Safe. -/
  | badParameters
  deriving DecidableEq, Repr

/-- The power-on values of a unit's registers (70_reset_and_hazards.md R471; `win`: note 6). -/
def UnitRegs.powerOn : UnitRegs :=
  { st := .none, sr := 0, win := [], dp := 0, syp := 0, stp := 0, enp := none, lc := 0,
    sf := false, sk := .data, loss := false, seq := 0 }

/-- The power-on values of a duplex unit's slot-timing registers (R471): none, 1, 0. -/
def SlotRegs.powerOn : SlotRegs := { exp := none, pis := true, dly := 0 }

/-- The power-on values of P2's header registers (R471). -/
def HdrRegs.powerOn : HdrRegs :=
  { hdp := none, ft := 0, fl := 0, cl := .voice, hok := false, hsy := false }

/-- The power-on values of the configuration registers (R471). -/
def CfgRegs.powerOn : CfgRegs :=
  { cc := 0, nid := 0, nidWild := false, enables := 0, chDelay := 0, rssiEn := false }

/-- The power-on values of the ring buffer (R471; `mem`: note 5). -/
def RingRegs.powerOn : RingRegs :=
  { mem := [], wptr := 0, wptrG := 0, rptr := 0, rptrG := 0, wptrV := 0, rptrV := 0,
    ovfCnt := 0, ovfG := 0, ovfV := 0, ovfAck := 0 }

/-- The state right after power-on reset of hardware built with parameter set `p`: `rst` released, no
command presented (70_reset_and_hazards.md R470 to R472). -/
def State.powerOn (p : Params) : State :=
  { par := p, rst := false, moves := [], turn := .prod, prodIn := [], consIn := [],
    port := .consumer, prodResp := none, consResp := none, events := [], draws := 0,
    mode := .idle, cfg := .powerOn, rb := .powerOn, flush := none,
    dx1 := .powerOn, dx2 := .powerOn, sx := .powerOn, is := .powerOn, p2 := .powerOn,
    p3 := .powerOn, slot1 := .powerOn, slot2 := .powerOn, hdr := .powerOn }

/-- The machine right after reset (70_reset_and_hazards.md R471), built with `sampleParams`. -/
def State.reset : State := State.powerOn sampleParams

end Sys2Proof.Machine
end

