-- ==== Sys2Proof/Machine/Ops.lean ====
section
/-! DEFINITION. The named operations over storage and registers that every meaning is written over:
sparse storage, the Gray code, register access, responses and statuses (the hardware's only
"exceptions", 60_exceptions.md R430, R431), the sample window, `reset(u)`, `lost(u)` and mode
activation, the event stream, the ring-buffer transfers, the flush and the synchroniser steps. -/

namespace Sys2Proof.Machine

open Sys2Proof

/-! ### Sparse storage -/

/-- Read index `a`; an unlisted index reads as `d`. -/
def Memory.read {α : Type} (d : α) : Memory α → Nat → α
  | [], _ => d
  | (k, x) :: t, a => if k = a then x else Memory.read d t a

/-- List index `a` with `v` in front of larger indexes, or not at all where `v` is what an unlisted
index reads as. -/
def Memory.put {α : Type} [DecidableEq α] (d : α) (a : Nat) (v : α) (t : Memory α) : Memory α :=
  if v = d then t else (a, v) :: t

/-- Write `v` at index `a`, keeping the canonical form. -/
def Memory.write {α : Type} [DecidableEq α] (d : α) : Memory α → Nat → α → Memory α
  | [], a, v => Memory.put d a v []
  | (k, x) :: t, a, v =>
    if k < a then (k, x) :: Memory.write d t a v
    else if k = a then Memory.put d a v t
    else Memory.put d a v ((k, x) :: t)

/-- The canonical form: indexes strictly rising, no value that an unlisted index reads as. -/
def Memory.wf {α : Type} [DecidableEq α] (d : α) (m : Memory α) : Bool :=
  decide (m.Pairwise fun x y => x.1 < y.1) && m.all fun x => decide (x.2 ≠ d)

/-- Every listed index is below `n`. -/
def Memory.below {α : Type} (n : Nat) (m : Memory α) : Bool := m.all fun x => decide (x.1 < n)

/-! ### Gray code (40_ring_buffer.md R140, R141) -/

/-- `gray(x) = x XOR (x >> 1)`. -/
def gray (x : Nat) : Nat := x ^^^ (x >>> 1)

/-- `gray_inv(g)` of an n-bit g: bit i of the result is the XOR of bits i to n-1 of g. -/
def grayInv : Nat → Nat → Nat
  | 0, _ => 0
  | n + 1, g => g ^^^ grayInv n (g >>> 1)

/-- `gray` of an overflow count, on OVF_W = 8 bits. -/
def grayOvf (x : BitVec 8) : BitVec 8 := BitVec.ofNat 8 (gray x.toNat)

/-! ### Codes and tables -/

/-- The unit identifiers (00_scope.md R10). -/
def unitCode : UnitId → Nat
  | .dx1 => 0 | .dx2 => 1 | .sx => 2 | .is => 3 | .p2 => 4 | .p3 => 5

/-- The units in ascending identifier order (00_scope.md R10). -/
def allUnits : List UnitId := [.dx1, .dx2, .sx, .is, .p2, .p3]

/-- The timeslot of a duplex unit (43_tdma_duplex.md R250). -/
def slotOf : UnitId → Option SlotId
  | .dx1 => some .slot1
  | .dx2 => some .slot2
  | _ => none

/-- The mode numbers (10_state.md R32). -/
def Mode.code : Mode → BitVec 3
  | .idle => 0 | .dx => 1 | .sx => 2 | .is => 3 | .p2 => 4 | .p3 => 5

/-- The active units of a mode, in ascending identifier order (48_control.md R392). -/
def Mode.active : Mode → List UnitId
  | .idle => []
  | .dx => [.dx1, .dx2]
  | .sx => [.sx]
  | .is => [.is]
  | .p2 => [.p2]
  | .p3 => [.p3]

/-- The state numbers (10_state.md R44). -/
def AcqState.code : AcqState → BitVec 2
  | .none => 0 | .sync => 1 | .voice => 2 | .data => 3

/-- The status codes (30_encoding.md R119). -/
def Status.code : Status → BitVec 8
  | .ok => 0x00 | .illegalOp => 0x01 | .wrongPort => 0x02 | .badField => 0x03
  | .disabled => 0x04 | .empty => 0x05 | .full => 0x06

/-! ### Responses -/

/-- A response word: STATUS[31:24], RESULT[23:0] (30_encoding.md R118). -/
def responseWord (st : Status) (result : BitVec 24) : Word := st.code ++ result

/-- Return a response word on port `p` (30_encoding.md R110). -/
def State.respondOn (s : State) (p : Port) (w : Word) : State :=
  match p with
  | .producer => { s with prodResp := some w }
  | .consumer => { s with consResp := some w }

/-- `return v; status OK` on the port of the running command (00_scope.md R12, R118). -/
def State.answer (s : State) (result : BitVec 24) : State :=
  s.respondOn s.port (responseWord .ok result)

/-- `status S` with S not OK: the response's RESULT is 0 and nothing else happens (30_encoding.md
R118, R120). This is the one operation by which a command reports an error: the core has no traps
(60_exceptions.md R430, R431). -/
def State.fail (s : State) (st : Status) : State :=
  s.respondOn s.port (responseWord st 0)

/-! ### Unit registers -/

/-- The registers of unit u. -/
def State.unit (s : State) : UnitId → UnitRegs
  | .dx1 => s.dx1
  | .dx2 => s.dx2
  | .sx => s.sx
  | .is => s.is
  | .p2 => s.p2
  | .p3 => s.p3

/-- Write the registers of unit u. -/
def State.setUnit (s : State) (u : UnitId) (r : UnitRegs) : State :=
  match u with
  | .dx1 => { s with dx1 := r }
  | .dx2 => { s with dx2 := r }
  | .sx => { s with sx := r }
  | .is => { s with is := r }
  | .p2 => { s with p2 := r }
  | .p3 => { s with p3 := r }

/-- The slot-timing registers of a duplex unit. -/
def State.slot (s : State) : SlotId → SlotRegs
  | .slot1 => s.slot1
  | .slot2 => s.slot2

/-- Write the slot-timing registers of a duplex unit. -/
def State.setSlot (s : State) (k : SlotId) (r : SlotRegs) : State :=
  match k with
  | .slot1 => { s with slot1 := r }
  | .slot2 => { s with slot2 := r }

/-- `WinRead(u, i)` (20_memory.md R82). -/
def winRead (s : State) (u : UnitId) (i : Nat) : Bool :=
  Memory.read unwrittenBit (s.unit u).win (i % winLen s.par u)

/-- `WinWrite(u, i, b)` (20_memory.md R82). -/
def winWrite (s : State) (u : UnitId) (i : Nat) (b : Bool) : State :=
  s.setUnit u { s.unit u with
    win := Memory.write unwrittenBit (s.unit u).win (i % winLen s.par u) b }

/-! ### reset(u), lost(u), activate(m) -/

/-- The registers of a unit after `reset(u)` (42_frame_common.md R214). -/
def UnitRegs.afterReset (r : UnitRegs) : UnitRegs :=
  { r with st := .none, sr := 0, syp := 0, stp := 0, enp := none, lc := 0, sf := false,
           sk := .data, seq := 0 }

/-- `reset(u)` (42_frame_common.md R214): P2's header registers too; `DP`, `WIN`, `LOSS` and the
slot-timing registers stay. -/
def resetUnit (u : UnitId) (s : State) : State :=
  let s' := s.setUnit u (s.unit u).afterReset
  match u with
  | .p2 => { s' with hdr := .powerOn }
  | _ => s'

/-- Append an event to the output event stream (42_frame_common.md R225). -/
def State.emit (s : State) (e : Event) : State := { s with events := s.events ++ [e] }

/-- `lost(u)`: emit LOST(u), set LOSS_u, reset(u) (42_frame_common.md R217). -/
def lostUnit (u : UnitId) (s : State) : State :=
  let s' := s.emit (.lost u)
  resetUnit u (s'.setUnit u { s'.unit u with loss := true })

/-- What mode activation does to one unit (48_control.md R398). -/
def activateUnit (s : State) (u : UnitId) : State :=
  let s' := resetUnit u s
  let s' := s'.setUnit u { s'.unit u with dp := 0, loss := false, win := [] }
  match slotOf u with
  | some k => s'.setSlot k { exp := none, pis := true, dly := 0 }
  | none => s'

/-- `activate(m)` (48_control.md R398). -/
def activate (m : Mode) (s : State) : State :=
  { allUnits.foldl activateUnit s with mode := m }

/-! ### Ring buffer -/

/-- `OCC_R = (WPTR_V - RPTR) mod 2L`, the consumer's view (10_state.md R41). -/
def occR (s : State) : Nat := modSub (2 * capacity s.par) s.rb.wptrV s.rb.rptr

/-- `OCC_W = (WPTR - RPTR_V) mod 2L`, the producer's view (10_state.md R41). -/
def occW (s : State) : Nat := modSub (2 * capacity s.par) s.rb.wptr s.rb.rptrV

/-- `OCC_T = (WPTR - RPTR) mod 2L`, the true occupancy, which no agent reads (10_state.md R41). -/
def occT (s : State) : Nat := modSub (2 * capacity s.par) s.rb.wptr s.rb.rptr

/-- A pointer one entry on: `(x + 1) mod 2L` (40_ring_buffer.md, opening). -/
def nextPtr (p : Params) (x : Nat) : Nat := (x + 1) % (2 * capacity p)

/-- The entry at `x mod L` of the ring-buffer storage (10_state.md R35, R36). -/
def ringEntry (s : State) (x : Nat) : Sample :=
  Memory.read Sample.unwritten s.rb.mem (x % capacity s.par)

/-- Store a sample at entry `WPTR mod L` and advance `WPTR` and `WPTR_G` (40_ring_buffer.md R144). -/
def ringPush (s : State) (x : Sample) : State :=
  { s with rb := { s.rb with
      mem := Memory.write Sample.unwritten s.rb.mem (s.rb.wptr % capacity s.par) x
      wptr := nextPtr s.par s.rb.wptr
      wptrG := gray (nextPtr s.par s.rb.wptr) } }

/-- Count a failed put in `OVF_CNT` and `OVF_G` (40_ring_buffer.md R144). -/
def ringOverflow (s : State) : State :=
  { s with rb := { s.rb with ovfCnt := s.rb.ovfCnt + 1, ovfG := grayOvf (s.rb.ovfCnt + 1) } }

/-- Advance `RPTR` and `RPTR_G` by one entry (40_ring_buffer.md R146, R150; 48_control.md R391). -/
def ringPop (s : State) : State :=
  { s with rb := { s.rb with
      rptr := nextPtr s.par s.rb.rptr
      rptrG := gray (nextPtr s.par s.rb.rptr) } }

/-- The RESULT of a taken sample, without bit 17: bit 16 valid, tag in [15:8], bit in [0]
(40_ring_buffer.md R146). -/
def sampleResult (x : Sample) : BitVec 24 := 0#7 ++ 1#1 ++ x.tag ++ 0#7 ++ BitVec.ofBool x.bit

/-! ### The flush (40_ring_buffer.md R150, 48_control.md R395) -/

/-- The end of a flush, in its last micro-step: activate the mode of a MODE_SET, then return the
number of samples discarded on the consumer port. -/
def finishFlush (total : Nat) (activates : Option Mode) (s : State) : State :=
  let s' := match activates with
    | some m => activate m s
    | none => s
  s'.respondOn .consumer (responseWord .ok (BitVec.ofNat 24 total))

/-- The start of a flush: `k = OCC_R` is fixed; with k = 0 the command completes at once, else k
micro-steps of CONS follow, and its response comes with the last of them (notes 10 and 14). -/
def startFlush (activates : Option Mode) (s : State) : State :=
  if occR s = 0 then finishFlush 0 activates s
  else { s with flush := some ⟨occR s, occR s, activates⟩, consResp := none }

/-- One micro-step of a flush: `RPTR` moves by one entry, and the last one ends the flush. -/
def flushStep (job : FlushJob) (s : State) : State :=
  let s' := ringPop s
  if job.left ≤ 1 then finishFlush job.total job.activates { s' with flush := none }
  else { s' with flush := some { job with left := job.left - 1 } }

/-! ### Synchroniser steps -/

/-- SYNC_W2R: `WPTR_V <- WPTR` (40_ring_buffer.md R151). -/
def syncW2r (s : State) : State := { s with rb := { s.rb with wptrV := s.rb.wptr } }

/-- SYNC_R2W: `RPTR_V <- RPTR` (40_ring_buffer.md R152). -/
def syncR2w (s : State) : State := { s with rb := { s.rb with rptrV := s.rb.rptr } }

/-- SYNC_O2R: `OVF_V <- OVF_CNT` (40_ring_buffer.md R153). -/
def syncO2r (s : State) : State := { s with rb := { s.rb with ovfV := s.rb.ovfCnt } }

/-! ### Configuration registers (10_state.md R33) -/

/-- Read configuration register `reg`; none for a reserved index (30_encoding.md R126). -/
def cfgRead (s : State) (reg : BitVec 8) : Option (BitVec 24) :=
  match reg.toNat with
  | 0 => some (s.cfg.cc.setWidth 24)
  | 1 => some (s.cfg.nid.setWidth 24)
  | 2 => some ((BitVec.ofBool s.cfg.nidWild).setWidth 24)
  | 3 => some (s.cfg.enables.setWidth 24)
  | 4 => some (s.cfg.chDelay.setWidth 24)
  | 5 => some ((BitVec.ofBool s.cfg.rssiEn).setWidth 24)
  | 6 => some (s.mode.code.setWidth 24)
  | _ => none

/-- Write `VALUE[w-1:0]` to configuration register `reg`; none for a reserved index and for the
read-only 0x06 (48_control.md R399). -/
def cfgWrite (c : CfgRegs) (reg : BitVec 8) (value : BitVec 16) : Option CfgRegs :=
  match reg.toNat with
  | 0 => some { c with cc := value.setWidth 4 }
  | 1 => some { c with nid := value.setWidth 12 }
  | 2 => some { c with nidWild := value.getLsbD 0 }
  | 3 => some { c with enables := value.setWidth 5 }
  | 4 => some { c with chDelay := value }
  | 5 => some { c with rssiEn := value.getLsbD 0 }
  | _ => none

/-! ### Power-on reset -/

/-- Power-on reset of running hardware: every register and the output streams at their power-on
values (70_reset_and_hazards.md R470, R471). The parameter set, the commands still to be presented
and the interleaving are not state of the core and stay, and the draws already taken stay counted
(note 13). A flush begun before the reset is dropped: no response, no activation (DESIGN CHOICE,
note 13). -/
def powerOnReset (s : State) : State :=
  { State.powerOn s.par with
    moves := s.moves, turn := s.turn, prodIn := s.prodIn, consIn := s.consIn, port := s.port,
    draws := s.draws }

/-- The level of `rst` changes: while it is asserted the core is held in reset, and after its
deassertion every register holds its power-on value (70_reset_and_hazards.md R470). Deasserting an
input that is not asserted changes nothing. -/
def setRst (level : Bool) (s : State) : State :=
  if level || s.rst then { powerOnReset s with rst := level } else s

end Sys2Proof.Machine
end

