-- ==== Sys2Proof/Machine/Operands.lean ====
section
/-! DEFINITION. The operand forms: the port a command is legal on, the UNIT and MODE operands with
their ranges (30_encoding.md R116, R119, R121), and the sample carried in a command word. -/

namespace Sys2Proof.Machine

open Sys2Proof

/-- The unit a UNIT operand names; none above 5 (00_scope.md R10, 30_encoding.md R119). -/
def unitOf (x : BitVec 4) : Option UnitId :=
  match x.toNat with
  | 0 => some .dx1
  | 1 => some .dx2
  | 2 => some .sx
  | 3 => some .is
  | 4 => some .p2
  | 5 => some .p3
  | _ => none

/-- The mode a MODE operand names; none above 5 (10_state.md R32, 30_encoding.md R119). -/
def modeOf (x : BitVec 3) : Option Mode :=
  match x.toNat with
  | 0 => some .idle
  | 1 => some .dx
  | 2 => some .sx
  | 3 => some .is
  | 4 => some .p2
  | 5 => some .p3
  | _ => none

/-- The port check every command makes first: on the other port the status is WRONG_PORT and nothing
happens (30_encoding.md R119 to R121, 40_ring_buffer.md R143). -/
def onPort (p : Port) (s : State) (run : State → State) :
    Host.Outcome State Fault Refusal :=
  if s.port = p then .next (run s) else .next (s.fail .wrongPort)

/-- A UNIT operand checked: BAD_FIELD above 5 (30_encoding.md R125). -/
def withUnit (x : BitVec 4) (s : State) (run : UnitId → State → State) : State :=
  match unitOf x with
  | none => s.fail .badField
  | some u => run u s

/-- Bit m-1 of ENABLES enables mode m; IDLE needs none (48_control.md R395, R396). -/
def modeEnabled (s : State) (m : Mode) : Bool :=
  m == .idle || s.cfg.enables.getLsbD (m.code.toNat - 1)

end Sys2Proof.Machine
end

