-- ==== Sys2Proof/Machine/Flags.lean ====
section
/-! DEFINITION. The flags a command or an event exposes (10_state.md R31): the full and empty
conditions, the overflow indication, the control byte of a frame, and the status bits of STAT_RD. -/

namespace Sys2Proof.Machine

open Sys2Proof

/-- Full in the producer's view: `OCC_W = L` (10_state.md R41). -/
def isFull (s : State) : Bool := occW s == capacity s.par

/-- Empty in the consumer's view: `OCC_R = 0` (10_state.md R41). -/
def isEmpty (s : State) : Bool := occR s == 0

/-- The overflow indication `OVF_V != OVF_ACK` (10_state.md R42). -/
def overflowFlag (s : State) : Bool := s.rb.ovfV != s.rb.ovfAck

/-- Whether unit u belongs to the active mode (48_control.md R392). -/
def unitActive (s : State) (u : UnitId) : Bool := s.mode.active.contains u

/-- The control byte of a frame: RSSI, SYNC, VOICE, LOSS, SUB (42_frame_common.md R222). -/
def controlByte (rssi sync voice loss : Bool) (sub : BitVec 4) : Byte :=
  BitVec.ofBool rssi ++ BitVec.ofBool sync ++ BitVec.ofBool voice ++ BitVec.ofBool loss ++ sub

/-- The RESULT of STAT_RD: [1:0] ST, [2] ENP set, [3] SF, [4] LOSS, [7:5] SEQ, [15:8] LC, [16] active
(48_control.md R401). -/
def statBits (r : UnitRegs) (active : Bool) : BitVec 24 :=
  0#7 ++ BitVec.ofBool active ++ r.lc ++ r.seq ++ BitVec.ofBool r.loss ++ BitVec.ofBool r.sf ++
    BitVec.ofBool r.enp.isSome ++ r.st.code

/-- The RESULT of FEED and DATABIT: bit 17 routed, then as RB_GET (48_control.md R391, R393). -/
def routedResult (routed : Bool) (x : Sample) : BitVec 24 :=
  0#6 ++ BitVec.ofBool routed ++ 1#1 ++ x.tag ++ 0#7 ++ BitVec.ofBool x.bit

end Sys2Proof.Machine
end

