-- ==== Sys2Proof/Machine/Correlator.lean ====
section
/-! DEFINITION. The Hamming-distance sync correlator (41_correlator.md) and COR_PEEK. -/

namespace Sys2Proof.Machine

open Sys2Proof

/-- The number of 1 bits among the low `n` bits of `x` (00_scope.md R12, 41_correlator.md R192). -/
def popcount : Nat → Nat → Nat
  | 0, _ => 0
  | n + 1, x => x % 2 + popcount n (x / 2)

/-- `SR <- ((SR << 1) | b) mod 2^SR_W` (41_correlator.md R180). -/
def shiftIn (sr : BitVec 64) (b : Bool) : BitVec 64 := (sr <<< 1) ||| (BitVec.ofBool b).setWidth 64

/-- The mask `2^N - 1` (41_correlator.md R182). -/
def patternMask (n : Nat) : BitVec 64 := BitVec.ofNat 64 (2 ^ n - 1)

/-- `err(SR, (role, N, P)) = popcount((SR AND (2^N - 1)) XOR P)` (41_correlator.md R183). -/
def errCount (sr : BitVec 64) (q : SyncPattern) : Nat :=
  popcount Config.srW ((sr &&& patternMask q.len) ^^^ q.value).toNat

/-- Pattern `q` matches at threshold `t` (41_correlator.md R184). -/
def patternMatches (sr : BitVec 64) (t : Nat) (q : SyncPattern) : Bool :=
  decide (errCount sr q ≤ t)

/-- `correlate(SR, PAT, T)`: the least index whose pattern matches (41_correlator.md R186). -/
def correlate (sr : BitVec 64) (pats : List SyncPattern) (t : Nat) : Option Nat :=
  pats.findIdx? (patternMatches sr t)

/-- `T(u, s)`, the threshold of unit u in state s (41_correlator.md R187; in a state the unit never
holds: note 15). -/
def threshold (p : Params) (u : UnitId) (st : AcqState) : Nat :=
  match st with
  | .none => tAcq p u
  | .sync => if u = .p2 then tAcq p u else tLock p u
  | .voice => tLock p u
  | .data => tLock p u

/-- `cdist_W(a, b) = min((a - b) mod W, (b - a) mod W)` (00_scope.md R13). -/
def cdist (w a b : Nat) : Nat := min (modSub w a b) (modSub w b a)

/-- The gate of step 6: a duplex unit in NONE correlates only within ACQ_WIN of its expected sync
position, and never before its slot start was seen; every other unit and state always
(42_frame_common.md R201, 43_tdma_duplex.md R253). -/
def gateOpen (u : UnitId) (s : State) : Bool :=
  match slotOf u with
  | none => true
  | some k =>
    if (s.unit u).st = .none then
      match (s.slot k).exp with
      | none => false
      | some e => decide (cdist Config.wDx (s.unit u).dp e ≤ Config.acqWin)
    else true

/-- The error count and the match bit of pattern IDX of unit u (41_correlator.md R188). -/
def peekResult (s : State) (u : UnitId) (q : SyncPattern) : BitVec 24 :=
  let e := errCount (s.unit u).sr q
  0#15 ++ BitVec.ofBool (decide (e ≤ threshold s.par u (s.unit u).st)) ++ BitVec.ofNat 8 e

/-- COR_PEEK: read one pattern's error count (41_correlator.md R188). -/
def execCorPeek (unit idx : BitVec 4) (s : State) : Host.Outcome State Fault Refusal :=
  onPort .consumer s fun s => withUnit unit s fun u s =>
    match (patterns s.par u)[idx.toNat]? with
    | none => s.fail .badField
    | some q => s.answer (peekResult s u q)

end Sys2Proof.Machine
end

