-- ==== Sys2Proof/Machine/Frame.lean ====
section
/-! DEFINITION. What the unit files share (42_frame_common.md): frame bits and their packing, the
dispatch of frames, the frame period and lock loss. -/

namespace Sys2Proof.Machine

open Sys2Proof

/-- How a header step or a frame-end step of `unit_bit` ends: `goOn` continues with the next step,
`skip` is "go to step 7" after a `reset(u)` (42_frame_common.md R200, R215). -/
inductive Flow where
  | goOn (s : State)
  | skip (s : State)
  deriving DecidableEq, Repr

/-- `FB(u, j) = WinRead(u, STP_u + j)` (42_frame_common.md R206). -/
def frameBit (s : State) (u : UnitId) (j : Nat) : Bool := winRead s u ((s.unit u).stp + j)

/-- The byte whose bit n is `f n`. -/
def byteOf (f : Nat → Bool) : Byte :=
  BitVec.ofBool (f 7) ++ BitVec.ofBool (f 6) ++ BitVec.ofBool (f 5) ++ BitVec.ofBool (f 4) ++
    BitVec.ofBool (f 3) ++ BitVec.ofBool (f 2) ++ BitVec.ofBool (f 1) ++ BitVec.ofBool (f 0)

/-- F frame bits packed into `ceil(F / 8)` bytes: byte k has frame bit `8k + 7 - n` at bit n, and 0
beyond F (20_memory.md R84, 42_frame_common.md R207). -/
def packBits (f : Nat → Bool) (len : Nat) : List Byte :=
  (List.range ((len + 7) / 8)).map fun k =>
    byteOf fun n => decide (8 * k + 7 - n < len) && f (8 * k + 7 - n)

/-- `pack(u, F)` (42_frame_common.md R207). -/
def packFrame (s : State) (u : UnitId) (len : Nat) : List Byte := packBits (frameBit s u) len

/-- The integer value of a field vector, its earliest-received bit first and most significant
(20_memory.md R85). -/
def fieldValue (bits : List Bool) : Nat := bits.foldl (fun v b => 2 * v + b.toNat) 0

/-- The bytes of a frame before its signal-level bytes: the control byte, then the packed frame
(42_frame_common.md R219). -/
def framePayload (s : State) (u : UnitId) (sync voice : Bool) (sub : BitVec 4) (len : Nat) :
    List Byte :=
  controlByte s.cfg.rssiEn sync voice (s.unit u).loss sub :: packFrame s u len

/-- A 16-bit signal level as two bytes, the high one first (20_memory.md R86). -/
def rssiBytes (v : BitVec 16) : List Byte := [v.extractLsb' 8 8, v.extractLsb' 0 8]

/-- `emit_frame(u, sync, voice, sub, F)` (42_frame_common.md R219): with RSSI_EN = 1 one signal-level
draw is taken and appended (R220; the draw is a free value, note 3). -/
def emitFrame (u : UnitId) (sync voice : Bool) (sub : BitVec 4) (len : Nat) (s : State) : State :=
  let bytes := framePayload s u sync voice sub len
  let s' := if s.cfg.rssiEn then
      { s.emit (.frame u (bytes ++ rssiBytes (Config.rssiDraw s.draws))) with draws := s.draws + 1 }
    else s.emit (.frame u bytes)
  s'.setUnit u { s'.unit u with loss := false }

/-- `advance(u, P)`: the frame positions one frame period on (42_frame_common.md R212). -/
def advanceFrame (u : UnitId) (period : Nat) (s : State) : State :=
  let r := s.unit u
  let w := winLen s.par u
  s.setUnit u { r with
    syp := (r.syp + period) % w
    stp := (r.stp + period) % w
    enp := r.enp.map fun e => (e + period) % w }

/-- `lockloss(u, confirmed)`: `goOn` is CONTINUE, `skip` is ENDED (42_frame_common.md R213). -/
def lockLoss (u : UnitId) (confirmed : Bool) (s : State) : Flow :=
  let r := s.unit u
  if confirmed then .goOn (s.setUnit u { r with lc := BitVec.ofNat 8 (maxLost s.par u) })
  else
    let s' := s.setUnit u { r with lc := r.lc - 1 }
    if r.lc - 1 = 0 then .skip (lostUnit u s') else .goOn s'

/-- What every `on_sync` begins with: `SYP_u <- DP_u; SF_u <- 1` (42_frame_common.md R202). -/
def markSync (u : UnitId) (s : State) : State :=
  s.setUnit u { s.unit u with syp := (s.unit u).dp, sf := true }

end Sys2Proof.Machine
end

