-- ==== Sys2Proof/Machine/Proto2.lean ====
section
/-! DEFINITION. The second-protocol unit P2 (46_proto2.md). -/

namespace Sys2Proof.Machine

open Sys2Proof

/-- `on_sync(P2, 0)` (46_proto2.md R332). -/
def onSyncP2 (s : State) : State :=
  let s := markSync .p2 s
  let s := { s with hdr := { s.hdr with
    hdp := some ((s.p2.syp + s.par.nidLen) % winLen s.par .p2), hsy := true } }
  if s.p2.st = .none then { s with p2 := { s.p2 with st := .sync } } else s

/-- `hdrfield()`: the NID_LEN bits after the last sync bit, earliest-received bit most significant
(46_proto2.md R333). -/
def headerField (s : State) : Nat :=
  fieldValue ((List.range s.par.nidLen).map fun k => winRead s .p2 (s.p2.syp + 1 + k))

/-- The frame type, frame length and class of a valid header: it decodes, its network id is the NID
register's or NID_WILD is set, and its frame type has a length (46_proto2.md R334, R335). -/
def validHeader (s : State) : Option (BitVec 4 × Nat × FClass) :=
  match nidDecode s.par (headerField s) with
  | none => none
  | some (nid, ft) =>
    if s.cfg.nidWild || nid == s.cfg.nid then
      match frameType s.par ft with
      | none => none
      | some (len, cl) => some (ft, len, cl)
    else none

/-- The state after a valid header of class `cl` (46_proto2.md R334): a TERM header in SYNC enters
DATA, and elsewhere leaves the state unchanged. -/
def stateAfterHeader (st : AcqState) (cl : FClass) : AcqState :=
  if st = .sync then
    match cl with
    | .voice => .voice
    | .data => .data
    | .term => .data
  else
    match cl with
    | .voice => .voice
    | .data => .data
    | .term => st

/-- `header_P2()` (46_proto2.md R334, R336, R337; geometry 42_frame_common.md R204). -/
def headerP2 (s : State) : Flow :=
  let s := { s with hdr := { s.hdr with hdp := none } }
  match validHeader s with
  | none =>
    if s.hdr.hsy then .skip (lostUnit .p2 s)
    else .goOn { s with hdr := { s.hdr with hok := false } }
  | some (ft, len, cl) =>
    let w := winLen s.par .p2
    let fl := BitVec.ofNat 16 len
    let stp := modSub w (s.p2.syp + 1) (syncLen s.par .p2)
    let lc := if s.p2.st = .sync then BitVec.ofNat 8 (maxLost s.par .p2) else s.p2.lc
    .goOn { s with
      hdr := { s.hdr with ft := ft, fl := fl, cl := cl, hok := true }
      p2 := { s.p2 with
        stp := stp
        enp := some (modSub w (stp + fl.toNat) 1)
        st := stateAfterHeader s.p2.st cl
        lc := lc } }

/-- The next frame's positions after the end position `e`, and in DATA the blind re-validation of its
header unless one is already pending (46_proto2.md R338). -/
def scheduleNextP2 (e : Nat) (s : State) : State :=
  let w := winLen s.par .p2
  let s := { s with
    p2 := { s.p2 with
      stp := (e + 1) % w, enp := some ((e + s.hdr.fl.toNat) % w), sf := false }
    hdr := { s.hdr with hok := false } }
  if s.p2.st = .data && s.hdr.hdp.isNone then
    let syp := (e + syncLen s.par .p2) % w
    { s with
      p2 := { s.p2 with syp := syp }
      hdr := { s.hdr with hdp := some ((syp + s.par.nidLen) % w), hsy := false } }
  else s

/-- `frame_end(P2)`, `e` being the value of `ENP_P2` (46_proto2.md R338 to R341). -/
def frameEndP2 (e : Nat) (s : State) : Flow :=
  let len := s.hdr.fl.toNat
  if s.hdr.hok && s.hdr.cl = .term then
    .skip (resetUnit .p2 (emitFrame .p2 s.hdr.hsy false s.hdr.ft len s))
  else
    let s' := if s.hdr.hok then
        emitFrame .p2 s.hdr.hsy (s.p2.st == .voice) s.hdr.ft len s
      else s
    match lockLoss .p2 s.hdr.hok s' with
    | .skip s' => .skip s'
    | .goOn s' =>
      let s' := if !s'.hdr.hok && s'.p2.st = .voice then
          emitFrame .p2 false true s'.hdr.ft len s'
        else s'
      .goOn (scheduleNextP2 e s')

end Sys2Proof.Machine
end

