-- ==== Sys2Proof/Machine/Proto3.lean ====
section
/-! DEFINITION. The third-protocol unit P3 (47_proto3.md). -/

namespace Sys2Proof.Machine

open Sys2Proof

/-- `on_sync(P3, 0)` (42_frame_common.md R205, 47_proto3.md R371). -/
def onSyncP3 (s : State) : State :=
  let s := markSync .p3 s
  let w := winLen s.par .p3
  let s := { s with p3 := { s.p3 with
    stp := (s.p3.syp + 1) % w, enp := some ((s.p3.syp + s.par.f3) % w) } }
  if s.p3.st = .none then
    { s with p3 := { s.p3 with st := .data, lc := BitVec.ofNat 8 (maxLost s.par .p3) } }
  else s

/-- `frame_end(P3)`, `e` being the value of `ENP_P3`: the frame is emitted before the lock-loss counter
is updated (47_proto3.md R372). -/
def frameEndP3 (e : Nat) (s : State) : Flow :=
  let sync := s.p3.sf
  match lockLoss .p3 sync (emitFrame .p3 sync false 0 s.par.f3 s) with
  | .skip s' => .skip s'
  | .goOn s' =>
    let w := winLen s'.par .p3
    .goOn { s' with p3 := { s'.p3 with
      syp := e, stp := (e + 1) % w, enp := some ((e + s'.par.f3) % w), sf := false } }

end Sys2Proof.Machine
end

