-- ==== Sys2Proof/Machine/Tdma.lean ====
section
/-! DEFINITION. The TDMA units: duplex timeslots (43_tdma_duplex.md), simplex (44_tdma_simplex.md)
and the idle-channel scanner (45_tdma_idle.md). -/

namespace Sys2Proof.Machine

open Sys2Proof

/-- `tag_track(u, tag)`: the first bit of a run tagged with the unit's slot sets the expected position
of the slot's last sync bit (43_tdma_duplex.md R252). -/
def tagTrack (u : UnitId) (k : SlotId) (tag : Tag) (s : State) : State :=
  let inSlot := tag == Config.tagSlot k
  let r := s.slot k
  let exp := if inSlot && !r.pis then some (((s.unit u).dp + s.par.syncEndOfs) % Config.wDx)
    else r.exp
  s.setSlot k { r with exp := exp, pis := inSlot }

/-- The role of pattern i of unit u (43_tdma_duplex.md R254). -/
def patternRole (p : Params) (u : UnitId) (i : Nat) : Role :=
  match (patterns p u)[i]? with
  | some q => q.role
  | none => .data

/-- `on_sync(u, i)` of a TDMA unit: the payload lies symmetrically around the sync field
(42_frame_common.md R203, 43_tdma_duplex.md R254, 45_tdma_idle.md R312). -/
def onSyncTdma (u : UnitId) (i : Nat) (s : State) : State :=
  let s := markSync u s
  let r := s.unit u
  let w := winLen s.par u
  s.setUnit u { r with
    sk := patternRole s.par u i
    stp := modSub w (r.syp + 1) (syncLen s.par u + preT s.par u)
    enp := some ((r.syp + preT s.par u) % w) }

/-- `stfield(u)`: the slot-type field, earliest-received bit most significant
(43_tdma_duplex.md R255). -/
def slotTypeField (s : State) (u : UnitId) : Nat := fieldValue (s.par.stPos.map (frameBit s u))

/-- The data type of the slot-type field if it decodes and carries the configured colour code, as
the register CC is now (43_tdma_duplex.md R256, R260; 45_tdma_idle.md R313). -/
def acceptedDataType (s : State) (u : UnitId) : Option (BitVec 4) :=
  match slotTypeDecode s.par (slotTypeField s u) with
  | none => none
  | some (cc, dt) => if cc = s.cfg.cc then some dt else none

/-- The end of a TDMA frame period, after the frame's own branch of `frame_end_TDMA`: a unit still in
NONE drops the frame position; a locked one counts the period, emits a superframe continuation in
VOICE without a sync, and moves the positions one period on (43_tdma_duplex.md R256). -/
def tdmaPeriodEnd (u : UnitId) (period : Nat) (confirmed : Bool) (s : State) : Flow :=
  if (s.unit u).st = .none then
    .goOn (s.setUnit u { s.unit u with enp := none, sf := false })
  else
    match lockLoss u confirmed s with
    | .skip s' => .skip s'
    | .goOn s' =>
      let r := s'.unit u
      let s' := if r.st = .voice && !r.sf then
          let q := BitVec.ofNat 3 (r.seq.toNat % 5 + 1)
          emitFrame u false true (q.setWidth 4) s'.par.fT (s'.setUnit u { r with seq := q })
        else s'
      let s' := s'.setUnit u { s'.unit u with sf := false }
      .goOn (advanceFrame u period s')

/-- A data sync frame that failed the decode or the colour-code check: LOST if the unit was locked,
and reset (43_tdma_duplex.md R256, 60_exceptions.md R432 (b)). -/
def tdmaValidationFailure (u : UnitId) (s : State) : Flow :=
  if (s.unit u).st ≠ .none then .skip (lostUnit u s) else .skip (resetUnit u s)

/-- The data-type branches of a data sync frame with a matching colour code
(43_tdma_duplex.md R256, R257). -/
def tdmaDataFrame (u : UnitId) (period : Nat) (dt : BitVec 4) (s : State) : Flow :=
  match classOf s.par dt with
  | .header =>
    let s := s.setUnit u { s.unit u with st := .data }
    tdmaPeriodEnd u period true (emitFrame u true false dt s.par.fT s)
  | .cont =>
    if (s.unit u).st = .data then
      tdmaPeriodEnd u period true (emitFrame u true false dt s.par.fT s)
    else tdmaPeriodEnd u period false s
  | .vhdr =>
    let s := s.setUnit u { s.unit u with st := .voice, seq := 0 }
    tdmaPeriodEnd u period true (emitFrame u true false dt s.par.fT s)
  | .tlc => .skip (resetUnit u (emitFrame u true false dt s.par.fT s))
  | .other => .skip (resetUnit u (emitFrame u true false dt s.par.fT s))

/-- `frame_end_TDMA(u, P)` of DX1, DX2 and SX (43_tdma_duplex.md R256, 44_tdma_simplex.md R294). -/
def frameEndTdma (u : UnitId) (period : Nat) (s : State) : Flow :=
  if (s.unit u).sf then
    match (s.unit u).sk with
    | .voice =>
      let s := s.setUnit u { s.unit u with st := .voice, seq := 0 }
      tdmaPeriodEnd u period true (emitFrame u true true 0 s.par.fT s)
    | .data =>
      match acceptedDataType s u with
      | none => tdmaValidationFailure u s
      | some dt => tdmaDataFrame u period dt s
  else tdmaPeriodEnd u period false s

/-- `frame_end(IS)` (45_tdma_idle.md R313). -/
def frameEndIdle (s : State) : Flow :=
  let s' := match acceptedDataType s .is with
    | some dt => if dt = s.par.idleFwdDt then emitFrame .is true false dt s.par.fT s else s
    | none => s
  .goOn (s'.setUnit .is { s'.unit .is with enp := none, sf := false })

end Sys2Proof.Machine
end

