-- ==== Sys2Proof/Machine/Engine.lean ====
section
/-! DEFINITION. The common frame engine: `unit_bit`, the processing of one bit by one unit, in the
step order of 42_frame_common.md R200, and `route` (48_control.md R390). -/

namespace Sys2Proof.Machine

open Sys2Proof

/-- `on_sync(u, i)` (42_frame_common.md R202; 43 R254, 44 R293, 45 R312, 46 R332, 47 R371). -/
def onSync (u : UnitId) (i : Nat) (s : State) : State :=
  match u with
  | .dx1 => onSyncTdma .dx1 i s
  | .dx2 => onSyncTdma .dx2 i s
  | .sx => onSyncTdma .sx i s
  | .is => onSyncTdma .is i s
  | .p2 => onSyncP2 s
  | .p3 => onSyncP3 s

/-- `frame_end(u)`, `e` being the value of `ENP_u` (43 R256, 44 R294, 45 R313, 46 R338, 47 R372). -/
def frameEnd (u : UnitId) (e : Nat) (s : State) : Flow :=
  match u with
  | .dx1 => frameEndTdma .dx1 Config.periodDx s
  | .dx2 => frameEndTdma .dx2 Config.periodDx s
  | .sx => frameEndTdma .sx s.par.periodSx s
  | .is => frameEndIdle s
  | .p2 => frameEndP2 e s
  | .p3 => frameEndP3 e s

/-- Step 2: the bit goes into the window at `DP_u` and into the shift register. -/
def takeBit (u : UnitId) (b : Bool) (s : State) : State :=
  let s := winWrite s u (s.unit u).dp b
  s.setUnit u { s.unit u with sr := shiftIn (s.unit u).sr b }

/-- Step 3: tag tracking, duplex units only. -/
def trackSlot (u : UnitId) (tag : Tag) (s : State) : State :=
  match slotOf u with
  | some k => tagTrack u k tag s
  | none => s

/-- Step 4: the P2 header that is complete at this bit. -/
def headerStep (u : UnitId) (s : State) : Flow :=
  if u = .p2 ∧ s.hdr.hdp = some s.p2.dp then headerP2 s else .goOn s

/-- Step 5: the frame end at this bit. -/
def frameEndStep (u : UnitId) (s : State) : Flow :=
  if (s.unit u).enp = some (s.unit u).dp then frameEnd u (s.unit u).dp s else .goOn s

/-- Step 6: the gated correlation. -/
def correlateStep (u : UnitId) (s : State) : State :=
  if gateOpen u s then
    match correlate (s.unit u).sr (patterns s.par u) (threshold s.par u (s.unit u).st) with
    | some i => onSync u i s
    | none => s
  else s

/-- Step 7: `DP_u <- (DP_u + 1) mod W_u`. -/
def advanceDp (u : UnitId) (s : State) : State :=
  s.setUnit u { s.unit u with dp := ((s.unit u).dp + 1) % winLen s.par u }

/-- Steps 4 to 6: a reset in step 4 or 5 skips what is left of them (42_frame_common.md R215). -/
def frameSteps (u : UnitId) (s : State) : State :=
  match headerStep u s with
  | .skip s => s
  | .goOn s =>
    match frameEndStep u s with
    | .skip s => s
    | .goOn s => correlateStep u s

/-- Steps 2 to 7 of `unit_bit`, for a bit that is not dropped. -/
def consumeBit (u : UnitId) (b : Bool) (tag : Tag) (s : State) : State :=
  advanceDp u (frameSteps u (trackSlot u tag (takeBit u b s)))

/-- `unit_bit(u, b, tag)` (42_frame_common.md R200): step 1 drops the first CH_DELAY bits of a duplex
unit (43_tdma_duplex.md R251). -/
def unitBit (b : Bool) (tag : Tag) (s : State) (u : UnitId) : State :=
  match slotOf u with
  | some k =>
    if (s.slot k).dly < s.cfg.chDelay then
      s.setSlot k { s.slot k with dly := (s.slot k).dly + 1 }
    else consumeBit u b tag s
  | none => consumeBit u b tag s

/-- `route(b, tag)`: every active unit in ascending identifier order (48_control.md R390, R392). -/
def route (b : Bool) (tag : Tag) (s : State) : State :=
  s.mode.active.foldl (unitBit b tag) s

end Sys2Proof.Machine
end

