-- ==== Sys2Proof/Machine/Control.lean ====
section
/-! DEFINITION. The consumer control commands (48_control.md). -/

namespace Sys2Proof.Machine

open Sys2Proof

/-- FEED: take one sample from the ring buffer and route it (48_control.md R391). -/
def execFeed (s : State) : Host.Outcome State Fault Refusal :=
  onPort .consumer s fun s =>
    if isEmpty s then s.fail .empty
    else
      let x := ringEntry s s.rb.rptr
      (route x.bit x.tag (ringPop s)).answer (routedResult (s.mode != .idle) x)

/-- DATABIT: route a sample carried in the command word (48_control.md R393). -/
def execDatabit (bit : Bool) (tag : Tag) (s : State) : Host.Outcome State Fault Refusal :=
  onPort .consumer s fun s =>
    (route bit tag s).answer (routedResult (s.mode != .idle) ⟨bit, tag⟩)

/-- FSM_RESET: `reset()` one unit (48_control.md R394). -/
def execFsmReset (unit : BitVec 4) (s : State) : Host.Outcome State Fault Refusal :=
  onPort .consumer s fun s => withUnit unit s fun u s => (resetUnit u s).answer 0

/-- MODE_SET: switch the protocol mode; the activation comes with the last flush micro-step
(48_control.md R395 to R398). -/
def execModeSet (mode : BitVec 3) (s : State) : Host.Outcome State Fault Refusal :=
  onPort .consumer s fun s =>
    match modeOf mode with
    | none => s.fail .badField
    | some m => if modeEnabled s m then startFlush (some m) s else s.fail .disabled

/-- CFG_WR: write a configuration register (48_control.md R399). -/
def execCfgWr (reg : BitVec 8) (value : BitVec 16) (s : State) :
    Host.Outcome State Fault Refusal :=
  onPort .consumer s fun s =>
    match cfgWrite s.cfg reg value with
    | none => s.fail .badField
    | some c => { s with cfg := c }.answer 0

/-- CFG_RD: read a configuration register (48_control.md R400). -/
def execCfgRd (reg : BitVec 8) (s : State) : Host.Outcome State Fault Refusal :=
  onPort .consumer s fun s =>
    match cfgRead s reg with
    | none => s.fail .badField
    | some v => s.answer v

/-- STAT_RD: read a unit's state (48_control.md R401). -/
def execStatRd (unit : BitVec 4) (s : State) : Host.Outcome State Fault Refusal :=
  onPort .consumer s fun s => withUnit unit s fun u s =>
    s.answer (statBits (s.unit u) (unitActive s u))

end Sys2Proof.Machine
end

