-- ==== Sys2Proof/Machine/RingBuffer.lean ====
section
/-! DEFINITION. NOP and the ring-buffer commands (30_encoding.md R127, 40_ring_buffer.md). -/

namespace Sys2Proof.Machine

open Sys2Proof

/-- NOP, legal on both ports, hint bits ignored (30_encoding.md R127). -/
def execNop (_hint : BitVec 24) (s : State) : Host.Outcome State Fault Refusal :=
  .next (s.answer 0)

/-- RB_PUT: put one sample (40_ring_buffer.md R144). -/
def execRbPut (bit : Bool) (tag : Tag) (s : State) : Host.Outcome State Fault Refusal :=
  onPort .producer s fun s =>
    if isFull s then (ringOverflow s).fail .full else (ringPush s ⟨bit, tag⟩).answer 0

/-- RB_PSPACE: free space in the producer's view (40_ring_buffer.md R145). -/
def execRbPspace (s : State) : Host.Outcome State Fault Refusal :=
  onPort .producer s fun s => s.answer (BitVec.ofNat 24 (capacity s.par - occW s))

/-- RB_GET: take one sample (40_ring_buffer.md R146). -/
def execRbGet (s : State) : Host.Outcome State Fault Refusal :=
  onPort .consumer s fun s =>
    if isEmpty s then s.fail .empty
    else (ringPop s).answer (sampleResult (ringEntry s s.rb.rptr))

/-- RB_SPACE: free space in the consumer's view (40_ring_buffer.md R147). -/
def execRbSpace (s : State) : Host.Outcome State Fault Refusal :=
  onPort .consumer s fun s => s.answer (BitVec.ofNat 24 (capacity s.par - occR s))

/-- RB_OCC: occupied entries in the consumer's view (40_ring_buffer.md R148). -/
def execRbOcc (s : State) : Host.Outcome State Fault Refusal :=
  onPort .consumer s fun s => s.answer (BitVec.ofNat 24 (occR s))

/-- RB_OVFCLR: read and clear the overflow indication (40_ring_buffer.md R149). -/
def execRbOvfclr (s : State) : Host.Outcome State Fault Refusal :=
  onPort .consumer s fun s =>
    { s with rb := { s.rb with ovfAck := s.rb.ovfV } }.answer
      ((BitVec.ofBool (overflowFlag s)).setWidth 24)

/-- RB_FLUSH: discard every sample the consumer can see (40_ring_buffer.md R150). -/
def execRbFlush (s : State) : Host.Outcome State Fault Refusal :=
  onPort .consumer s (startFlush none)

end Sys2Proof.Machine
end

