-- ==== Sys2Proof/Machine/Dispatch.lean ====
section
/-! DEFINITION. exec: the meaning of every command, one arm per constructor of Instr. -/

namespace Sys2Proof.Machine

open Sys2Proof

def exec (i : Instr) (s : State) : Host.Outcome State Fault Refusal :=
  match i with
  | .nop hint => Sys2Proof.Machine.execNop hint s
  | .rbPut bit tag => Sys2Proof.Machine.execRbPut bit tag s
  | .rbPspace => Sys2Proof.Machine.execRbPspace s
  | .rbGet => Sys2Proof.Machine.execRbGet s
  | .rbSpace => Sys2Proof.Machine.execRbSpace s
  | .rbOcc => Sys2Proof.Machine.execRbOcc s
  | .rbOvfclr => Sys2Proof.Machine.execRbOvfclr s
  | .rbFlush => Sys2Proof.Machine.execRbFlush s
  | .feed => Sys2Proof.Machine.execFeed s
  | .databit bit tag => Sys2Proof.Machine.execDatabit bit tag s
  | .corPeek unit idx => Sys2Proof.Machine.execCorPeek unit idx s
  | .statRd unit => Sys2Proof.Machine.execStatRd unit s
  | .fsmReset unit => Sys2Proof.Machine.execFsmReset unit s
  | .modeSet mode => Sys2Proof.Machine.execModeSet mode s
  | .cfgWr reg value => Sys2Proof.Machine.execCfgWr reg value s
  | .cfgRd reg => Sys2Proof.Machine.execCfgRd reg s

end Sys2Proof.Machine
end

