-- ==== Sys2Proof/Machine/Agents.lean ====
section
/-! DEFINITION. The agents' own steps (00_scope.md R8, R14): a command word taken at a port, a flush
micro-step, a synchroniser step, and whose turn it is (60_exceptions.md R438, note 8). -/

namespace Sys2Proof.Machine

open Sys2Proof

/-- Whether a word's opcode is legal on a port (30_encoding.md R117, column "port"). -/
def legalOn (p : Port) (op : Opcode) : Bool :=
  match p with
  | .producer => op.onProducer
  | .consumer => op.onConsumer

/-- A command word at the port of the running agent: ILLEGAL_OP, then WRONG_PORT, then BAD_FIELD for a
reserved bit, else the command (30_encoding.md R121, R122, R124, R128). While `rst` is asserted the
word is ignored and gets no response (70_reset_and_hazards.md R470). -/
def runWord (w : Word) (s : State) : Host.Outcome State Fault Refusal :=
  if s.rst then .next s
  else
    match decode w with
    | .ok i => exec i s
    | .error .illegalOp => .next (s.fail .illegalOp)
    | .error (.reservedField op) =>
      .next (s.fail (if legalOn s.port op then .badField else .wrongPort))

/-- A step of PROD: the next command word of the producer port, if one is presented. -/
def stepProd (s : State) : Host.Outcome State Fault Refusal :=
  match s.prodIn with
  | [] => .next { s with port := .producer }
  | w :: ws => runWord w { s with port := .producer, prodIn := ws }

/-- A step of CONS: a micro-step of the flush it is in, which keeps it from starting another command
(40_ring_buffer.md R150), else the next command word of the consumer port, if one is presented. -/
def stepCons (s : State) : Host.Outcome State Fault Refusal :=
  match s.flush with
  | some job => .next (flushStep job { s with port := .consumer })
  | none =>
    match s.consIn with
    | [] => .next { s with port := .consumer }
    | w :: ws => runWord w { s with port := .consumer, consIn := ws }

/-- A step of agent `a` (00_scope.md R8). -/
def stepAgent (a : Agent) (s : State) : Host.Outcome State Fault Refusal :=
  match a with
  | .prod => stepProd s
  | .cons => stepCons s
  | .syncW2r => .next (syncW2r s)
  | .syncR2w => .next (syncR2w s)
  | .syncO2r => .next (syncO2r s)

/-- The agent after `a` when the agents take turns (note 8). -/
def nextTurn : Agent → Agent
  | .prod => .cons
  | .cons => .syncW2r
  | .syncW2r => .syncR2w
  | .syncR2w => .syncO2r
  | .syncO2r => .prod

/-- The next move: the environment's interleaving while it lasts (60_exceptions.md R438), then the
agents in turn, so that every agent steps again and again (40_ring_buffer.md R154, note 8). -/
def stepMove (s : State) : Host.Outcome State Fault Refusal :=
  match s.moves with
  | .agent a :: rest => stepAgent a { s with moves := rest }
  | .rst level :: rest => .next (setRst level { s with moves := rest })
  | [] => stepAgent s.turn { s with turn := nextTurn s.turn }

/-- Place a command word where the next step takes it: on the port its opcode is legal on (NOP and
illegal words on the consumer port), with that port's agent moving next, outside reset and with no
flush in progress. -/
def placeWord (w : Word) (s : State) : State :=
  if (Opcode.ofByte? (opField w)).any fun op => !op.onConsumer then
    { s with rst := false, moves := .agent .prod :: s.moves, prodIn := w :: s.prodIn }
  else
    { s with rst := false, flush := none, moves := .agent .cons :: s.moves,
             consIn := w :: s.consIn }

end Sys2Proof.Machine
end

