-- ==== Sys2Proof/Machine/Step.lean ====
section
/-! DEFINITION. One step of the machine, and the placing of a command word where the next step takes
it. -/

namespace Sys2Proof.Machine

open Sys2Proof

/-- One step of the machine: the next move of one agent or of the reset input. Hardware whose parameter
set violates a constraint of 00_scope.md R9 is refused. -/
def step (s : State) : Host.Outcome State Fault Refusal :=
  if paramsOk s.par then stepMove s else .refused .badParameters

/-- `s` with the command of the table's bits `w` as the very next command of its port (R110; the bits
above `nbits` are 0). -/
def State.withFetchWord (s : State) (nbits w : Nat) : State :=
  placeWord (BitVec.ofNat 32 (w % 2 ^ nbits)) s

end Sys2Proof.Machine
end

