-- ==== Sys2Proof/Safety.lean ====
section
/-! DEFINITION. What counts as a safe state, in the terms the statements use: the ring-buffer invariant
of 40_ring_buffer.md R155, storage in canonical form, positions inside their windows, legal unit
states (10_state.md R44, 42_frame_common.md R218), inactive units at rest (10_state.md R55), and the
buffer as a queue of samples (40_ring_buffer.md R156). -/

namespace Sys2Proof.Machine

open Sys2Proof

/-- How far the producer's view of the read pointer lags it: `(RPTR - RPTR_V) mod 2L`. -/
def lagR (s : State) : Nat := modSub (2 * capacity s.par) s.rb.rptr s.rb.rptrV

/-- How far the consumer's view of the write pointer lags it: `(WPTR - WPTR_V) mod 2L`. -/
def lagW (s : State) : Nat := modSub (2 * capacity s.par) s.rb.wptr s.rb.wptrV

/-- Pointers and pointer views are on AW + 1 bits (10_state.md R35 to R38). -/
def pointersInRange (s : State) : Prop :=
  s.rb.wptr < 2 * capacity s.par ∧ s.rb.rptr < 2 * capacity s.par ∧
    s.rb.wptrV < 2 * capacity s.par ∧ s.rb.rptrV < 2 * capacity s.par

/-- The Gray registers hold the Gray code of the registers they publish (10_state.md R35, R36, R39). -/
def grayInStep (s : State) : Prop :=
  s.rb.wptrG = gray s.rb.wptr ∧ s.rb.rptrG = gray s.rb.rptr ∧ s.rb.ovfG = grayOvf s.rb.ovfCnt

/-- Around the circle of 2L the pointers come in the order RPTR_V, RPTR, WPTR_V, WPTR, and from the
first to the last it is at most L (40_ring_buffer.md R155: `rv <= r <= wv <= w`, `w - rv <= L`). -/
def pointersInOrder (s : State) : Prop :=
  lagR s + occR s + lagW s ≤ capacity s.par

/-- A flush in progress has at least one micro-step left, and its samples are still visible
(40_ring_buffer.md R150). -/
def flushInView (s : State) : Prop :=
  ∀ job, s.flush = some job → 1 ≤ job.left ∧ job.left ≤ job.total ∧ job.left ≤ occR s

/-- The ring-buffer invariant (10_state.md R43, 40_ring_buffer.md R155), with the Gray registers and
the flush in progress. -/
def ringInvariant (s : State) : Prop :=
  pointersInRange s ∧ grayInStep s ∧ pointersInOrder s ∧ flushInView s

/-- The samples in the buffer, oldest first (40_ring_buffer.md R156). -/
def bufferQueue (s : State) : List Sample :=
  (List.range (occT s)).map fun i => ringEntry s (s.rb.rptr + i)

/-- Every storage is in canonical form and lists only indexes it has: the ring buffer [0, L), the
window of unit u [0, W_u) (20_memory.md R81). -/
def storageCanonical (s : State) : Prop :=
  Memory.wf Sample.unwritten s.rb.mem = true ∧ Memory.below (capacity s.par) s.rb.mem = true ∧
    ∀ u, Memory.wf unwrittenBit (s.unit u).win = true ∧
      Memory.below (winLen s.par u) (s.unit u).win = true

/-- Every position is below its window length (10_state.md R47 to R49, R56, R59). -/
def positionsInRange (s : State) : Prop :=
  (∀ u, (s.unit u).dp < winLen s.par u ∧ (s.unit u).syp < winLen s.par u ∧
      (s.unit u).stp < winLen s.par u ∧ ∀ e, (s.unit u).enp = some e → e < winLen s.par u) ∧
    (∀ k e, (s.slot k).exp = some e → e < Config.wDx) ∧
    ∀ h, s.hdr.hdp = some h → h < winLen s.par .p2

/-- The states a unit can hold (10_state.md R44). -/
def stateLegal (u : UnitId) (st : AcqState) : Prop :=
  match u with
  | .dx1 | .dx2 | .sx => st ≠ .sync
  | .is => st = .none
  | .p2 => True
  | .p3 => st = .none ∨ st = .data

/-- A unit other than IS in VOICE or DATA (00_scope.md R16). -/
def locked (r : UnitRegs) : Prop := r.st = .voice ∨ r.st = .data

/-- The lock-loss counter of a locked unit is at least 1 (42_frame_common.md R218), every unit is in one
of its states (10_state.md R44), and the superframe number is at most 5 (10_state.md R54). -/
def unitsLegal (s : State) : Prop :=
  ∀ u, stateLegal u (s.unit u).st ∧ (locked (s.unit u) → 1 ≤ (s.unit u).lc.toNat) ∧
    (s.unit u).seq.toNat ≤ 5

/-- The registers a unit's activation leaves (48_control.md R398). -/
def atRest (s : State) (u : UnitId) : Prop :=
  s.unit u = .powerOn ∧ (∀ k, slotOf u = some k → s.slot k = .powerOn) ∧
    (u = .p2 → s.hdr = .powerOn)

/-- Units that are not active hold the values activation or power-on gave them (10_state.md R55). -/
def inactiveAtRest (s : State) : Prop := ∀ u, u ∉ s.mode.active → atRest s u

/-- P2's frame end and header are pending only in states that can act on them: an end pointer only in
VOICE or DATA, a valid header only there, nothing pending in NONE, and in SYNC a header that follows
a sync match (46_proto2.md R332, R334, R338). -/
def proto2Pending (s : State) : Prop :=
  (s.p2.enp ≠ none → locked s.p2) ∧ (s.hdr.hok = true → locked s.p2) ∧
    (locked s.p2 → s.p2.enp ≠ none) ∧ (s.p2.st = .none → s.hdr.hdp = none) ∧
    (s.p2.st = .sync → s.hdr.hdp ≠ none ∧ s.hdr.hsy = true)

/-- The idle scanner never locks, counts or loses anything (45_tdma_idle.md R313, R315), and the units
without a superframe number hold 0 (10_state.md R54, 46_proto2.md R340). -/
def absentRegistersZero (s : State) : Prop :=
  s.is.lc = 0 ∧ s.is.seq = 0 ∧ s.is.loss = false ∧ s.p2.seq = 0 ∧ s.p3.seq = 0

/-- What two states agree on outside unit u and what it may append to: the rest of the machine
(42_frame_common.md R227). -/
structure OnlyUnit (u : UnitId) (s t : State) : Prop where
  par : t.par = s.par
  rst : t.rst = s.rst
  moves : t.moves = s.moves
  turn : t.turn = s.turn
  prodIn : t.prodIn = s.prodIn
  consIn : t.consIn = s.consIn
  port : t.port = s.port
  prodResp : t.prodResp = s.prodResp
  consResp : t.consResp = s.consResp
  mode : t.mode = s.mode
  cfg : t.cfg = s.cfg
  rb : t.rb = s.rb
  flush : t.flush = s.flush
  other : ∀ v, v ≠ u → t.unit v = s.unit v
  slots : ∀ k, slotOf u ≠ some k → t.slot k = s.slot k
  hdr : u ≠ .p2 → t.hdr = s.hdr

/-- Two states that unit u cannot tell apart: the same parameters, configuration and draws, and the
same registers of u (42_frame_common.md R227, R228). -/
structure SameForUnit (u : UnitId) (s t : State) : Prop where
  par : s.par = t.par
  cfg : s.cfg = t.cfg
  draws : s.draws = t.draws
  unit : s.unit u = t.unit u
  slots : ∀ k, slotOf u = some k → s.slot k = t.slot k
  hdr : u = .p2 → s.hdr = t.hdr

/-- The three views equal the registers they copy (40_ring_buffer.md R159). -/
def viewsCaughtUp (s : State) : Prop :=
  s.rb.wptrV = s.rb.wptr ∧ s.rb.rptrV = s.rb.rptr ∧ s.rb.ovfV = s.rb.ovfCnt

/-- The state a header step or a frame-end step ends in, whatever follows it. -/
def Flow.state : Flow → State
  | .goOn s => s
  | .skip s => s

/-- `n` frame ends of unit u in a row, with no bit between them that matches a sync pattern: what
n frame periods without a sync do (43_tdma_duplex.md R262, 47_proto3.md R376). -/
def framePeriods (u : UnitId) : Nat → State → State
  | 0, s => s
  | n + 1, s => framePeriods u n (frameEnd u ((s.unit u).enp.getD 0) s).state

/-- `n` steps of CONS with no step of another agent between them. -/
def consSteps : Nat → State → State
  | 0, s => s
  | n + 1, s =>
    match stepCons s with
    | .next t => consSteps n t
    | _ => s

/-- `n` failed puts in a row, as far as the overflow counter is concerned (40_ring_buffer.md R158). -/
def failedPuts : Nat → State → State
  | 0, s => s
  | n + 1, s => failedPuts n (ringOverflow s)

/-- The FRAME event an emission appends: the control byte, the packed frame, and with RSSI_EN = 1 the
next signal-level draw (42_frame_common.md R219). -/
def frameEvent (s : State) (u : UnitId) (sync voice : Bool) (sub : BitVec 4) (len : Nat) : Event :=
  .frame u (framePayload s u sync voice sub len ++
    if s.cfg.rssiEn then rssiBytes (Config.rssiDraw s.draws) else [])

/-- A header of P2 is complete at the position of the current bit (42_frame_common.md R200 step 4). -/
abbrev headerDue (u : UnitId) (s : State) : Prop := u = .p2 ∧ s.hdr.hdp = some s.p2.dp

/-- The rows of the gate table: a duplex unit in NONE correlates only within 2 bits of its expected sync
position, once it has one; every other unit, and a duplex unit in another state, always
(42_frame_common.md R201). -/
def gateAllows (u : UnitId) (s : State) : Prop :=
  ∀ k, slotOf u = some k → (s.unit u).st = .none →
    ∃ e, (s.slot k).exp = some e ∧
      min (modSub 576 (s.unit u).dp e) (modSub 576 e (s.unit u).dp) ≤ 2

/-- The data pointer of unit u one bit on (42_frame_common.md R200 step 7). -/
def dpAdvanced (u : UnitId) (s : State) : State :=
  s.setUnit u { s.unit u with dp := ((s.unit u).dp + 1) % winLen s.par u }

/-- The response word last returned on a port. -/
def portResponse (s : State) : Port → Option Word
  | .producer => s.prodResp
  | .consumer => s.consResp

/-- A TDMA unit that locks: DX1, DX2 or SX (43_tdma_duplex.md, 44_tdma_simplex.md). -/
def locksTdma (u : UnitId) : Prop := u = .dx1 ∨ u = .dx2 ∨ u = .sx

/-- The frame period P of a TDMA unit: 576 for DX1 and DX2, PERIOD_SX for SX (43_tdma_duplex.md R256,
44_tdma_simplex.md R295). -/
def tdmaPeriod (p : Params) (u : UnitId) : Nat := if u = .sx then p.periodSx else 576

/-- What every frame end that leaves a TDMA unit locked does to its positions: SYP, STP and ENP move one
frame period on in the window, SF is 0, and DP, WIN, SR and SK stay (42_frame_common.md R211, R212). -/
def movedOnePeriod (u : UnitId) (s t : State) : Prop :=
  (t.unit u).syp = ((s.unit u).syp + tdmaPeriod s.par u) % winLen s.par u ∧
    (t.unit u).stp = ((s.unit u).stp + tdmaPeriod s.par u) % winLen s.par u ∧
    (t.unit u).enp = (s.unit u).enp.map (fun e => (e + tdmaPeriod s.par u) % winLen s.par u) ∧
    (t.unit u).sf = false ∧ (t.unit u).dp = (s.unit u).dp ∧ (t.unit u).win = (s.unit u).win ∧
    (t.unit u).sr = (s.unit u).sr ∧ (t.unit u).sk = (s.unit u).sk

/-- A pattern list has 1 to 16 patterns, all of one length N with 1 ≤ N ≤ 64, each value below 2^N
(00_scope.md R9, 41_correlator.md R182, R185; that it is not empty is DEDUCED, note 4). -/
def patternListLegal (l : List SyncPattern) : Prop :=
  1 ≤ l.length ∧ l.length ≤ 16 ∧
    ∃ n, 1 ≤ n ∧ n ≤ 64 ∧ ∀ q ∈ l, q.len = n ∧ q.value.toNat < 2 ^ n

/-- The list of IS, P2 or P3 is one pattern of role DATA (41_correlator.md R182, R185). -/
def onePatternLegal (l : List SyncPattern) : Prop :=
  patternListLegal l ∧ ∃ q, l = [q] ∧ q.role = .data

/-- 0 ≤ T_ACQ ≤ 2, 2 ≤ T_LOCK ≤ 4 (00_scope.md R9; T_ACQ ≤ T_LOCK follows). -/
def thresholdsLegal (acq lock : Nat) : Prop := acq ≤ 2 ∧ 2 ≤ lock ∧ lock ≤ 4

/-- The constraints of 00_scope.md R9, column "constraint", with those of 41_correlator.md R182, R185 and
R187 on the patterns and the simplex thresholds, and the three the model deduced (note 4). -/
structure ParameterConstraints (p : Params) : Prop where
  aw : 1 ≤ p.aw ∧ p.aw ≤ 23
  patterns : patternListLegal p.patDx ∧ patternListLegal p.patSx ∧ onePatternLegal p.patIs ∧
    onePatternLegal p.patP2 ∧ onePatternLegal p.patP3
  thresholds : thresholdsLegal p.tAcqDx p.tLockDx ∧ thresholdsLegal p.tAcqSx p.tLockSx ∧
    p.tAcqIs ≤ 2 ∧ thresholdsLegal p.tAcqP2 p.tLockP2 ∧ thresholdsLegal p.tAcqP3 p.tLockP3
  simplex : p.tAcqSx ≤ p.tAcqDx ∧ p.tLockSx ≤ p.tLockDx
  maxLost : ∀ n ∈ [p.maxLostDx, p.maxLostSx, p.maxLostP2, p.maxLostP3], 1 ≤ n ∧ n ≤ 255
  tdmaFrame : ∀ q ∈ p.patDx ++ p.patSx ++ p.patIs, q.len + 2 ≤ p.fT ∧ (p.fT - q.len) % 2 = 0
  tdmaSync : ∀ q ∈ p.patDx, ∀ r ∈ p.patSx ++ p.patIs, r.len = q.len
  tdmaWindows : p.fT ≤ 576 ∧ p.fT ≤ p.wSx ∧ p.fT ≤ p.wIs
  period : 1 ≤ p.periodSx
  slotStart : p.syncEndOfs < 576
  slotType : p.stPos.Pairwise (· < ·) ∧ ∀ j ∈ p.stPos, j < p.fT
  header : 1 ≤ p.nidLen ∧ 1 ≤ p.wP2
  frames : ∀ ft len cl, p.frameTypes.lookup ft = some (len, cl) →
    (∀ q ∈ p.patP2, q.len + p.nidLen ≤ len) ∧ len ≤ p.wP2 ∧ len < 2 ^ 16
  proto3 : 1 ≤ p.f3 ∧ p.f3 ≤ p.wP3

end Sys2Proof.Machine
end

