-- ==== Sys2Proof/Certificates/Slice0/Obligations.lean ====
section
/-! DEFINITION. The statements for the provers, in the order of the spec's files. A statement about an
exec meaning names the port its command is legal on; `WRONG_PORT` on the other port is
`StatusPriority`. -/

open Sys2Proof Sys2Proof.Machine

/-! ### Parameters, reset and steps (00_scope.md, 70_reset_and_hazards.md) -/

/-- R9: a parameter set that violates a constraint is refused, and one that satisfies them all never
is: whatever the state, the step answers a next state (60_exceptions.md R433: never stuck), with the
parameters it had (70_reset_and_hazards.md R475). The constraints are those of R9, R182, R185 and R187,
written out in `ParameterConstraints`, with the three the model deduced (note 4). The derived parameters
are those of R9; that a collaborator's graph is read at its first entry is the model's choice (note 2). -/
def Obligations.StepRefusesExactlyBadParameters : Prop :=
  (∀ s : State, (¬ ParameterConstraints s.par → step s = .refused .badParameters) ∧
    (ParameterConstraints s.par → ∃ t, step s = .next t ∧ t.par = s.par)) ∧
  ∀ p : Params, (paramsOk p = true ↔ ParameterConstraints p) ∧ capacity p = 2 ^ p.aw ∧
    [UnitId.dx1, .dx2, .sx, .is, .p2, .p3].map (winLen p) = [576, 576, p.wSx, p.wIs, p.wP2, p.wP3] ∧
    [UnitId.dx1, .dx2, .sx, .p2, .p3].map (maxLost p) =
      [p.maxLostDx, p.maxLostDx, p.maxLostSx, p.maxLostP2, p.maxLostP3] ∧
    [UnitId.dx1, .dx2, .sx, .is, .p2, .p3].map (patterns p) =
      [p.patDx, p.patDx, p.patSx, p.patIs, p.patP2, p.patP3] ∧
    (paramsOk p = true → ∀ u, (∀ q ∈ patterns p u, q.len = syncLen p u) ∧
      (locksTdma u ∨ u = .is → 2 * preT p u + syncLen p u = p.fT)) ∧
    (∀ v, slotTypeDecode p v = p.slotCodec.lookup v ∧ nidDecode p v = p.nidCodec.lookup v) ∧
    ∀ x, classOf p x = (p.dtClass.lookup x).getD .other ∧ frameType p x = p.frameTypes.lookup x

/-- When the word an agent takes decodes to `i`, the step of that agent is `exec i` at the state with
the word taken and the port set, whether the move was chosen by the environment or came by turn. A
command placed by `withFetchWord` is taken so by the very next step, on the port it is legal on. The
model's choices: the order of the turns when no moves are left (note 8), and that `withFetchWord`
releases `rst`, drops a flush in progress and puts NOP on the consumer port (note 12). -/
def Obligations.StepRunsDecodedCommand : Prop :=
  ∀ (s : State) (w : Word) (ws : List Word) (i : Instr), paramsOk s.par = true →
    (s.rst = false → decode w = .ok i →
      (∀ rest, s.moves = .agent .prod :: rest → s.prodIn = w :: ws →
        step s = exec i { s with moves := rest, prodIn := ws, port := .producer }) ∧
      (∀ rest, s.moves = .agent .cons :: rest → s.flush = none → s.consIn = w :: ws →
        step s = exec i { s with moves := rest, consIn := ws, port := .consumer }) ∧
      (s.moves = [] → s.turn = .prod → s.prodIn = w :: ws →
        step s = exec i { s with turn := .cons, prodIn := ws, port := .producer }) ∧
      (s.moves = [] → s.turn = .cons → s.flush = none → s.consIn = w :: ws →
        step s = exec i { s with turn := .syncW2r, consIn := ws, port := .consumer })) ∧
    step (s.withFetchWord 32 (encode i).toNat) =
      if i.opcode = .rbPut ∨ i.opcode = .rbPspace then
        exec i { s with rst := false, port := .producer }
      else exec i { s with rst := false, flush := none, port := .consumer }

/-- R470: asserting `rst` puts every register at its power-on value, a command issued while it is
asserted is ignored and gets no response, and after deassertion every register holds its power-on
value. The model's choices: that the words still to be presented, the interleaving and the draw counter
stay, that the event stream is emptied and that a flush in progress is dropped (note 13), and the
content of the storage and of the windows after the reset (notes 5 and 6). -/
def Obligations.ResetInputHoldsTheCore : Prop :=
  ∀ (s : State) (rest : List Move), paramsOk s.par = true →
    (∀ level, s.moves = .rst level :: rest → (level = true ∨ s.rst = true) →
      step s = .next { State.powerOn s.par with
        rst := level, moves := rest, turn := s.turn, prodIn := s.prodIn, consIn := s.consIn,
        port := s.port, draws := s.draws }) ∧
    (∀ w ws, s.rst = true → s.moves = .agent .prod :: rest → s.prodIn = w :: ws →
      step s = .next { s with moves := rest, prodIn := ws, port := .producer }) ∧
    (∀ w ws, s.rst = true → s.moves = .agent .cons :: rest → s.flush = none →
      s.consIn = w :: ws →
      step s = .next { s with moves := rest, consIn := ws, port := .consumer })

/-- R471, last sentence: power-on leaves every unit, MODE and the headers as `activate(IDLE)` gives
them from any state, with an empty ring buffer, no overflow, zero configuration and no event; and
every register at the value of R471's table. That the windows are 0 before the first activation is the
model's choice (note 6). -/
def Obligations.PowerOnIsIdleActivation : Prop :=
  ∀ (p : Params) (s : State),
    (∀ u, (State.powerOn p).unit u = (activate .idle s).unit u) ∧
    (∀ k, (State.powerOn p).slot k = (activate .idle s).slot k) ∧
    (State.powerOn p).hdr = (activate .idle s).hdr ∧
    (State.powerOn p).mode = (activate .idle s).mode ∧
    (State.powerOn p).rb.wptr = 0 ∧ (State.powerOn p).rb.rptr = 0 ∧
    occT (State.powerOn p) = 0 ∧ occR (State.powerOn p) = 0 ∧ occW (State.powerOn p) = 0 ∧
    overflowFlag (State.powerOn p) = false ∧ (State.powerOn p).rb.ovfCnt = 0 ∧
    (∀ reg v, cfgRead (State.powerOn p) reg = some v → v = 0) ∧ (State.powerOn p).events = [] ∧
    (State.powerOn p).mode = .idle ∧ (State.powerOn p).cfg = ⟨0, 0, false, 0, 0, false⟩ ∧
    (State.powerOn p).rb = ⟨(State.powerOn p).rb.mem, 0, 0, 0, 0, 0, 0, 0, 0, 0, 0⟩ ∧
    (∀ u, (State.powerOn p).unit u =
      { st := .none, sr := 0, win := [], dp := 0, syp := 0, stp := 0, enp := none, lc := 0,
        sf := false, sk := .data, loss := false, seq := 0 }) ∧
    (∀ k, (State.powerOn p).slot k = { exp := none, pis := true, dly := 0 }) ∧
    (State.powerOn p).hdr = ⟨none, 0, 0, .voice, false, false⟩

/-! ### Decoding and status (30_encoding.md) -/

/-- Decoding the word of a command gives the command back, with every operand at every value; and the
word has OP in bits [31:24] and each operand where its format puts it (R111 to R117). -/
def Obligations.DecodeOfEncode : Prop :=
  (∀ i : Instr, decode (encode i) = .ok i) ∧
  (∀ hint, (encode (.nop hint)).toNat = hint.toNat) ∧
  (∀ b g, (encode (.rbPut b g)).toNat = 0x01 * 2 ^ 24 + 2 ^ 8 * g.toNat + b.toNat ∧
    (encode (.databit b g)).toNat = 0x21 * 2 ^ 24 + 2 ^ 8 * g.toNat + b.toNat) ∧
  (∀ x idx, (encode (.corPeek x idx)).toNat = 0x30 * 2 ^ 24 + 2 ^ 20 * x.toNat + 2 ^ 16 * idx.toNat) ∧
  (∀ x, (encode (.statRd x)).toNat = 0x31 * 2 ^ 24 + 2 ^ 20 * x.toNat ∧
    (encode (.fsmReset x)).toNat = 0x40 * 2 ^ 24 + 2 ^ 20 * x.toNat) ∧
  (∀ x, (encode (.modeSet x)).toNat = 0x41 * 2 ^ 24 + x.toNat) ∧
  (∀ reg value, (encode (.cfgWr reg value)).toNat =
    0x50 * 2 ^ 24 + 2 ^ 16 * reg.toNat + value.toNat) ∧
  (∀ reg, (encode (.cfgRd reg)).toNat = 0x51 * 2 ^ 24 + 2 ^ 16 * reg.toNat) ∧
  [Instr.rbPspace, .rbGet, .rbSpace, .rbOcc, .rbOvfclr, .rbFlush, .feed].map encode =
    [0x02000000, 0x10000000, 0x11000000, 0x12000000, 0x13000000, 0x14000000, 0x20000000]

/-- The word of a decoded command is the word decoded: no bit of a legal word is dropped. Nor is one
over a byte-wide bus, which carries bits [31:24] first and [7:0] last (20_memory.md R87). -/
def Obligations.EncodeOfDecode : Prop :=
  (∀ (w : Word) (i : Instr), decode w = .ok i → encode i = w) ∧
  ∀ w : Word, ∃ b3 b2 b1 b0 : Byte, serialBytes w = [b3, b2, b1, b0] ∧
    w.toNat = 2 ^ 24 * b3.toNat + 2 ^ 16 * b2.toNat + 2 ^ 8 * b1.toNat + b0.toNat ∧
    wordOfBytes b3 b2 b1 b0 = w

/-- R124: the legal words of each command are exactly those matching its match and mask, which cover
OP and every bit its format reserves. -/
def Obligations.LegalWordsMatchTheTable : Prop :=
  (∀ (w : Word) (op : Opcode), (∃ i, decode w = .ok i ∧ i.opcode = op) ↔
    ∃ row ∈ opcodeTable, row.op = op ∧ w &&& row.mask = row.base) ∧
  opcodeTable =
    [⟨.nop, 0x00000000, 0xFF000000⟩, ⟨.rbPut, 0x01000000, 0xFFFF00FE⟩,
     ⟨.rbPspace, 0x02000000, 0xFFFFFFFF⟩, ⟨.rbGet, 0x10000000, 0xFFFFFFFF⟩,
     ⟨.rbSpace, 0x11000000, 0xFFFFFFFF⟩, ⟨.rbOcc, 0x12000000, 0xFFFFFFFF⟩,
     ⟨.rbOvfclr, 0x13000000, 0xFFFFFFFF⟩, ⟨.rbFlush, 0x14000000, 0xFFFFFFFF⟩,
     ⟨.feed, 0x20000000, 0xFFFFFFFF⟩, ⟨.databit, 0x21000000, 0xFFFF00FE⟩,
     ⟨.corPeek, 0x30000000, 0xFF00FFFF⟩, ⟨.statRd, 0x31000000, 0xFF0FFFFF⟩,
     ⟨.fsmReset, 0x40000000, 0xFF0FFFFF⟩, ⟨.modeSet, 0x41000000, 0xFFFFFFF8⟩,
     ⟨.cfgWr, 0x50000000, 0xFF000000⟩, ⟨.cfgRd, 0x51000000, 0xFF00FFFF⟩]

/-- The example words of R127 and R129 decode to the commands they stand for. -/
def Obligations.ExampleWordsDecode : Prop :=
  decode 0x00ABCDEF = .ok (.nop 0xABCDEF) ∧ decode 0x01000201 = .ok (.rbPut true 0x02) ∧
    decode 0x21000100 = .ok (.databit false 1) ∧ decode 0x41000005 = .ok (.modeSet 5) ∧
    decode 0x50030010 = .ok (.cfgWr 3 0x10) ∧ decode 0x30110000 = .ok (.corPeek 1 1) ∧
    decode 0x31400000 = .ok (.statRd 4) ∧ decode 0x20000000 = .ok .feed

/-- R122: every unassigned OP value is answered ILLEGAL_OP on either port and changes no state. -/
def Obligations.IllegalOpcodeIsAnswered : Prop :=
  ∀ (w : Word) (s : State) (n : Nat), s.rst = false → (w.extractLsb' 24 8).toNat = n →
    ((0x03 ≤ n ∧ n ≤ 0x0F) ∨ (0x15 ≤ n ∧ n ≤ 0x1F) ∨ (0x22 ≤ n ∧ n ≤ 0x2F) ∨
      (0x32 ≤ n ∧ n ≤ 0x3F) ∨ (0x42 ≤ n ∧ n ≤ 0x4F) ∨ (0x52 ≤ n ∧ n ≤ 0xFF)) →
    runWord w s = .next (s.respondOn s.port 0x01000000)

/-- R121, R124, R143: for a word whose OP is assigned, WRONG_PORT comes before BAD_FIELD, and a reserved
bit set on the right port is BAD_FIELD; neither changes any state. A producer command on the consumer
port, or the reverse, is WRONG_PORT whatever its operands. -/
def Obligations.StatusPriority : Prop :=
  (∀ (w : Word) (s : State) (row : TableRow), s.rst = false → row ∈ opcodeTable →
    w.extractLsb' 24 8 = row.base.extractLsb' 24 8 →
    (((s.port = .producer ∧ row.op ∉ [.nop, .rbPut, .rbPspace]) ∨
        (s.port = .consumer ∧ row.op ∈ [.rbPut, .rbPspace])) →
      runWord w s = .next (s.respondOn s.port 0x02000000)) ∧
    (((s.port = .producer ∧ row.op ∈ [.nop, .rbPut, .rbPspace]) ∨
        (s.port = .consumer ∧ row.op ∉ [.rbPut, .rbPspace])) →
      w &&& row.mask ≠ row.base → runWord w s = .next (s.respondOn s.port 0x03000000))) ∧
  ∀ (i : Instr) (s : State), i.opcode ≠ .nop →
    ((i.opcode = .rbPut ∨ i.opcode = .rbPspace) ↔ s.port = .consumer) →
    exec i s = .next (s.respondOn s.port 0x02000000)

/-- R125, R126: an operand out of its range is answered BAD_FIELD on the right port and changes
nothing: UNIT above 5, MODE above 5, a reserved or read-only REG, an IDX not below the unit's pattern
count. -/
def Obligations.OutOfRangeOperandIsAnswered : Prop :=
  ∀ s : State, s.port = .consumer →
    (∀ i : Instr, i.wellFormed = false → exec i s = .next (s.respondOn .consumer 0x03000000)) ∧
    (∀ x : BitVec 4, 5 < x.toNat → (Instr.statRd x).wellFormed = false ∧
      (Instr.fsmReset x).wellFormed = false ∧ ∀ idx, (Instr.corPeek x idx).wellFormed = false) ∧
    (∀ x : BitVec 3, 5 < x.toNat → (Instr.modeSet x).wellFormed = false) ∧
    (∀ reg : BitVec 8, (5 < reg.toNat → ∀ value, (Instr.cfgWr reg value).wellFormed = false) ∧
      (6 < reg.toNat → (Instr.cfgRd reg).wellFormed = false)) ∧
    (∀ (x idx : BitVec 4) (u : UnitId), unitOf x = some u →
      (patterns s.par u).length ≤ idx.toNat →
      exec (.corPeek x idx) s = .next (s.respondOn .consumer 0x03000000))

/-- R120: a command with status ILLEGAL_OP, WRONG_PORT, BAD_FIELD, DISABLED or EMPTY changes no state,
and one with status FULL changes exactly OVF_CNT, to the next count modulo 256, and OVF_G, to the Gray
code of the new count (the response apart). -/
def Obligations.ErrorStatusChangesNothing : Prop :=
  ∀ (w x : Word) (s t : State), s.rst = false → portResponse t s.port = some x →
    runWord w s = .next t →
    (x.extractLsb' 24 8 ∈ [0x01#8, 0x02, 0x03, 0x04, 0x05] → t = s.respondOn s.port x) ∧
    (x.extractLsb' 24 8 = 0x06 →
      t = { s with rb := { s.rb with
        ovfCnt := BitVec.ofNat 8 (s.rb.ovfCnt.toNat + 1)
        ovfG := BitVec.ofNat 8 (gray ((s.rb.ovfCnt.toNat + 1) % 256)) } }.respondOn s.port x)

/-- R127: NOP is answered OK with result 0 on both ports, whatever its hint bits, and changes nothing
else; every word 0x00xxxxxx is a NOP. -/
def Obligations.NopAnswersOk : Prop :=
  ∀ s : State, (∀ hint : BitVec 24, exec (.nop hint) s = .next (s.respondOn s.port 0)) ∧
    ∀ w : Word, w.extractLsb' 24 8 = 0 → decode w = .ok (.nop (w.extractLsb' 0 24)) ∧
      (s.rst = false → runWord w s = .next (s.respondOn s.port 0))

/-! ### Ring buffer (40_ring_buffer.md) -/

/-- R140 to R142: bit i of `gray` is the XOR of bits i and i + 1, `gray_inv` is bit by bit as the rule
gives it and inverts `gray` on n bits, and the Gray codes of consecutive n-bit numbers, the last and 0
among them, differ in exactly one of their bits. -/
def Obligations.GrayCode : Prop :=
  (∀ x i, (gray x).testBit i = (x.testBit i ^^ x.testBit (i + 1))) ∧
  ∀ n : Nat, (∀ x, x < 2 ^ n → grayInv n (gray x) = x) ∧
    (∀ g, g < 2 ^ n → 0 < n → (grayInv n g).testBit (n - 1) = g.testBit (n - 1)) ∧
    (∀ g i, g < 2 ^ n → i + 1 < n →
      (grayInv n g).testBit i = ((grayInv n g).testBit (i + 1) ^^ g.testBit i)) ∧
    ∀ x, 0 < n → x < 2 ^ n → ((List.range n).countP fun i =>
      (gray x).testBit i != (gray ((x + 1) % 2 ^ n)).testBit i) = 1

/-- R144: a put into a buffer not full in the producer's view stores its sample at entry `WPTR mod L`,
leaves every other entry, advances WPTR and WPTR_G and answers OK; a put into a full one stores
nothing, counts the failure in OVF_CNT and OVF_G and answers FULL; neither changes anything else. -/
def Obligations.PutStoresOrCounts : Prop :=
  ∀ (b : Bool) (tag : Tag) (s : State), s.port = .producer →
    (occW s ≠ capacity s.par → storageCanonical s →
      ∃ t, exec (.rbPut b tag) s = .next t ∧
        ringEntry t s.rb.wptr = ⟨b, tag⟩ ∧
        (∀ j, j % capacity s.par ≠ s.rb.wptr % capacity s.par → ringEntry t j = ringEntry s j) ∧
        t = { s with
          rb := { s.rb with
            mem := t.rb.mem
            wptr := (s.rb.wptr + 1) % (2 * capacity s.par)
            wptrG := gray ((s.rb.wptr + 1) % (2 * capacity s.par)) },
          prodResp := some 0 }) ∧
    (occW s = capacity s.par →
      exec (.rbPut b tag) s = .next { s with
        rb := { s.rb with
          ovfCnt := BitVec.ofNat 8 (s.rb.ovfCnt.toNat + 1)
          ovfG := BitVec.ofNat 8 (gray ((s.rb.ovfCnt.toNat + 1) % 256)) },
        prodResp := some 0x06000000 })

/-- R145, R147, R148: the space and occupancy queries return the counts of their view, the consumer's
two adding up to L, and change nothing but the response. The counts are the differences of R41 modulo
2L, the remainder being the mathematical one, in [0, m) also for a negative difference (R11). -/
def Obligations.SpaceQueriesAnswer : Prop :=
  (∀ m a b : Nat, 0 < m → (modSub m a b : Int) = ((a : Int) - b) % m) ∧
  (∀ s : State, occR s = modSub (2 * 2 ^ s.par.aw) s.rb.wptrV s.rb.rptr ∧
    occW s = modSub (2 * 2 ^ s.par.aw) s.rb.wptr s.rb.rptrV ∧
    occT s = modSub (2 * 2 ^ s.par.aw) s.rb.wptr s.rb.rptr) ∧
  ∀ s : State, paramsOk s.par = true → occW s ≤ capacity s.par → occR s ≤ capacity s.par →
    (s.port = .producer → ∃ w : Word, exec .rbPspace s = .next { s with prodResp := some w } ∧
      w.toNat + occW s = capacity s.par) ∧
    (s.port = .consumer → ∃ w v : Word,
      exec .rbSpace s = .next { s with consResp := some w } ∧
      exec .rbOcc s = .next { s with consResp := some v } ∧
      v.toNat = occR s ∧ w.toNat + v.toNat = capacity s.par)

/-- R146: a get returns the entry at `RPTR mod L` with the valid bit, advances RPTR and RPTR_G, and
changes nothing else; with nothing in the consumer's view it returns EMPTY and changes nothing. -/
def Obligations.GetTakesOldestSample : Prop :=
  ∀ s : State, s.port = .consumer →
    (occR s ≠ 0 → ∃ w : Word,
      exec .rbGet s = .next { s with
        rb := { s.rb with
          rptr := (s.rb.rptr + 1) % (2 * capacity s.par)
          rptrG := gray ((s.rb.rptr + 1) % (2 * capacity s.par)) },
        consResp := some w } ∧
      w.toNat = 2 ^ 16 + 2 ^ 8 * (ringEntry s s.rb.rptr).tag.toNat +
        (ringEntry s s.rb.rptr).bit.toNat) ∧
    (occR s = 0 → exec .rbGet s = .next { s with consResp := some 0x05000000 })

/-- R149: RB_OVFCLR returns whether OVF_V differs from OVF_ACK, sets OVF_ACK to OVF_V, and changes
nothing else. -/
def Obligations.OverflowReadAndCleared : Prop :=
  ∀ s : State, s.port = .consumer →
    exec .rbOvfclr s = .next { s with
      rb := { s.rb with ovfAck := s.rb.ovfV },
      consResp := some (if s.rb.ovfV ≠ s.rb.ovfAck then 1 else 0) }

/-- R150, the start and the micro-steps: RB_FLUSH fixes k at the consumer's occupancy; with k = 0 it
returns 0 at once and changes nothing, else k micro-steps are pending and nothing else has changed.
While a flush is in progress CONS starts no other command: its step is a micro-step, which moves RPTR
by one entry and takes no word. That the start is a step of its own and that no response stands while
the flush runs is the model's choice (notes 10 and 14). -/
def Obligations.FlushStartsAndHoldsConsumer : Prop :=
  ∀ s : State,
    (s.port = .consumer → occR s = 0 → exec .rbFlush s = .next { s with consResp := some 0 }) ∧
    (s.port = .consumer → occR s ≠ 0 → exec .rbFlush s = .next { s with
      flush := some ⟨occR s, occR s, none⟩, consResp := none }) ∧
    ∀ job : FlushJob, s.flush = some job → ∃ t, stepAgent .cons s = .next t ∧
      t.consIn = s.consIn ∧ t.rb = { s.rb with
        rptr := (s.rb.rptr + 1) % (2 * capacity s.par)
        rptrG := gray ((s.rb.rptr + 1) % (2 * capacity s.par)) } ∧
      t.events = s.events ∧ (1 < job.left → t.mode = s.mode ∧ t.consResp = s.consResp ∧
        t.flush = some { job with left := job.left - 1 })

/-- R150, the micro-steps: k consumer micro-steps advance RPTR by k entries, write nothing else of the
ring buffer, and the last returns the count and, for a MODE_SET, activates its mode. -/
def Obligations.FlushRunsToItsEnd : Prop :=
  ∀ (job : FlushJob) (s : State), s.flush = some job → 1 ≤ job.left →
    let t := consSteps job.left s
    t.flush = none ∧ t.rb = { s.rb with
      rptr := (s.rb.rptr + job.left) % (2 * capacity s.par)
      rptrG := gray ((s.rb.rptr + job.left) % (2 * capacity s.par)) } ∧
    t.consResp = some (0#8 ++ BitVec.ofNat 24 job.total) ∧
    t.cfg = s.cfg ∧ t.events = s.events ∧ t.consIn = s.consIn ∧
    (∀ m, job.activates = some m → t.mode = m ∧ ∀ u, atRest t u) ∧
    (job.activates = none → t.mode = s.mode ∧ (∀ u, t.unit u = s.unit u) ∧
      (∀ k, t.slot k = s.slot k) ∧ t.hdr = s.hdr)

/-- R151 to R153: each synchroniser step copies its register into its view and has no other effect. -/
def Obligations.SynchronisersCopy : Prop :=
  ∀ (s : State) (rest : List Move), paramsOk s.par = true →
    (s.moves = .agent .syncW2r :: rest →
      step s = .next { s with moves := rest, rb := { s.rb with wptrV := s.rb.wptr } }) ∧
    (s.moves = .agent .syncR2w :: rest →
      step s = .next { s with moves := rest, rb := { s.rb with rptrV := s.rb.rptr } }) ∧
    (s.moves = .agent .syncO2r :: rest →
      step s = .next { s with moves := rest, rb := { s.rb with ovfV := s.rb.ovfCnt } })

/-- R43, R155: every step keeps the ring-buffer invariant, under which `OCC_R <= OCC_T <= OCC_W <= L`. -/
def Obligations.RingInvariantKept : Prop :=
  (∀ s t : State, ringInvariant s → step s = .next t → ringInvariant t) ∧
    ∀ s : State, ringInvariant s → occR s ≤ occT s ∧ occT s ≤ occW s ∧ occW s ≤ capacity s.par

/-- R155, R471: the invariants of this file hold at power-on, whatever the parameters, and at reset. That
the storage and the windows list nothing there is the model's choice (notes 5 and 6), and so are the
parameters of `State.reset` (note 1). -/
def Obligations.InvariantsAtPowerOn : Prop :=
  ∀ s : State, ((∃ p, paramsOk p = true ∧ s = State.powerOn p) ∨ s = State.reset) →
    ringInvariant s ∧ unitsLegal s ∧ proto2Pending s ∧ absentRegistersZero s ∧
      storageCanonical s ∧ positionsInRange s ∧ inactiveAtRest s

/-- R156, R157: the buffer is a FIFO queue. A put with status OK appends its sample; a get, a FEED and a
flush micro-step remove the oldest, which the get returns; no other command, no failed put and no
synchroniser step changes it. -/
def Obligations.CommandsActOnFifo : Prop :=
  ∀ s : State, ringInvariant s → storageCanonical s →
    (s.port = .producer → ∀ b g, ∃ t, exec (.rbPut b g) s = .next t ∧
      bufferQueue t = bufferQueue s ++ if occW s = capacity s.par then [] else [⟨b, g⟩]) ∧
    (s.port = .consumer → occR s ≠ 0 → ∀ i, i = .rbGet ∨ i = .feed →
      ∃ t x, exec i s = .next t ∧ bufferQueue s = x :: bufferQueue t ∧
        (i = .rbGet → t.consResp = some (0#15 ++ 1#1 ++ x.tag ++ 0#7 ++ BitVec.ofBool x.bit))) ∧
    (s.port = .consumer → occR s = 0 → ∀ i t, i = .rbGet ∨ i = .feed → exec i s = .next t →
      bufferQueue t = bufferQueue s) ∧
    (∀ i t, i.opcode ∉ [.rbPut, .rbGet, .feed] → exec i s = .next t →
      bufferQueue t = bufferQueue s) ∧
    (∀ job, s.flush = some job → ∃ t x, stepAgent .cons s = .next t ∧
      bufferQueue s = x :: bufferQueue t) ∧
    bufferQueue (syncW2r s) = bufferQueue s ∧ bufferQueue (syncR2w s) = bufferQueue s ∧
    bufferQueue (syncO2r s) = bufferQueue s

/-- R158: after n failed puts whose counts SYNC_O2R has copied, an RB_OVFCLR returns 1 iff n is not a
multiple of 2^OVF_W, and one more RB_OVFCLR then returns 0. -/
def Obligations.OverflowReportedOnce : Prop :=
  ∀ (n : Nat) (s t x : State), s.port = .consumer → s.rb.ovfAck = s.rb.ovfCnt →
    exec .rbOvfclr (syncO2r (failedPuts n s)) = .next t → exec .rbOvfclr t = .next x →
    t.consResp = some (if n % 256 = 0 then 0 else 1) ∧ x.consResp = some 0

/-- R159: when all three views equal their registers, a put fails exactly when the buffer holds L
samples, a get answers EMPTY exactly when it holds none, and the consumer's view is the truth. -/
def Obligations.CaughtUpViewsTellTheTruth : Prop :=
  ∀ s : State, ringInvariant s → viewsCaughtUp s →
    ((∃ b g t, s.port = .producer ∧ exec (.rbPut b g) s = .next t ∧
        t.prodResp = some 0x06000000) ↔
      (s.port = .producer ∧ (bufferQueue s).length = capacity s.par)) ∧
    ((∃ t, s.port = .consumer ∧ exec .rbGet s = .next t ∧ t.consResp = some 0x05000000) ↔
      (s.port = .consumer ∧ bufferQueue s = [])) ∧
    occR s = (bufferQueue s).length ∧ occW s = (bufferQueue s).length

/-- R154, in the turns this model chose (note 8): with nothing else to do the synchronisers still step,
and within five steps every view has caught up and nothing else has changed. -/
def Obligations.IdleMachineCatchesUp : Prop :=
  ∀ s : State, paramsOk s.par = true → s.moves = [] → s.prodIn = [] → s.consIn = [] →
    s.flush = none →
    ∃ t, Host.Core.run Sys2Proof.core 5 s = .next t ∧ viewsCaughtUp t ∧
      t = { s with
        port := t.port,
        rb := { s.rb with wptrV := s.rb.wptr, rptrV := s.rb.rptr, ovfV := s.rb.ovfCnt } }

/-! ### Correlator (41_correlator.md) -/

/-- R183, R184, R189, R190: where k is the number of the low N bits of SR that differ from those of P,
that is, are inverted, the error count is k and the pattern matches at T iff k ≤ T; and two
shift-register values equal in bits [N-1:0] have the same error count. -/
def Obligations.CorrelatorBoundary : Prop :=
  (∀ (q : SyncPattern) (sr : BitVec 64) (t k : Nat), q.len ≤ 64 → q.value.toNat < 2 ^ q.len →
    ((List.range q.len).countP fun i => sr.getLsbD i != q.value.getLsbD i) = k →
    errCount sr q = k ∧ (patternMatches sr t q = true ↔ k ≤ t)) ∧
  ∀ (q : SyncPattern) (a b : BitVec 64),
    (∀ i, i < q.len → a.getLsbD i = b.getLsbD i) → errCount a q = errCount b q

/-- R186: `correlate` gives the least index whose pattern matches, and none iff no pattern does. -/
def Obligations.FirstMatchWins : Prop :=
  ∀ (sr : BitVec 64) (pats : List SyncPattern) (t i : Nat),
    (correlate sr pats t = some i ↔
      ∃ q, pats[i]? = some q ∧ errCount sr q ≤ t ∧
        ∀ j r, j < i → pats[j]? = some r → t < errCount sr r) ∧
    (correlate sr pats t = none ↔ ∀ q ∈ pats, t < errCount sr q)

/-- R187, R188: COR_PEEK returns the error count and, in bit 8, whether it is within the threshold of the
unit's state, and changes nothing else; the thresholds are those of the table, P2's SYNC at T_ACQ_P2.
In the states that the table leaves out the threshold is the model's choice (note 15). -/
def Obligations.CorPeekReadsErrorCount : Prop :=
  (∀ (x idx : BitVec 4) (u : UnitId) (q : SyncPattern) (s : State), s.port = .consumer →
    unitOf x = some u → (patterns s.par u)[idx.toNat]? = some q →
    ∃ w : Word, exec (.corPeek x idx) s = .next { s with consResp := some w } ∧
      w.toNat = errCount (s.unit u).sr q +
        if errCount (s.unit u).sr q ≤ threshold s.par u (s.unit u).st then 256 else 0) ∧
  ∀ p : Params,
    (∀ u, u = .dx1 ∨ u = .dx2 → threshold p u .none = p.tAcqDx ∧
      threshold p u .voice = p.tLockDx ∧ threshold p u .data = p.tLockDx) ∧
    (threshold p .sx .none = p.tAcqSx ∧ threshold p .sx .voice = p.tLockSx ∧
      threshold p .sx .data = p.tLockSx) ∧
    threshold p .is .none = p.tAcqIs ∧
    (threshold p .p2 .none = p.tAcqP2 ∧ threshold p .p2 .sync = p.tAcqP2 ∧
      threshold p .p2 .voice = p.tLockP2 ∧ threshold p .p2 .data = p.tLockP2) ∧
    (threshold p .p3 .none = p.tAcqP3 ∧ threshold p .p3 .data = p.tLockP3)

/-! ### Frame engine (42_frame_common.md) -/

/-- R84, R206, R207: frame bit j is the window bit at STP_u + j, it is in payload byte j div 8 at bit
7 - (j mod 8), the bits of the last byte beyond F are 0, and there are ceil(F / 8) bytes. R86, R219,
R222: an emission appends one FRAME, whose bytes are the control byte (RSSI_EN, SYNC, VOICE, LOSS_u and
SUB from bit 7 down), then the packed frame, then with RSSI_EN = 1 the next signal-level draw, high
byte first; it clears LOSS_u and changes nothing else. That a draw is numbered by a count of the draws
is the model's choice (note 3). -/
def Obligations.PayloadPacking : Prop :=
  (∀ (s : State) (u : UnitId) (j : Nat), frameBit s u j = winRead s u ((s.unit u).stp + j)) ∧
  (∀ (s : State) (u : UnitId) (len : Nat), (packFrame s u len).length = (len + 7) / 8 ∧
    ∀ j, j < 8 * ((len + 7) / 8) →
      ∃ byte, (packFrame s u len)[j / 8]? = some byte ∧
        byte.getLsbD (7 - j % 8) = if j < len then frameBit s u j else false) ∧
  (∀ (rssi sync voice loss : Bool) (sub : BitVec 4), (controlByte rssi sync voice loss sub).toNat =
    128 * rssi.toNat + 64 * sync.toNat + 32 * voice.toNat + 16 * loss.toNat + sub.toNat) ∧
  ∀ (s t : State) (u : UnitId) (sync voice : Bool) (sub : BitVec 4) (len : Nat),
    t = emitFrame u sync voice sub len s →
    t.events = s.events ++ [frameEvent s u sync voice sub len] ∧
    t.unit u = { s.unit u with loss := false } ∧ OnlyUnit u s t ∧ t.hdr = s.hdr ∧
    (∀ k, t.slot k = s.slot k) ∧ t.draws = s.draws + s.cfg.rssiEn.toNat ∧
    ∃ high low : Byte, high.toNat = (Config.rssiDraw s.draws).toNat / 256 ∧
      low.toNat = (Config.rssiDraw s.draws).toNat % 256 ∧
      frameEvent s u sync voice sub len = .frame u
        (controlByte s.cfg.rssiEn sync voice (s.unit u).loss sub :: packFrame s u len ++
          if s.cfg.rssiEn then [high, low] else [])

/-- R180, R200 step 2, R208, R210: a bit that is not dropped is written at DP_u and at no other window
entry, DP_u advances by one modulo W_u, also where the bit's step resets the unit, and SR_u holds the
old bits shifted left with the new one at bit 0, unless the bit's step reset the unit, which clears it;
a dropped bit writes nothing, is not shifted in and does not advance DP_u. -/
def Obligations.WindowIsOneHistory : Prop :=
  ∀ (u : UnitId) (b : Bool) (tag : Tag) (s : State), paramsOk s.par = true →
    storageCanonical s →
    ((∀ k, slotOf u = some k → s.cfg.chDelay ≤ (s.slot k).dly) →
      (∀ i, winRead (unitBit b tag s u) u i =
        if i % winLen s.par u = (s.unit u).dp % winLen s.par u then b else winRead s u i) ∧
      ((unitBit b tag s u).unit u).dp = ((s.unit u).dp + 1) % winLen s.par u ∧
      (((unitBit b tag s u).unit u).sr.toNat = (2 * (s.unit u).sr.toNat + b.toNat) % 2 ^ 64 ∨
        ∃ loss, (unitBit b tag s u).unit u = { UnitRegs.powerOn with
          win := ((unitBit b tag s u).unit u).win,
          dp := ((s.unit u).dp + 1) % winLen s.par u, loss := loss })) ∧
    ((∃ k, slotOf u = some k ∧ (s.slot k).dly < s.cfg.chDelay) →
      (unitBit b tag s u).unit u = s.unit u)

/-- R200, R201, R215, R191: a bit that is not dropped goes through steps 2 to 7. After steps 2 and 3
(window, shift register, tag tracking) the P2 header that is complete at DP runs `headerP2`, then a
frame end at DP runs `frameEnd`; a reset in either skips to step 7; else the correlation runs once, on
the shifted register, where the gate allows it, and `onSync` runs exactly if it finds a pattern; step 7
advances DP. -/
def Obligations.UnitBitRunsItsSteps : Prop :=
  ∀ (u : UnitId) (b : Bool) (tag : Tag) (s : State),
    (∀ k, slotOf u = some k → s.cfg.chDelay ≤ (s.slot k).dly) →
    ∃ x, OnlyUnit u s x ∧ x.hdr = s.hdr ∧ x.events = s.events ∧ x.draws = s.draws ∧
      x.unit u = { s.unit u with
        win := Memory.write unwrittenBit (s.unit u).win ((s.unit u).dp % winLen s.par u) b,
        sr := BitVec.ofNat 64 (2 * (s.unit u).sr.toNat + b.toNat) } ∧
      (∀ k, slotOf u = some k → x.slot k = { s.slot k with
        exp := if tag = Config.tagSlot k ∧ (s.slot k).pis = false then
            some (((s.unit u).dp + s.par.syncEndOfs) % 576)
          else (s.slot k).exp,
        pis := tag == Config.tagSlot k }) ∧
      (headerDue u s → ∀ y, headerP2 x = .skip y → unitBit b tag s u = dpAdvanced u y) ∧
      ∀ y, (if headerDue u s then headerP2 x = .goOn y else y = x) →
        ((y.unit u).enp = some (s.unit u).dp → ∀ z, frameEnd u (s.unit u).dp y = .skip z →
          unitBit b tag s u = dpAdvanced u z) ∧
        ∀ z, (if (y.unit u).enp = some (s.unit u).dp then frameEnd u (s.unit u).dp y = .goOn z
            else z = y) →
          (z.unit u).sr = BitVec.ofNat 64 (2 * (s.unit u).sr.toNat + b.toNat) ∧
          (∀ i, gateAllows u z → correlate (z.unit u).sr (patterns s.par u)
              (threshold s.par u (z.unit u).st) = some i →
            unitBit b tag s u = dpAdvanced u (onSync u i z)) ∧
          ((gateAllows u z → correlate (z.unit u).sr (patterns s.par u)
              (threshold s.par u (z.unit u).st) = none) →
            unitBit b tag s u = dpAdvanced u z)

/-- R227: one bit processed by unit u changes no other unit, no configuration register, nothing of the
ring buffer or the ports, and only appends to the event stream. -/
def Obligations.UnitBitStaysInItsUnit : Prop :=
  ∀ (u : UnitId) (b : Bool) (tag : Tag) (s : State),
    OnlyUnit u s (unitBit b tag s u) ∧ s.events <+: (unitBit b tag s u).events

/-- R228: what a bit does to unit u depends on nothing but u's registers, the configuration registers,
the bit, the tag and the collaborators: two states that u cannot tell apart stay so, and u emits the
same events in both. -/
def Obligations.UnitSeesOnlyItself : Prop :=
  ∀ (u : UnitId) (b : Bool) (tag : Tag) (s t : State), SameForUnit u s t →
    SameForUnit u (unitBit b tag s u) (unitBit b tag t u) ∧
      ∃ es, (unitBit b tag s u).events = s.events ++ es ∧
        (unitBit b tag t u).events = t.events ++ es

/-- R437: within one unit_bit P3 emits at most a FRAME followed by a LOST, every other unit at most one
event, and every event is of the unit itself. R221: LOSS_u is 1 after a LOST and 0 after a FRAME, and
a bit without an event leaves it. R220: a signal level is drawn for each FRAME, and only with
RSSI_EN = 1; that the draws are counted is the model's choice (note 3). -/
def Obligations.EventsOfOneBit : Prop :=
  ∀ (u : UnitId) (b : Bool) (tag : Tag) (s : State),
    ∃ es, (unitBit b tag s u).events = s.events ++ es ∧
      (es = [] ∨ es = [.lost u] ∨ (∃ bytes, es = [.frame u bytes]) ∨
        (u = .p3 ∧ ∃ bytes, es = [.frame u bytes, .lost u])) ∧
      (es = [] → ((unitBit b tag s u).unit u).loss = (s.unit u).loss) ∧
      (es ≠ [] → (((unitBit b tag s u).unit u).loss = true ↔ es.getLast? = some (.lost u))) ∧
      (unitBit b tag s u).draws = s.draws +
        if s.cfg.rssiEn = true ∧ es ≠ [] ∧ es ≠ [.lost u] then 1 else 0

/-- R225, R490: a step only appends to the event stream, unless it is a move of the reset input. -/
def Obligations.EventsAreFinal : Prop :=
  ∀ s t : State, step s = .next t → (∀ level rest, s.moves ≠ .rst level :: rest) →
    s.events <+: t.events

/-- R214, R216: `reset(u)` assigns its constants and keeps DP, WIN, LOSS and the slot timing, emits
nothing, and done twice is the same as done once. -/
def Obligations.UnitResetIsIdempotent : Prop :=
  ∀ (u : UnitId) (s : State),
    (resetUnit u s).unit u =
      { st := .none, sr := 0, win := (s.unit u).win, dp := (s.unit u).dp, syp := 0, stp := 0,
        enp := none, lc := 0, sf := false, sk := .data, loss := (s.unit u).loss, seq := 0 } ∧
    (resetUnit u s).hdr = (if u = .p2 then ⟨none, 0, 0, .voice, false, false⟩ else s.hdr) ∧
    (∀ k, (resetUnit u s).slot k = s.slot k) ∧ (resetUnit u s).events = s.events ∧
    resetUnit u (resetUnit u s) = resetUnit u s

/-- R213, R217: a confirmed frame reloads LC_u; any other decrements it, and at 0 the unit emits LOST
once, sets LOSS and is reset. -/
def Obligations.LockLossCounting : Prop :=
  ∀ (u : UnitId) (s : State), paramsOk s.par = true → u ≠ .is → 1 ≤ (s.unit u).lc.toNat →
    (∃ t, lockLoss u true s = .goOn t ∧ (t.unit u).lc.toNat = maxLost s.par u ∧
      t.events = s.events) ∧
    (2 ≤ (s.unit u).lc.toNat → ∃ t, lockLoss u false s = .goOn t ∧
      (t.unit u).lc.toNat = (s.unit u).lc.toNat - 1 ∧ t.events = s.events) ∧
    ((s.unit u).lc.toNat = 1 → ∃ t, lockLoss u false s = .skip t ∧
      t.events = s.events ++ [.lost u] ∧ (t.unit u).loss = true ∧ (t.unit u).st = .none ∧
      (t.unit u).lc = 0 ∧ (t.unit u).dp = (s.unit u).dp ∧ (t.unit u).win = (s.unit u).win)

/-- R44, R54, R218, R338: every step keeps the units in their legal states, with LC_u at least 1 while a
unit is locked; it keeps P2's pending header and frame end where P2's state can act on them, and the
registers a unit does not have at 0 (R340, R315; the model's choice, note 7). -/
def Obligations.UnitStatesKept : Prop :=
  ∀ s t : State, unitsLegal s → proto2Pending s → absentRegistersZero s → step s = .next t →
    unitsLegal t ∧ proto2Pending t ∧ absentRegistersZero t

/-- R47 to R49, R56, R59, R81: every step keeps the storage canonical and every position inside its
window. -/
def Obligations.StorageAndPositionsKept : Prop :=
  ∀ s t : State, storageCanonical s → positionsInRange s → step s = .next t →
    storageCanonical t ∧ positionsInRange t

/-- R55: every step keeps inactive units at the values activation or power-on gave them. That the windows
are 0 after a power-on, which a move of `rst` makes, is the model's choice (note 6). -/
def Obligations.InactiveUnitsRest : Prop :=
  ∀ s t : State, inactiveAtRest s → step s = .next t → inactiveAtRest t

/-! ### TDMA (43_tdma_duplex.md, 44_tdma_simplex.md, 45_tdma_idle.md) -/

/-- R250 to R252: DX1 has slot 1 and DX2 slot 2, marked by the tags 1 and 2; while DLY_u is below CH_DELAY
a duplex unit's bit is dropped, only counted in DLY_u; and tag tracking arms EXP_u at the first bit of
each run tagged with the unit's slot. -/
def Obligations.ChannelDelayAndTagTracking : Prop :=
  [UnitId.dx1, .dx2, .sx, .is, .p2, .p3].map slotOf =
    [some .slot1, some .slot2, none, none, none, none] ∧
  [SlotId.slot1, .slot2].map Config.tagSlot = [1, 2] ∧
  ∀ (u : UnitId) (k : SlotId) (b : Bool) (tag : Tag) (s : State), slotOf u = some k →
    ((s.slot k).dly < s.cfg.chDelay →
      unitBit b tag s u = s.setSlot k { s.slot k with dly := (s.slot k).dly + 1 } ∧
      ((unitBit b tag s u).slot k).dly.toNat = (s.slot k).dly.toNat + 1) ∧
    (s.cfg.chDelay ≤ (s.slot k).dly →
      (unitBit b tag s u).slot k = { s.slot k with
        exp := if tag = Config.tagSlot k ∧ (s.slot k).pis = false then
            some (((s.unit u).dp + s.par.syncEndOfs) % 576)
          else (s.slot k).exp
        pis := tag == Config.tagSlot k })

/-- R253: a duplex unit in NONE never acquires away from its slot: with no slot start seen and its own
slot not starting now, or outside ±2 bits of the expected position, a bit leaves it in NONE with no
end pointer and emits nothing. -/
def Obligations.GateBlocksAcquisition : Prop :=
  ∀ (u : UnitId) (k : SlotId) (b : Bool) (tag : Tag) (s : State), slotOf u = some k →
    (s.unit u).st = .none → (s.unit u).enp = none → s.cfg.chDelay ≤ (s.slot k).dly →
    ¬ (tag = Config.tagSlot k ∧ (s.slot k).pis = false) →
    (∀ e, (s.slot k).exp = some e →
      2 < min (modSub 576 (s.unit u).dp e) (modSub 576 e (s.unit u).dp)) →
    ((unitBit b tag s u).unit u).st = .none ∧ ((unitBit b tag s u).unit u).enp = none ∧
      (unitBit b tag s u).events = s.events

/-- R203, R254: a sync match of a TDMA unit puts the last sync bit at SYP_u = DP_u and the frame
symmetrically around the sync field, so that the frame end lies PRE_T bits ahead and the frame has
F_T bits; the state does not change and nothing is emitted. -/
def Obligations.TdmaSyncPositionsFrame : Prop :=
  ∀ (u : UnitId) (i : Nat) (q : SyncPattern) (s : State), paramsOk s.par = true →
    (locksTdma u ∨ u = .is) → (patterns s.par u)[i]? = some q →
    (s.unit u).dp < winLen s.par u →
    let r := (onSync u i s).unit u
    r.syp = (s.unit u).dp ∧ r.sf = true ∧ r.sk = q.role ∧ r.st = (s.unit u).st ∧
      r.enp = some (((s.unit u).dp + preT s.par u) % winLen s.par u) ∧
      r.stp = modSub (winLen s.par u) ((s.unit u).dp + 1) (preT s.par u + syncLen s.par u) ∧
      r.enp = some ((r.stp + (s.par.fT - 1)) % winLen s.par u) ∧
      (onSync u i s).events = s.events

/-- R256, R261, R432 (b): a voice sync frame enters VOICE from any state with SEQ 0 and a full counter
and is emitted with SYNC and VOICE set and SUB 0, with no slot-type check, and the frame positions move
on by the frame period (R212, R295); a data sync frame that does not decode or carries another colour
code resets the unit, with a LOST event exactly if it was locked. R85, R255: the slot-type field has
ST_LEN bits, frame bit ST_POS[k] at bit ST_LEN - 1 - k, so that the earliest-received is the most
significant. -/
def Obligations.SyncFrameAcceptedOrRejected : Prop :=
  (∀ (u : UnitId) (e : Nat) (s : State), paramsOk s.par = true → locksTdma u →
    (s.unit u).sf = true →
    ((s.unit u).sk = .voice →
      ∃ t, frameEnd u e s = .goOn t ∧ (t.unit u).st = .voice ∧ (t.unit u).seq = 0 ∧
        (t.unit u).lc.toNat = maxLost s.par u ∧ (t.unit u).sf = false ∧
        movedOnePeriod u s t ∧ (t.unit u).loss = false ∧
        t.events = s.events ++ [frameEvent s u true true 0 s.par.fT]) ∧
    ((s.unit u).sk = .data →
      (∀ dt, slotTypeDecode s.par (slotTypeField s u) ≠ some (s.cfg.cc, dt)) →
      ∃ t, frameEnd u e s = .skip t ∧ (t.unit u).st = .none ∧ (t.unit u).enp = none ∧
        ((s.unit u).st = .none → t.events = s.events ∧ (t.unit u).loss = (s.unit u).loss) ∧
        ((s.unit u).st ≠ .none → t.events = s.events ++ [.lost u] ∧ (t.unit u).loss = true))) ∧
  ∀ (u : UnitId) (s : State), slotTypeField s u < 2 ^ s.par.stPos.length ∧
    ∀ k j, s.par.stPos[k]? = some j →
      (slotTypeField s u).testBit (s.par.stPos.length - 1 - k) = frameBit s u j

/-- R256, R257, R261, data: the five data-type classes of a data sync frame with a matching colour
code. A frame end that leaves the unit locked moves the frame positions on by the frame period (R212,
R295) and leaves SEQ, but for VHDR, which makes it 0 (R259). -/
def Obligations.DataSyncFrameClasses : Prop :=
  ∀ (u : UnitId) (e : Nat) (dt : BitVec 4) (s : State), paramsOk s.par = true → locksTdma u →
    (s.unit u).sf = true → (s.unit u).sk = .data →
    slotTypeDecode s.par (slotTypeField s u) = some (s.cfg.cc, dt) →
    let emitted := s.events ++ [frameEvent s u true false dt s.par.fT]
    (classOf s.par dt = .header → ∃ t, frameEnd u e s = .goOn t ∧ (t.unit u).st = .data ∧
      (t.unit u).lc.toNat = maxLost s.par u ∧ (t.unit u).seq = (s.unit u).seq ∧
      movedOnePeriod u s t ∧ (t.unit u).loss = false ∧ t.events = emitted) ∧
    (classOf s.par dt = .vhdr → ∃ t, frameEnd u e s = .goOn t ∧ (t.unit u).st = .voice ∧
      (t.unit u).seq = 0 ∧ (t.unit u).lc.toNat = maxLost s.par u ∧ movedOnePeriod u s t ∧
      (t.unit u).loss = false ∧ t.events = emitted) ∧
    (classOf s.par dt = .tlc ∨ classOf s.par dt = .other → ∃ t, frameEnd u e s = .skip t ∧
      (t.unit u).st = .none ∧ (t.unit u).enp = none ∧ (t.unit u).loss = false ∧
      t.events = emitted) ∧
    (classOf s.par dt = .cont → (s.unit u).st = .data → ∃ t, frameEnd u e s = .goOn t ∧
      (t.unit u).st = .data ∧ (t.unit u).lc.toNat = maxLost s.par u ∧
      (t.unit u).seq = (s.unit u).seq ∧ movedOnePeriod u s t ∧ (t.unit u).loss = false ∧
      t.events = emitted) ∧
    (classOf s.par dt = .cont → (s.unit u).st = .none → ∃ t, frameEnd u e s = .goOn t ∧
      (t.unit u).st = .none ∧ (t.unit u).enp = none ∧ (t.unit u).sf = false ∧
      (t.unit u).loss = (s.unit u).loss ∧ t.events = s.events) ∧
    (classOf s.par dt = .cont → (s.unit u).st = .voice → 2 ≤ (s.unit u).lc.toNat →
      ∃ t, frameEnd u e s = .goOn t ∧ (t.unit u).st = .voice ∧
        (t.unit u).lc.toNat = (s.unit u).lc.toNat - 1 ∧ (t.unit u).seq = (s.unit u).seq ∧
        movedOnePeriod u s t ∧ (t.unit u).loss = (s.unit u).loss ∧ t.events = s.events) ∧
    (classOf s.par dt = .cont → (s.unit u).st = .voice → (s.unit u).lc.toNat = 1 →
      ∃ t, frameEnd u e s = .skip t ∧ (t.unit u).st = .none ∧ (t.unit u).enp = none ∧
        (t.unit u).loss = true ∧ t.events = s.events ++ [.lost u])

/-- R256, R259, R261, one frame period without a sync: in VOICE the unit stays there, counts, numbers and
emits a continuation frame (SYNC 0, VOICE 1, SUB the new SEQ); in DATA it stays there, counts and emits
nothing; in both the frame positions move on by the frame period (R212, R295); where the counter
reaches 0 the unit goes to NONE with exactly one LOST and no frame. R262: in VOICE after a confirmed
frame with the counter at m + 1, m + 1 such periods give m continuation frames numbered 1, 2, 3, 4, 5,
1, ..., then one LOST, and the unit is in NONE. -/
def Obligations.VoiceLockTimeout : Prop :=
  (∀ (u : UnitId) (e : Nat) (s : State), locksTdma u → (s.unit u).sf = false →
    ((s.unit u).st = .voice → 2 ≤ (s.unit u).lc.toNat → ∃ t, frameEnd u e s = .goOn t ∧
      (t.unit u).st = .voice ∧ (t.unit u).lc.toNat = (s.unit u).lc.toNat - 1 ∧
      (t.unit u).seq.toNat = (s.unit u).seq.toNat % 5 + 1 ∧ movedOnePeriod u s t ∧
      (t.unit u).loss = false ∧ t.events = s.events ++
        [frameEvent s u false true (BitVec.ofNat 4 ((s.unit u).seq.toNat % 5 + 1)) s.par.fT]) ∧
    ((s.unit u).st = .data → 2 ≤ (s.unit u).lc.toNat → ∃ t, frameEnd u e s = .goOn t ∧
      (t.unit u).st = .data ∧ (t.unit u).lc.toNat = (s.unit u).lc.toNat - 1 ∧
      (t.unit u).seq = (s.unit u).seq ∧ movedOnePeriod u s t ∧
      (t.unit u).loss = (s.unit u).loss ∧ t.events = s.events) ∧
    (locked (s.unit u) → (s.unit u).lc.toNat = 1 → ∃ t, frameEnd u e s = .skip t ∧
      (t.unit u).st = .none ∧ (t.unit u).enp = none ∧ (t.unit u).loss = true ∧
      t.events = s.events ++ [.lost u])) ∧
  ∀ (u : UnitId) (m : Nat) (s : State), locksTdma u → (s.unit u).st = .voice →
    (s.unit u).sf = false → (s.unit u).seq = 0 → (s.unit u).loss = false →
    (s.unit u).lc.toNat = m + 1 →
    let t := framePeriods u (m + 1) s
    (t.unit u).st = .none ∧ (t.unit u).loss = true ∧
      ∃ fs : List Event, fs.length = m ∧ t.events = s.events ++ fs ++ [.lost u] ∧
        ∀ i, i < m → ∃ bytes, fs[i]? = some (.frame u
          (controlByte s.cfg.rssiEn false true false (BitVec.ofNat 4 (i % 5 + 1)) :: bytes))

/-- R313: the idle scanner's frame end forwards a frame exactly when it decodes with the configured
colour code and the one data type, clears its end pointer, and emits nothing else. -/
def Obligations.IdleScannerForwards : Prop :=
  ∀ (e : Nat) (s : State), ∃ t, frameEnd .is e s = .goOn t ∧ t.is.enp = none ∧
    t.is.sf = false ∧ t.is.st = s.is.st ∧
    (slotTypeDecode s.par (slotTypeField s .is) = some (s.cfg.cc, s.par.idleFwdDt) →
      t.events = s.events ++ [frameEvent s .is true false s.par.idleFwdDt s.par.fT]) ∧
    (slotTypeDecode s.par (slotTypeField s .is) ≠ some (s.cfg.cc, s.par.idleFwdDt) →
      t.events = s.events)

/-! ### Second protocol (46_proto2.md) -/

/-- R332: a P2 sync match marks the header NID_LEN bits ahead, enters SYNC from NONE, and leaves the end
pointer and the event stream as they were. -/
def Obligations.Proto2SyncSchedulesHeader : Prop :=
  ∀ (i : Nat) (s : State), let t := onSync .p2 i s
    t.p2.syp = s.p2.dp ∧ t.p2.sf = true ∧ t.hdr.hsy = true ∧
      t.hdr.hdp = some ((s.p2.dp + s.par.nidLen) % s.par.wP2) ∧ t.p2.enp = s.p2.enp ∧
      t.p2.st = (if s.p2.st = .none then .sync else s.p2.st) ∧ t.events = s.events

/-- R334 to R337: a valid header sets FT, FL, CL, HOK and the frame's positions, and leaves SYNC by its
class with a full counter; an invalid one after a sync match is LOST in every state; an invalid blind
one only clears HOK. R85, R333: the header field has NID_LEN bits, the window bit at SYP_P2 + 1 + k at
bit NID_LEN - 1 - k, so that the earliest-received is the most significant. -/
def Obligations.Proto2HeaderOutcomes : Prop :=
  (∀ s : State, headerField s < 2 ^ s.par.nidLen ∧ ∀ k, k < s.par.nidLen →
    (headerField s).testBit (s.par.nidLen - 1 - k) = winRead s .p2 (s.p2.syp + 1 + k)) ∧
  ∀ s : State, paramsOk s.par = true →
    (∀ nid ft len cl, nidDecode s.par (headerField s) = some (nid, ft) →
      (s.cfg.nidWild = true ∨ nid = s.cfg.nid) → frameType s.par ft = some (len, cl) →
      ∃ t, headerP2 s = .goOn t ∧ t.hdr.hdp = none ∧ t.hdr.ft = ft ∧ t.hdr.fl.toNat = len ∧
        t.hdr.cl = cl ∧ t.hdr.hok = true ∧ t.events = s.events ∧
        t.p2.stp = modSub s.par.wP2 (s.p2.syp + 1) (syncLen s.par .p2) ∧
        t.p2.enp = some ((t.p2.stp + (len - 1)) % s.par.wP2) ∧
        (s.p2.st = .sync → t.p2.lc.toNat = s.par.maxLostP2 ∧
          t.p2.st = if cl = .voice then .voice else .data) ∧
        (s.p2.st ≠ .sync → t.p2.lc = s.p2.lc ∧
          t.p2.st = match cl with
            | .voice => .voice
            | .data => .data
            | .term => s.p2.st)) ∧
    ((∀ nid ft, nidDecode s.par (headerField s) = some (nid, ft) →
        (s.cfg.nidWild = true ∨ nid = s.cfg.nid) → frameType s.par ft = none) →
      (s.hdr.hsy = true → ∃ t, headerP2 s = .skip t ∧ t.events = s.events ++ [.lost .p2] ∧
        t.p2.st = .none ∧ t.p2.loss = true ∧ t.hdr.hdp = none) ∧
      (s.hdr.hsy = false → ∃ t, headerP2 s = .goOn t ∧ t.events = s.events ∧
        t.hdr = { s.hdr with hdp := none, hok := false } ∧ t.p2 = s.p2))

/-- R338, R339, R341: the frame ends of P2: a terminator is emitted and resets, a validated frame is
emitted and reloads the counter, a frame without a valid header counts as missed and is emitted
(blind, SYNC 0) only in VOICE. A frame end that leaves P2 locked clears HOK and SF; in DATA with no
header pending it schedules the blind re-validation of the next frame's header, and a header already
pending, and every header in another state, stays as it was. -/
def Obligations.Proto2FrameEnds : Prop :=
  ∀ (e : Nat) (s : State), paramsOk s.par = true →
    (s.hdr.hok = true → s.hdr.cl = .term → ∃ t, frameEnd .p2 e s = .skip t ∧
      t.p2.st = .none ∧ t.events = s.events ++
        [frameEvent s .p2 s.hdr.hsy false s.hdr.ft s.hdr.fl.toNat]) ∧
    (s.hdr.hok = true → s.hdr.cl ≠ .term → ∃ t, frameEnd .p2 e s = .goOn t ∧
      t.p2.st = s.p2.st ∧ t.p2.lc.toNat = s.par.maxLostP2 ∧ t.hdr.hok = false ∧
      t.p2.stp = (e + 1) % s.par.wP2 ∧
      t.p2.enp = some ((e + s.hdr.fl.toNat) % s.par.wP2) ∧
      t.events = s.events ++
        [frameEvent s .p2 s.hdr.hsy (s.p2.st == .voice) s.hdr.ft s.hdr.fl.toNat]) ∧
    (s.hdr.hok = false → 2 ≤ s.p2.lc.toNat → ∃ t, frameEnd .p2 e s = .goOn t ∧
      t.p2.st = s.p2.st ∧ t.p2.lc.toNat = s.p2.lc.toNat - 1 ∧
      t.p2.stp = (e + 1) % s.par.wP2 ∧
      t.p2.enp = some ((e + s.hdr.fl.toNat) % s.par.wP2) ∧
      t.events = s.events ++ if s.p2.st = .voice then
        [frameEvent s .p2 false true s.hdr.ft s.hdr.fl.toNat] else []) ∧
    (s.hdr.hok = false → s.p2.lc.toNat = 1 → ∃ t, frameEnd .p2 e s = .skip t ∧
      t.p2.st = .none ∧ t.p2.loss = true ∧ t.events = s.events ++ [.lost .p2]) ∧
    ∀ t, frameEnd .p2 e s = .goOn t → t.p2.sf = false ∧
      (s.p2.st = .data → s.hdr.hdp = none →
        t.p2.syp = (e + syncLen s.par .p2) % s.par.wP2 ∧
        t.hdr = { s.hdr with
          hok := false, hdp := some ((t.p2.syp + s.par.nidLen) % s.par.wP2), hsy := false }) ∧
      ((s.p2.st ≠ .data ∨ s.hdr.hdp ≠ none) →
        t.p2.syp = s.p2.syp ∧ t.hdr = { s.hdr with hok := false })

/-! ### Third protocol (47_proto3.md) -/

/-- R371, R372: a P3 sync match puts the frame on the F3 bits that follow and enters DATA from NONE with
a full counter; a frame end emits the frame with the first-frame-after-sync flag and sets up the next
F3 bits, reloading the counter after a sync and decrementing it otherwise. -/
def Obligations.Proto3SyncAndFrameEnd : Prop :=
  ∀ (i e : Nat) (s : State), paramsOk s.par = true →
    (∀ t, t = onSync .p3 i s →
      t.p3.syp = s.p3.dp ∧ t.p3.stp = (s.p3.dp + 1) % s.par.wP3 ∧
        t.p3.enp = some ((s.p3.dp + s.par.f3) % s.par.wP3) ∧ t.p3.sf = true ∧
        (s.p3.st = .none → t.p3.st = .data ∧ t.p3.lc.toNat = s.par.maxLostP3) ∧
        (s.p3.st ≠ .none → t.p3.st = s.p3.st ∧ t.p3.lc = s.p3.lc) ∧ t.events = s.events) ∧
    ((s.p3.sf = true ∨ 2 ≤ s.p3.lc.toNat) → ∃ t, frameEnd .p3 e s = .goOn t ∧
      t.p3.syp = e ∧ t.p3.stp = (e + 1) % s.par.wP3 ∧
      t.p3.enp = some ((e + s.par.f3) % s.par.wP3) ∧ t.p3.sf = false ∧ t.p3.st = s.p3.st ∧
      t.p3.lc.toNat = (if s.p3.sf then s.par.maxLostP3 else s.p3.lc.toNat - 1) ∧
      t.events = s.events ++ [frameEvent s .p3 s.p3.sf false 0 s.par.f3]) ∧
    (s.p3.sf = false → s.p3.lc.toNat = 1 → ∃ t, frameEnd .p3 e s = .skip t ∧
      t.p3.st = .none ∧ t.p3.loss = true ∧
      t.events = s.events ++ [frameEvent s .p3 false false 0 s.par.f3, .lost .p3])

/-- R376: with the counter at m + 1 and no sync, m + 1 frame periods emit m + 1 frames with SYNC 0, the
last followed by exactly one LOST, and P3 is in NONE. -/
def Obligations.Proto3LockTimeout : Prop :=
  ∀ (m : Nat) (s : State), s.p3.sf = false → s.p3.loss = false → s.p3.lc.toNat = m + 1 →
    let t := framePeriods .p3 (m + 1) s
    t.p3.st = .none ∧ ∃ fs : List Event, fs.length = m + 1 ∧
      t.events = s.events ++ fs ++ [.lost .p3] ∧
      ∀ i, i ≤ m → ∃ bytes, fs[i]? = some (.frame .p3
        (controlByte s.cfg.rssiEn false false false 0 :: bytes))

/-! ### Control commands (48_control.md) -/

/-- R391, R393: FEED takes the oldest visible sample as RB_GET does and routes it, DATABIT routes the
sample of its word and leaves the ring buffer alone; bit 17 of the result tells whether a unit was
active; an empty view makes FEED answer EMPTY and change nothing. R390, R392, R225: routing runs
`unit_bit` of each active unit of the mode, in DX that of DX1 and then that of DX2, so that the events of
DX1 come first; in IDLE it does nothing. -/
def Obligations.FeedAndDatabitRoute : Prop :=
  (∀ (b : Bool) (g : Tag) (s : State),
    (s.mode = .idle → route b g s = s) ∧
    (s.mode = .dx → route b g s = unitBit b g (unitBit b g s .dx1) .dx2) ∧
    (s.mode = .sx → route b g s = unitBit b g s .sx) ∧
    (s.mode = .is → route b g s = unitBit b g s .is) ∧
    (s.mode = .p2 → route b g s = unitBit b g s .p2) ∧
    (s.mode = .p3 → route b g s = unitBit b g s .p3)) ∧
  [Mode.idle, .dx, .sx, .is, .p2, .p3].map Mode.active =
    [[], [.dx1, .dx2], [.sx], [.is], [.p2], [.p3]] ∧
  ∀ s : State, s.port = .consumer →
    (∀ b g, ∃ w : Word, exec (.databit b g) s = .next { route b g s with consResp := some w } ∧
      w.toNat = (if s.mode = .idle then 0 else 2 ^ 17) + 2 ^ 16 + 2 ^ 8 * g.toNat + b.toNat) ∧
    (occR s ≠ 0 → ∀ x, x = ringEntry s s.rb.rptr → ∃ w : Word,
      exec .feed s = .next { route x.bit x.tag { s with
        rb := { s.rb with
          rptr := (s.rb.rptr + 1) % (2 * capacity s.par)
          rptrG := gray ((s.rb.rptr + 1) % (2 * capacity s.par)) } } with consResp := some w } ∧
      w.toNat = (if s.mode = .idle then 0 else 2 ^ 17) + 2 ^ 16 + 2 ^ 8 * x.tag.toNat +
        x.bit.toNat) ∧
    (occR s = 0 → exec .feed s = .next { s with consResp := some 0x05000000 })

/-- R390, R392: the frame of FEED and DATABIT: a routed bit changes only the registers of the active
units, the event stream, the draws and (for FEED) RPTR and RPTR_G; in IDLE no unit changes and no
event is emitted. -/
def Obligations.RoutedBitFrame : Prop :=
  ∀ (i : Instr) (s t : State), (i = .feed ∨ ∃ b g, i = .databit b g) → s.port = .consumer →
    exec i s = .next t →
    (∀ u, u ∉ s.mode.active → t.unit u = s.unit u ∧
      (∀ k, slotOf u = some k → t.slot k = s.slot k) ∧ (u = .p2 → t.hdr = s.hdr)) ∧
    t.rb = { s.rb with rptr := t.rb.rptr, rptrG := t.rb.rptrG } ∧
    ((∃ b g, i = .databit b g) → t.rb = s.rb) ∧ t.cfg = s.cfg ∧ t.mode = s.mode ∧
    t.par = s.par ∧ t.rst = s.rst ∧ t.moves = s.moves ∧ t.turn = s.turn ∧ t.port = s.port ∧
    t.prodIn = s.prodIn ∧ t.consIn = s.consIn ∧ t.prodResp = s.prodResp ∧ t.flush = s.flush ∧
    s.events <+: t.events ∧ (s.mode = .idle → t.events = s.events)

/-- R394: FSM_RESET resets its unit, answers OK, changes nothing else and emits nothing. -/
def Obligations.FsmResetResetsOneUnit : Prop :=
  ∀ (x : BitVec 4) (u : UnitId) (s : State), s.port = .consumer → unitOf x = some u →
    exec (.fsmReset x) s = .next { resetUnit u s with consResp := some 0 } ∧
      OnlyUnit u s (resetUnit u s) ∧ (resetUnit u s).events = s.events

/-- R395, R397, R398: MODE_SET to a mode whose enable bit is 0 answers DISABLED and changes nothing; to
an enabled mode (or IDLE) with nothing in view it activates every unit and the mode at once and every
window reads 0; with samples in view it starts a flush (its end is `FlushRunsToItsEnd`). That the start
is a step of its own and that no response stands while the flush runs is the model's choice (notes 10
and 14). -/
def Obligations.ModeSetSwitches : Prop :=
  ∀ (x : BitVec 3) (m : Mode) (s : State), s.port = .consumer → modeOf x = some m →
    (m ≠ .idle → s.cfg.enables.getLsbD (x.toNat - 1) = false →
      exec (.modeSet x) s = .next { s with consResp := some 0x04000000 }) ∧
    ((m = .idle ∨ s.cfg.enables.getLsbD (x.toNat - 1) = true) →
      (occR s = 0 → ∃ t, exec (.modeSet x) s = .next t ∧ t.mode = m ∧ (∀ u, atRest t u) ∧
        (∀ u i, winRead t u i = false) ∧
        t.consResp = some 0 ∧ t.rb = s.rb ∧ t.cfg = s.cfg ∧ t.events = s.events ∧
        t.flush = s.flush ∧ t.prodResp = s.prodResp ∧ t.par = s.par) ∧
      (occR s ≠ 0 → exec (.modeSet x) s = .next { s with
        flush := some ⟨occR s, occR s, some m⟩, consResp := none }))

/-- R399, R400, R403, R33: CFG_WR stores the low bits of VALUE, as many as the register is wide, in its
register and changes no other, and a CFG_RD then returns them; CFG_RD returns each register of the map,
0x06 being MODE, and changes nothing else. -/
def Obligations.ConfigWriteAndRead : Prop :=
  ∀ s : State, s.port = .consumer →
    let answers (x : State) (reg : BitVec 8) (v : Nat) : Prop :=
      exec (.cfgRd reg) x = .next { x with consResp := some (BitVec.ofNat 32 v) }
    (∀ (reg : BitVec 8) (value : BitVec 16) (w : Nat), [4, 12, 1, 5, 16, 1][reg.toNat]? = some w →
      ∃ t, exec (.cfgWr reg value) s = .next t ∧
        t = { s with cfg := t.cfg, consResp := some 0 } ∧
        (∀ other, other ≠ reg → cfgRead t other = cfgRead s other) ∧
        answers t reg (value.toNat % 2 ^ w)) ∧
    answers s 0 s.cfg.cc.toNat ∧ answers s 1 s.cfg.nid.toNat ∧
    answers s 2 s.cfg.nidWild.toNat ∧ answers s 3 s.cfg.enables.toNat ∧
    answers s 4 s.cfg.chDelay.toNat ∧ answers s 5 s.cfg.rssiEn.toNat ∧
    answers s 6 s.mode.code.toNat

/-- R401: STAT_RD returns ST, ENP set, SF, LOSS, SEQ, LC and active in their bits, and changes nothing
else. That SEQ reads 0 in a unit that has none is the model's choice (note 7). R10, R32, R44: the
numbers that name the units, the modes and the acquisition states. -/
def Obligations.StatusRead : Prop :=
  (∀ x u, unitOf x = some u ↔ x.toNat = unitCode u) ∧
  [UnitId.dx1, .dx2, .sx, .is, .p2, .p3].map unitCode = [0, 1, 2, 3, 4, 5] ∧
  (∀ x m, modeOf x = some m ↔ x.toNat = m.code.toNat) ∧
  [Mode.idle, .dx, .sx, .is, .p2, .p3].map Mode.code = [0, 1, 2, 3, 4, 5] ∧
  [AcqState.none, .sync, .voice, .data].map AcqState.code = [0, 1, 2, 3] ∧
  ∀ (x : BitVec 4) (u : UnitId) (s : State), s.port = .consumer → unitOf x = some u →
    ∃ w : Word, exec (.statRd x) s = .next { s with consResp := some w } ∧
      w.toNat = (s.unit u).st.code.toNat + 4 * (s.unit u).enp.isSome.toNat +
        8 * (s.unit u).sf.toNat + 16 * (s.unit u).loss.toNat + 32 * (s.unit u).seq.toNat +
        256 * (s.unit u).lc.toNat + 65536 * (if u ∈ s.mode.active then 1 else 0)
end

