-- ==== Sys2Proof/Laws/Memory.lean ====
section
/-! SUPPORT. The laws of sparse storage: read after write, and that a write keeps the canonical form
and the bound on the indexes. -/

namespace Sys2Proof.Machine

open Sys2Proof

section
variable {α : Type} [DecidableEq α] {d : α} {m : Memory α} {a n : Nat} {v : α}

/-- The canonical form of a list with a first entry. -/
theorem wf_cons {k : Nat} {y : α} {t : Memory α} :
    Memory.wf d ((k, y) :: t) = true ↔ (∀ z ∈ t, k < z.1) ∧ y ≠ d ∧ Memory.wf d t = true := by
  simp only [Memory.wf, List.pairwise_cons, Bool.and_eq_true, decide_eq_true_eq, List.all_cons]
  tauto

omit [DecidableEq α] in
theorem read_eq_default (h : ∀ x ∈ m, a < x.1) : Memory.read d m a = d := by
  induction m with
  | nil => rfl
  | cons x t ih =>
    have hx : a < x.1 := h x (by simp)
    simp only [Memory.read, Nat.ne_of_gt hx, if_false]
    exact ih fun y hy => h y (by simp [hy])

/-- `Memory.put` in front of larger indexes reads as its value there and as the rest elsewhere. -/
theorem read_put (h : ∀ x ∈ m, a < x.1) (b : Nat) :
    Memory.read d (Memory.put d a v m) b = if b = a then v else Memory.read d m b := by
  unfold Memory.put
  by_cases hv : v = d
  · subst hv
    by_cases hb : b = a
    · subst hb; simp [read_eq_default h]
    · simp [hb]
  · simp [hv, Memory.read, eq_comm]

/-- The storage after a write: the written value at the written index, elsewhere as before. -/
theorem read_write (hm : Memory.wf d m = true) (b : Nat) :
    Memory.read d (Memory.write d m a v) b = if b = a then v else Memory.read d m b := by
  induction m with
  | nil => simpa [Memory.write] using read_put (m := ([] : Memory α)) (by simp) b
  | cons x t ih =>
    obtain ⟨k, y⟩ := x
    obtain ⟨hk, -, hwf⟩ := wf_cons.1 hm
    unfold Memory.write
    split
    · next hlt =>
      simp only [Memory.read, ih hwf]
      by_cases hb : b = a
      · have : k ≠ b := by omega
        simp [hb, Nat.ne_of_lt hlt]
      · simp [hb]
    · split
      · next hge heq =>
        subst heq
        rw [read_put (fun z hz => hk z hz)]
        by_cases hb : b = k
        · simp [hb]
        · simp [Memory.read, hb, Ne.symm hb]
      · next hge hne =>
        rw [read_put]
        intro z hz
        rcases List.mem_cons.1 hz with rfl | hz
        · exact Nat.lt_of_le_of_ne (Nat.le_of_not_lt hge) (Ne.symm hne)
        · exact Nat.lt_of_le_of_lt (Nat.le_of_not_lt hge) (hk z hz)

theorem wf_put (hm : Memory.wf d m = true) (h : ∀ x ∈ m, a < x.1) :
    Memory.wf d (Memory.put d a v m) = true := by
  unfold Memory.put
  split
  · exact hm
  · next hv => exact wf_cons.2 ⟨h, hv, hm⟩

theorem mem_put {x : Nat × α} (hx : x ∈ Memory.put d a v m) : x = (a, v) ∨ x ∈ m := by
  unfold Memory.put at hx
  split at hx
  · exact .inr hx
  · simpa using hx

theorem mem_write {x : Nat × α} (hx : x ∈ Memory.write d m a v) : x = (a, v) ∨ x ∈ m := by
  induction m with
  | nil => exact mem_put hx
  | cons y t ih =>
    unfold Memory.write at hx
    split at hx
    · rcases List.mem_cons.1 hx with rfl | hx
      · exact .inr (by simp)
      · rcases ih hx with h | h
        · exact .inl h
        · exact .inr (by simp [h])
    · split at hx
      · rcases mem_put hx with h | h
        · exact .inl h
        · exact .inr (by simp [h])
      · exact mem_put hx

/-- A write keeps the canonical form. -/
theorem wf_write (hm : Memory.wf d m = true) : Memory.wf d (Memory.write d m a v) = true := by
  induction m with
  | nil => exact wf_put hm (by simp)
  | cons x t ih =>
    obtain ⟨k, y⟩ := x
    obtain ⟨hk, hy, hwf⟩ := wf_cons.1 hm
    unfold Memory.write
    split
    · next hlt =>
      refine wf_cons.2 ⟨fun z hz => ?_, hy, ih hwf⟩
      rcases mem_write hz with rfl | hz
      · exact hlt
      · exact hk z hz
    · split
      · next heq => subst heq; exact wf_put hwf fun z hz => hk z hz
      · next hge hne =>
        refine wf_put hm fun z hz => ?_
        rcases List.mem_cons.1 hz with rfl | hz
        · exact Nat.lt_of_le_of_ne (Nat.le_of_not_lt hge) (Ne.symm hne)
        · exact Nat.lt_of_le_of_lt (Nat.le_of_not_lt hge) (hk z hz)

/-- A write below `n` keeps every listed index below `n`. -/
theorem below_write (hm : Memory.below n m = true) (ha : a < n) :
    Memory.below n (Memory.write d m a v) = true := by
  simp only [Memory.below, List.all_eq_true, decide_eq_true_eq] at *
  intro x hx
  rcases mem_write hx with rfl | hx
  · exact ha
  · exact hm x hx

end

/-- The storages of the machine after reset are in canonical form. -/
theorem wf_powerOn (p : Params) : Memory.wf Sample.unwritten (State.powerOn p).rb.mem = true := rfl

theorem wf_reset : Memory.wf Sample.unwritten State.reset.rb.mem = true := rfl

theorem wf_win_powerOn (p : Params) (u : UnitId) :
    Memory.wf unwrittenBit ((State.powerOn p).unit u).win = true := by cases u <;> rfl

end Sys2Proof.Machine
end

