-- ==== Sys2Proof/Laws/State.lean ====
section
/-! SUPPORT. One lemma per field per update of State, so that no later proof unfolds a record update. -/

namespace Sys2Proof.Machine

open Sys2Proof

section
variable (s : State) (u v : UnitId) (k j : SlotId) (r : UnitRegs) (q : SlotRegs) (e : Event)
  (p : Port) (w : Word)

/-! ### setUnit -/

@[simp] theorem unit_setUnit_same : (s.setUnit u r).unit u = r := by cases u <;> rfl

theorem unit_setUnit_other (h : v ≠ u) : (s.setUnit u r).unit v = s.unit v := by
  cases u <;> cases v <;> first | rfl | exact absurd rfl h

theorem unit_setUnit : (s.setUnit u r).unit v = if v = u then r else s.unit v := by
  split
  · next h => subst h; exact unit_setUnit_same s v r
  · next h => exact unit_setUnit_other s u v r h

@[simp] theorem setUnit_setUnit (r' : UnitRegs) :
    (s.setUnit u r).setUnit u r' = s.setUnit u r' := by cases u <;> rfl

@[simp] theorem setUnit_unit : s.setUnit u (s.unit u) = s := by cases u <;> rfl

@[simp] theorem slot_setUnit : (s.setUnit u r).slot k = s.slot k := by cases u <;> cases k <;> rfl

@[simp] theorem par_setUnit : (s.setUnit u r).par = s.par := by cases u <;> rfl

@[simp] theorem rst_setUnit : (s.setUnit u r).rst = s.rst := by cases u <;> rfl

@[simp] theorem moves_setUnit : (s.setUnit u r).moves = s.moves := by cases u <;> rfl

@[simp] theorem turn_setUnit : (s.setUnit u r).turn = s.turn := by cases u <;> rfl

@[simp] theorem prodIn_setUnit : (s.setUnit u r).prodIn = s.prodIn := by cases u <;> rfl

@[simp] theorem consIn_setUnit : (s.setUnit u r).consIn = s.consIn := by cases u <;> rfl

@[simp] theorem port_setUnit : (s.setUnit u r).port = s.port := by cases u <;> rfl

@[simp] theorem prodResp_setUnit : (s.setUnit u r).prodResp = s.prodResp := by cases u <;> rfl

@[simp] theorem consResp_setUnit : (s.setUnit u r).consResp = s.consResp := by cases u <;> rfl

@[simp] theorem events_setUnit : (s.setUnit u r).events = s.events := by cases u <;> rfl

@[simp] theorem draws_setUnit : (s.setUnit u r).draws = s.draws := by cases u <;> rfl

@[simp] theorem mode_setUnit : (s.setUnit u r).mode = s.mode := by cases u <;> rfl

@[simp] theorem cfg_setUnit : (s.setUnit u r).cfg = s.cfg := by cases u <;> rfl

@[simp] theorem rb_setUnit : (s.setUnit u r).rb = s.rb := by cases u <;> rfl

@[simp] theorem flush_setUnit : (s.setUnit u r).flush = s.flush := by cases u <;> rfl

@[simp] theorem slot1_setUnit : (s.setUnit u r).slot1 = s.slot1 := by cases u <;> rfl

@[simp] theorem slot2_setUnit : (s.setUnit u r).slot2 = s.slot2 := by cases u <;> rfl

@[simp] theorem hdr_setUnit : (s.setUnit u r).hdr = s.hdr := by cases u <;> rfl

/-! ### setSlot -/

@[simp] theorem slot_setSlot_same : (s.setSlot k q).slot k = q := by cases k <;> rfl

theorem slot_setSlot_other (h : j ≠ k) : (s.setSlot k q).slot j = s.slot j := by
  cases k <;> cases j <;> first | rfl | exact absurd rfl h

@[simp] theorem unit_setSlot : (s.setSlot k q).unit u = s.unit u := by cases k <;> cases u <;> rfl

@[simp] theorem par_setSlot : (s.setSlot k q).par = s.par := by cases k <;> rfl

@[simp] theorem rst_setSlot : (s.setSlot k q).rst = s.rst := by cases k <;> rfl

@[simp] theorem moves_setSlot : (s.setSlot k q).moves = s.moves := by cases k <;> rfl

@[simp] theorem turn_setSlot : (s.setSlot k q).turn = s.turn := by cases k <;> rfl

@[simp] theorem prodIn_setSlot : (s.setSlot k q).prodIn = s.prodIn := by cases k <;> rfl

@[simp] theorem consIn_setSlot : (s.setSlot k q).consIn = s.consIn := by cases k <;> rfl

@[simp] theorem port_setSlot : (s.setSlot k q).port = s.port := by cases k <;> rfl

@[simp] theorem prodResp_setSlot : (s.setSlot k q).prodResp = s.prodResp := by cases k <;> rfl

@[simp] theorem consResp_setSlot : (s.setSlot k q).consResp = s.consResp := by cases k <;> rfl

@[simp] theorem events_setSlot : (s.setSlot k q).events = s.events := by cases k <;> rfl

@[simp] theorem draws_setSlot : (s.setSlot k q).draws = s.draws := by cases k <;> rfl

@[simp] theorem mode_setSlot : (s.setSlot k q).mode = s.mode := by cases k <;> rfl

@[simp] theorem cfg_setSlot : (s.setSlot k q).cfg = s.cfg := by cases k <;> rfl

@[simp] theorem rb_setSlot : (s.setSlot k q).rb = s.rb := by cases k <;> rfl

@[simp] theorem flush_setSlot : (s.setSlot k q).flush = s.flush := by cases k <;> rfl

@[simp] theorem hdr_setSlot : (s.setSlot k q).hdr = s.hdr := by cases k <;> rfl

/-! ### emit -/

@[simp] theorem events_emit : (s.emit e).events = s.events ++ [e] := rfl

@[simp] theorem unit_emit : (s.emit e).unit u = s.unit u := by cases u <;> rfl

@[simp] theorem slot_emit : (s.emit e).slot k = s.slot k := by cases k <;> rfl

@[simp] theorem par_emit : (s.emit e).par = s.par := rfl

@[simp] theorem rst_emit : (s.emit e).rst = s.rst := rfl

@[simp] theorem moves_emit : (s.emit e).moves = s.moves := rfl

@[simp] theorem turn_emit : (s.emit e).turn = s.turn := rfl

@[simp] theorem prodIn_emit : (s.emit e).prodIn = s.prodIn := rfl

@[simp] theorem consIn_emit : (s.emit e).consIn = s.consIn := rfl

@[simp] theorem port_emit : (s.emit e).port = s.port := rfl

@[simp] theorem prodResp_emit : (s.emit e).prodResp = s.prodResp := rfl

@[simp] theorem consResp_emit : (s.emit e).consResp = s.consResp := rfl

@[simp] theorem draws_emit : (s.emit e).draws = s.draws := rfl

@[simp] theorem mode_emit : (s.emit e).mode = s.mode := rfl

@[simp] theorem cfg_emit : (s.emit e).cfg = s.cfg := rfl

@[simp] theorem rb_emit : (s.emit e).rb = s.rb := rfl

@[simp] theorem flush_emit : (s.emit e).flush = s.flush := rfl

@[simp] theorem slot1_emit : (s.emit e).slot1 = s.slot1 := rfl

@[simp] theorem slot2_emit : (s.emit e).slot2 = s.slot2 := rfl

@[simp] theorem hdr_emit : (s.emit e).hdr = s.hdr := rfl

/-! ### respondOn -/

@[simp] theorem unit_respondOn : (s.respondOn p w).unit u = s.unit u := by cases p <;> cases u <;> rfl

@[simp] theorem slot_respondOn : (s.respondOn p w).slot k = s.slot k := by cases p <;> cases k <;> rfl

@[simp] theorem par_respondOn : (s.respondOn p w).par = s.par := by cases p <;> rfl

@[simp] theorem rst_respondOn : (s.respondOn p w).rst = s.rst := by cases p <;> rfl

@[simp] theorem moves_respondOn : (s.respondOn p w).moves = s.moves := by cases p <;> rfl

@[simp] theorem turn_respondOn : (s.respondOn p w).turn = s.turn := by cases p <;> rfl

@[simp] theorem prodIn_respondOn : (s.respondOn p w).prodIn = s.prodIn := by cases p <;> rfl

@[simp] theorem consIn_respondOn : (s.respondOn p w).consIn = s.consIn := by cases p <;> rfl

@[simp] theorem port_respondOn : (s.respondOn p w).port = s.port := by cases p <;> rfl

@[simp] theorem events_respondOn : (s.respondOn p w).events = s.events := by cases p <;> rfl

@[simp] theorem draws_respondOn : (s.respondOn p w).draws = s.draws := by cases p <;> rfl

@[simp] theorem mode_respondOn : (s.respondOn p w).mode = s.mode := by cases p <;> rfl

@[simp] theorem cfg_respondOn : (s.respondOn p w).cfg = s.cfg := by cases p <;> rfl

@[simp] theorem rb_respondOn : (s.respondOn p w).rb = s.rb := by cases p <;> rfl

@[simp] theorem flush_respondOn : (s.respondOn p w).flush = s.flush := by cases p <;> rfl

@[simp] theorem slot1_respondOn : (s.respondOn p w).slot1 = s.slot1 := by cases p <;> rfl

@[simp] theorem slot2_respondOn : (s.respondOn p w).slot2 = s.slot2 := by cases p <;> rfl

@[simp] theorem hdr_respondOn : (s.respondOn p w).hdr = s.hdr := by cases p <;> rfl

theorem answer_eq (x : BitVec 24) : s.answer x = s.respondOn s.port (responseWord .ok x) := rfl

theorem fail_eq (c : Status) : s.fail c = s.respondOn s.port (responseWord c 0) := rfl
end

end Sys2Proof.Machine
end

