-- ==== Sys2Proof/Laws/Ops.lean ====
section
/-! SUPPORT. What each shared operation can do, said once: the port check, pointer arithmetic, the unit
operations with their frames, the flush and the port steps. -/

namespace Sys2Proof.Machine

open Sys2Proof

/-! ### Pointer arithmetic -/

theorem capacity_pos (p : Params) : 0 < capacity p := Nat.two_pow_pos _

/-- `(a - b) mod m` for register values, without the remainders. -/
theorem modSub_of_lt {m a b : Nat} (ha : a < m) (hb : b < m) :
    modSub m a b = if b ≤ a then a - b else a + m - b := by
  unfold modSub
  rw [Nat.mod_eq_of_lt ha, Nat.mod_eq_of_lt hb]
  split
  · have h : a + (m - b) = a - b + m := by omega
    rw [h, Nat.add_mod_right, Nat.mod_eq_of_lt (by omega)]
  · have h : a + (m - b) = a + m - b := by omega
    rw [h, Nat.mod_eq_of_lt (by omega)]

theorem modSub_lt {m : Nat} (hm : 0 < m) (a b : Nat) : modSub m a b < m := Nat.mod_lt _ hm

/-- The next pointer of a register value, without the remainder. -/
theorem nextPtr_of_lt {p : Params} {x : Nat} (hx : x < 2 * capacity p) :
    nextPtr p x = if x + 1 = 2 * capacity p then 0 else x + 1 := by
  unfold nextPtr
  split
  · next h => rw [h, Nat.mod_self]
  · next h => exact Nat.mod_eq_of_lt (by omega)

/-! ### The port check and responses -/

theorem onPort_same {p : Port} {s : State} (h : s.port = p) (run : State → State) :
    onPort p s run = .next (run s) := by simp [onPort, h]

theorem onPort_other {p : Port} {s : State} (h : s.port ≠ p) (run : State → State) :
    onPort p s run = .next (s.fail .wrongPort) := by simp [onPort, h]

/-- The port check always answers a next state. -/
theorem onPort_next (p : Port) (s : State) (run : State → State) :
    ∃ t, onPort p s run = .next t := by
  unfold onPort; split <;> exact ⟨_, rfl⟩

/-! ### The parameter set as its constraints -/

/-- What a well-formed parameter set gives the windows: none is empty. -/
theorem winLen_pos {p : Params} (h : paramsOk p = true) (u : UnitId) : 0 < winLen p u := by
  simp only [paramsOk, tdmaOk, proto2Ok, proto3Ok, Bool.and_eq_true, decide_eq_true_eq] at h
  cases u <;> simp only [winLen, Config.wDx] <;> omega

/-- What a well-formed parameter set gives the lock-loss maxima: 1 to 255. -/
theorem maxLost_range {p : Params} (h : paramsOk p = true) {u : UnitId} (hu : u ≠ .is) :
    1 ≤ maxLost p u ∧ maxLost p u ≤ 255 := by
  simp only [paramsOk, maxLostOk, Bool.and_eq_true, decide_eq_true_eq] at h
  cases u <;> simp only [maxLost] <;> first | omega | exact absurd rfl hu

/-! ### The frame of the unit operations: everything outside unit u stays (42_frame_common.md R227) -/

theorem onlyUnit_refl (u : UnitId) (s : State) : OnlyUnit u s s := by
  constructor <;> intros <;> rfl

theorem onlyUnit_trans {u : UnitId} {s t x : State} (h : OnlyUnit u s t) (g : OnlyUnit u t x) :
    OnlyUnit u s x where
  par := g.par.trans h.par
  rst := g.rst.trans h.rst
  moves := g.moves.trans h.moves
  turn := g.turn.trans h.turn
  prodIn := g.prodIn.trans h.prodIn
  consIn := g.consIn.trans h.consIn
  port := g.port.trans h.port
  prodResp := g.prodResp.trans h.prodResp
  consResp := g.consResp.trans h.consResp
  mode := g.mode.trans h.mode
  cfg := g.cfg.trans h.cfg
  rb := g.rb.trans h.rb
  flush := g.flush.trans h.flush
  other v hv := (g.other v hv).trans (h.other v hv)
  slots k hk := (g.slots k hk).trans (h.slots k hk)
  hdr hu := (g.hdr hu).trans (h.hdr hu)

theorem onlyUnit_setUnit (u : UnitId) (s : State) (r : UnitRegs) : OnlyUnit u s (s.setUnit u r) := by
  constructor <;> intros <;> simp_all [unit_setUnit_other]

theorem onlyUnit_emit (u : UnitId) (s : State) (e : Event) : OnlyUnit u s (s.emit e) := by
  constructor <;> intros <;> simp

/-- `reset(u)`: the registers it assigns, and P2's header registers. -/
theorem unit_resetUnit (u : UnitId) (s : State) :
    (resetUnit u s).unit u = (s.unit u).afterReset := by cases u <;> rfl

theorem hdr_resetUnit (u : UnitId) (s : State) :
    (resetUnit u s).hdr = if u = .p2 then .powerOn else s.hdr := by cases u <;> rfl

@[simp] theorem events_resetUnit (u : UnitId) (s : State) : (resetUnit u s).events = s.events := by
  cases u <;> rfl

@[simp] theorem draws_resetUnit (u : UnitId) (s : State) : (resetUnit u s).draws = s.draws := by
  cases u <;> rfl

@[simp] theorem slot_resetUnit (u : UnitId) (s : State) (k : SlotId) :
    (resetUnit u s).slot k = s.slot k := by cases u <;> cases k <;> rfl

theorem onlyUnit_resetUnit (u : UnitId) (s : State) : OnlyUnit u s (resetUnit u s) := by
  constructor
  case other => intro v h; cases u <;> cases v <;> first | rfl | exact absurd rfl h
  case slots => intro k _; exact slot_resetUnit u s k
  case hdr => intro h; rw [hdr_resetUnit, if_neg h]
  all_goals cases u <;> rfl

/-- `lost(u)`: one LOST event, then the reset with LOSS set. -/
theorem events_lostUnit (u : UnitId) (s : State) :
    (lostUnit u s).events = s.events ++ [.lost u] := by cases u <;> rfl

theorem unit_lostUnit (u : UnitId) (s : State) :
    (lostUnit u s).unit u = { (s.unit u).afterReset with loss := true } := by cases u <;> rfl

theorem hdr_lostUnit (u : UnitId) (s : State) :
    (lostUnit u s).hdr = if u = .p2 then .powerOn else s.hdr := by cases u <;> rfl

@[simp] theorem slot_lostUnit (u : UnitId) (s : State) (k : SlotId) :
    (lostUnit u s).slot k = s.slot k := by cases u <;> cases k <;> rfl

@[simp] theorem draws_lostUnit (u : UnitId) (s : State) : (lostUnit u s).draws = s.draws := by
  cases u <;> rfl

theorem onlyUnit_lostUnit (u : UnitId) (s : State) : OnlyUnit u s (lostUnit u s) :=
  onlyUnit_trans (onlyUnit_emit u s _)
    (onlyUnit_trans (onlyUnit_setUnit u _ _) (onlyUnit_resetUnit u _))

section
variable (u : UnitId) (sync voice : Bool) (sub : BitVec 4) (len : Nat) (s : State)

/-- The bytes of the frame an emission appends (42_frame_common.md R219). -/
theorem events_emitFrame :
    (emitFrame u sync voice sub len s).events = s.events ++ [.frame u
      (framePayload s u sync voice sub len ++
        if s.cfg.rssiEn then rssiBytes (Config.rssiDraw s.draws) else [])] := by
  unfold emitFrame; cases h : s.cfg.rssiEn <;> simp [State.emit]

theorem unit_emitFrame :
    (emitFrame u sync voice sub len s).unit u = { s.unit u with loss := false } := by
  unfold emitFrame; cases h : s.cfg.rssiEn <;> cases u <;> rfl

theorem draws_emitFrame :
    (emitFrame u sync voice sub len s).draws = if s.cfg.rssiEn then s.draws + 1 else s.draws := by
  unfold emitFrame; cases h : s.cfg.rssiEn <;> cases u <;> rfl

@[simp] theorem hdr_emitFrame : (emitFrame u sync voice sub len s).hdr = s.hdr := by
  unfold emitFrame; cases h : s.cfg.rssiEn <;> cases u <;> rfl

@[simp] theorem slot_emitFrame (k : SlotId) :
    (emitFrame u sync voice sub len s).slot k = s.slot k := by
  unfold emitFrame; cases h : s.cfg.rssiEn <;> cases u <;> cases k <;> rfl

theorem onlyUnit_emitFrame : OnlyUnit u s (emitFrame u sync voice sub len s) := by
  unfold emitFrame
  cases h : s.cfg.rssiEn
  · exact onlyUnit_trans (onlyUnit_emit u s _) (onlyUnit_setUnit u _ _)
  · refine onlyUnit_trans (t := { s.emit _ with draws := s.draws + 1 }) ?_ (onlyUnit_setUnit u _ _)
    constructor
    case other => intro v _; cases v <;> rfl
    case slots => intro k _; cases k <;> rfl
    case hdr => intro _; rfl
    all_goals rfl
end

theorem onlyUnit_advanceFrame (u : UnitId) (n : Nat) (s : State) :
    OnlyUnit u s (advanceFrame u n s) := onlyUnit_setUnit u s _

/-- `lockloss`: reloaded by a confirmed frame; else decremented, and at 0 the unit is lost. -/
theorem lockLoss_cases (u : UnitId) (confirmed : Bool) (s : State) :
    (confirmed = true ∧ lockLoss u confirmed s =
        .goOn (s.setUnit u { s.unit u with lc := BitVec.ofNat 8 (maxLost s.par u) })) ∨
    (confirmed = false ∧ (s.unit u).lc - 1 ≠ 0 ∧ lockLoss u confirmed s =
        .goOn (s.setUnit u { s.unit u with lc := (s.unit u).lc - 1 })) ∨
    (confirmed = false ∧ (s.unit u).lc - 1 = 0 ∧ lockLoss u confirmed s =
        .skip (lostUnit u (s.setUnit u { s.unit u with lc := (s.unit u).lc - 1 }))) := by
  unfold lockLoss
  cases confirmed
  · by_cases h : (s.unit u).lc - 1 = 0
    · exact .inr (.inr ⟨rfl, h, if_pos h⟩)
    · exact .inr (.inl ⟨rfl, h, if_neg h⟩)
  · exact .inl ⟨rfl, by simp⟩

theorem onlyUnit_lockLoss (u : UnitId) (confirmed : Bool) (s : State) :
    OnlyUnit u s (lockLoss u confirmed s).state := by
  rcases lockLoss_cases u confirmed s with ⟨-, h⟩ | ⟨-, -, h⟩ | ⟨-, -, h⟩ <;> rw [h]
  · exact onlyUnit_setUnit u s _
  · exact onlyUnit_setUnit u s _
  · exact onlyUnit_trans (onlyUnit_setUnit u s _) (onlyUnit_lostUnit u _)

/-! ### Mode activation (48_control.md R398) -/

/-- Activation leaves every unit, its slot timing and P2's header registers at rest. -/
theorem activate_atRest (m : Mode) (s : State) (u : UnitId) : atRest (activate m s) u := by
  refine ⟨?_, ?_, ?_⟩
  · cases u <;> rfl
  · intro k hk
    cases u <;> cases k <;> rfl
  · intro _; rfl

theorem onlyUnit_activateUnit (u : UnitId) (s : State) : OnlyUnit u s (activateUnit s u) := by
  constructor
  case other => intro v h; cases u <;> cases v <;> first | rfl | exact absurd rfl h
  case slots => intro k h; cases u <;> cases k <;> first | rfl | exact absurd rfl h
  case hdr => intro h; cases u <;> first | rfl | exact absurd rfl h
  all_goals cases u <;> rfl

@[simp] theorem events_activateUnit (u : UnitId) (s : State) :
    (activateUnit s u).events = s.events := by cases u <;> rfl

@[simp] theorem draws_activateUnit (u : UnitId) (s : State) :
    (activateUnit s u).draws = s.draws := by cases u <;> rfl

/-- Activation changes nothing but `MODE` and the units' registers. -/
theorem activate_frame (m : Mode) (s : State) :
    (activate m s).par = s.par ∧ (activate m s).cfg = s.cfg ∧ (activate m s).rb = s.rb ∧
      (activate m s).events = s.events ∧ (activate m s).draws = s.draws ∧
      (activate m s).rst = s.rst ∧ (activate m s).flush = s.flush ∧ (activate m s).mode = m := by
  have h (l : List UnitId) : ∀ x : State, (l.foldl activateUnit x).par = x.par ∧
      (l.foldl activateUnit x).cfg = x.cfg ∧ (l.foldl activateUnit x).rb = x.rb ∧
      (l.foldl activateUnit x).events = x.events ∧ (l.foldl activateUnit x).draws = x.draws ∧
      (l.foldl activateUnit x).rst = x.rst ∧ (l.foldl activateUnit x).flush = x.flush := by
    induction l with
    | nil => intro x; exact ⟨rfl, rfl, rfl, rfl, rfl, rfl, rfl⟩
    | cons u l ih =>
      intro x
      have o := onlyUnit_activateUnit u x
      have g := ih (activateUnit x u)
      rw [o.par, o.cfg, o.rb, o.rst, o.flush, events_activateUnit, draws_activateUnit] at g
      exact g
  obtain ⟨h1, h2, h3, h4, h5, h6, h7⟩ := h allUnits s
  unfold activate
  dsimp only
  exact ⟨h1, h2, h3, h4, h5, h6, h7, rfl⟩

/-! ### The flush (40_ring_buffer.md R150) -/

/-- The start of a flush: at once with nothing in view, else a job over what is in view. -/
theorem startFlush_cases (act : Option Mode) (s : State) :
    (occR s = 0 ∧ startFlush act s = finishFlush 0 act s) ∨
    (occR s ≠ 0 ∧ startFlush act s =
      { s with flush := some ⟨occR s, occR s, act⟩, consResp := none }) := by
  unfold startFlush
  by_cases h : occR s = 0
  · exact .inl ⟨h, by simp [h]⟩
  · exact .inr ⟨h, by simp [h]⟩

/-- A flush micro-step: one entry removed; the last one ends the flush. -/
theorem flushStep_cases (job : FlushJob) (s : State) :
    (job.left ≤ 1 ∧
      flushStep job s = finishFlush job.total job.activates { ringPop s with flush := none }) ∨
    (1 < job.left ∧
      flushStep job s = { ringPop s with flush := some { job with left := job.left - 1 } }) := by
  unfold flushStep
  by_cases h : job.left ≤ 1
  · exact .inl ⟨h, by simp [h]⟩
  · exact .inr ⟨by omega, by simp [h]⟩

/-! ### Ring-buffer transfers and synchroniser steps: they touch nothing but the ring buffer -/

theorem ringPush_rb (s : State) (x : Sample) :
    ringPush s x = { s with rb := (ringPush s x).rb } := rfl

theorem ringPop_rb (s : State) :
    ringPop s = { s with rb := { s.rb with
      rptr := nextPtr s.par s.rb.rptr
      rptrG := gray (nextPtr s.par s.rb.rptr) } } := rfl

theorem ringOverflow_rb (s : State) :
    ringOverflow s = { s with rb := { s.rb with
      ovfCnt := s.rb.ovfCnt + 1
      ovfG := grayOvf (s.rb.ovfCnt + 1) } } := rfl

theorem syncW2r_rb (s : State) : syncW2r s = { s with rb := (syncW2r s).rb } := rfl

theorem syncR2w_rb (s : State) : syncR2w s = { s with rb := (syncR2w s).rb } := rfl

theorem syncO2r_rb (s : State) : syncO2r s = { s with rb := (syncO2r s).rb } := rfl

/-! ### The parts of `unit_bit`: each stays in its unit (42_frame_common.md R200, R227) -/

theorem onlyUnit_winWrite (u : UnitId) (s : State) (i : Nat) (b : Bool) :
    OnlyUnit u s (winWrite s u i b) := onlyUnit_setUnit u s _

theorem onlyUnit_takeBit (u : UnitId) (b : Bool) (s : State) : OnlyUnit u s (takeBit u b s) :=
  onlyUnit_trans (onlyUnit_winWrite u s _ b) (onlyUnit_setUnit u _ _)

theorem onlyUnit_setSlot {u : UnitId} {k : SlotId} (h : slotOf u = some k) (s : State)
    (r : SlotRegs) : OnlyUnit u s (s.setSlot k r) := by
  constructor
  case slots => intro j hj; exact slot_setSlot_other s k j r (fun e => hj (e ▸ h))
  all_goals (intros; simp)

theorem onlyUnit_trackSlot (u : UnitId) (tag : Tag) (s : State) :
    OnlyUnit u s (trackSlot u tag s) := by
  unfold trackSlot
  split
  · next k h => exact onlyUnit_setSlot h s _
  · exact onlyUnit_refl u s

theorem onlyUnit_markSync (u : UnitId) (s : State) : OnlyUnit u s (markSync u s) :=
  onlyUnit_setUnit u s _

theorem onlyUnit_onSyncTdma (u : UnitId) (i : Nat) (s : State) :
    OnlyUnit u s (onSyncTdma u i s) :=
  onlyUnit_trans (onlyUnit_markSync u s) (onlyUnit_setUnit u _ _)

theorem onlyUnit_advanceDp (u : UnitId) (s : State) : OnlyUnit u s (advanceDp u s) :=
  onlyUnit_setUnit u s _

/-! ### The reset input (70_reset_and_hazards.md R470) -/

theorem setRst_cases (level : Bool) (s : State) :
    ((level = true ∨ s.rst = true) ∧ setRst level s = { powerOnReset s with rst := level }) ∨
    (level = false ∧ s.rst = false ∧ setRst level s = s) := by
  unfold setRst
  cases level <;> cases h : s.rst <;> simp

/-! ### Commands always answer (60_exceptions.md R433) -/

/-- Every command answers a next state, on either port. -/
theorem exec_next (i : Instr) (s : State) : ∃ t, exec i s = .next t := by
  cases i <;>
    simp only [exec, execNop, execRbPut, execRbPspace, execRbGet, execRbSpace, execRbOcc,
      execRbOvfclr, execRbFlush, execFeed, execDatabit, execCorPeek, execStatRd, execFsmReset,
      execModeSet, execCfgWr, execCfgRd, onPort_next, Host.Outcome.next.injEq, exists_eq']

/-! ### Steps -/

/-- What one step of the machine can be, where it answers a next state. -/
theorem step_cases {s t : State} (h : step s = .next t) :
    paramsOk s.par = true ∧
      ((∃ a rest, s.moves = .agent a :: rest ∧ stepAgent a { s with moves := rest } = .next t) ∨
       (∃ b rest, s.moves = .rst b :: rest ∧ t = setRst b { s with moves := rest }) ∨
       (s.moves = [] ∧ stepAgent s.turn { s with turn := nextTurn s.turn } = .next t)) := by
  unfold step at h
  split at h
  · next hp =>
    refine ⟨hp, ?_⟩
    unfold stepMove at h
    split at h
    · next a rest hm => exact .inl ⟨a, rest, hm, h⟩
    · next b rest hm => exact .inr (.inl ⟨b, rest, hm, by cases h; rfl⟩)
    · next hm => exact .inr (.inr ⟨hm, h⟩)
  · cases h

/-- What a step of an agent can be. -/
theorem stepAgent_cases {a : Agent} {s t : State} (h : stepAgent a s = .next t) :
    (∃ w ws, a = .prod ∧ s.prodIn = w :: ws ∧
      runWord w { s with port := .producer, prodIn := ws } = .next t) ∨
    (a = .prod ∧ s.prodIn = [] ∧ t = { s with port := .producer }) ∨
    (∃ job, a = .cons ∧ s.flush = some job ∧ t = flushStep job { s with port := .consumer }) ∨
    (∃ w ws, a = .cons ∧ s.flush = none ∧ s.consIn = w :: ws ∧
      runWord w { s with port := .consumer, consIn := ws } = .next t) ∨
    (a = .cons ∧ s.flush = none ∧ s.consIn = [] ∧ t = { s with port := .consumer }) ∨
    (a = .syncW2r ∧ t = syncW2r s) ∨ (a = .syncR2w ∧ t = syncR2w s) ∨
    (a = .syncO2r ∧ t = syncO2r s) := by
  cases a
  · simp only [stepAgent, stepProd] at h
    split at h
    · next hp => exact .inr (.inl ⟨rfl, hp, by cases h; rfl⟩)
    · next w ws hp => exact .inl ⟨w, ws, rfl, hp, h⟩
  · simp only [stepAgent, stepCons] at h
    split at h
    · next job hf => exact .inr (.inr (.inl ⟨job, rfl, hf, by cases h; rfl⟩))
    · next hf =>
      split at h
      · next hc => exact .inr (.inr (.inr (.inr (.inl ⟨rfl, hf, hc, by cases h; rfl⟩))))
      · next w ws hc => exact .inr (.inr (.inr (.inl ⟨w, ws, rfl, hf, hc, h⟩)))
  · exact .inr (.inr (.inr (.inr (.inr (.inl ⟨rfl, by cases h; rfl⟩)))))
  · exact .inr (.inr (.inr (.inr (.inr (.inr (.inl ⟨rfl, by cases h; rfl⟩))))))
  · exact .inr (.inr (.inr (.inr (.inr (.inr (.inr ⟨rfl, by cases h; rfl⟩))))))

/-- What a command word can do: nothing in reset, else the command it decodes to, else an error status
and nothing more. -/
theorem runWord_cases {w : Word} {s t : State} (h : runWord w s = .next t) :
    (s.rst = true ∧ t = s) ∨
    (s.rst = false ∧ ∃ i, decode w = .ok i ∧ exec i s = .next t) ∨
    (s.rst = false ∧ ∃ c, c ≠ .ok ∧ t = s.fail c) := by
  unfold runWord at h
  split at h
  · next hr => exact .inl ⟨hr, by cases h; rfl⟩
  · next hr =>
    have hr : s.rst = false := by simpa using hr
    split at h
    · next i hi => exact .inr (.inl ⟨hr, i, hi, h⟩)
    · exact .inr (.inr ⟨hr, .illegalOp, by simp, by cases h; rfl⟩)
    · next op hi =>
      refine .inr (.inr ⟨hr, if legalOn s.port op then .badField else .wrongPort, ?_, by cases h; rfl⟩)
      split <;> simp

end Sys2Proof.Machine
end

