-- ==== Sys2Proof/Laws/Engine.lean ====
section
/-! SUPPORT. What each part of `unit_bit` can do, said once: the shift register, the gate, the header
step, the frame-end step, the correlation (42_frame_common.md R200). -/

namespace Sys2Proof.Machine

open Sys2Proof

/-- The shift register as a number (41_correlator.md R180). -/
theorem toNat_shiftIn (sr : BitVec 64) (b : Bool) :
    (shiftIn sr b).toNat = (2 * sr.toNat + b.toNat) % 2 ^ 64 := by
  have hb : b.toNat < 2 ^ 1 := by cases b <;> decide
  have h : (shiftIn sr b).toNat = 2 * sr.toNat % 2 ^ 64 ||| b.toNat := by
    cases b <;> simp [shiftIn, Nat.shiftLeft_eq, Nat.mul_comm]
  have e : 2 * sr.toNat % 2 ^ 64 = (sr.toNat % 2 ^ 63) <<< 1 := by
    rw [Nat.shiftLeft_eq]; omega
  rw [h, e, ← Nat.shiftLeft_add_eq_or_of_lt hb, Nat.shiftLeft_eq]
  have : b.toNat < 2 := hb
  omega

theorem shiftIn_eq (sr : BitVec 64) (b : Bool) :
    shiftIn sr b = BitVec.ofNat 64 (2 * sr.toNat + b.toNat) :=
  BitVec.eq_of_toNat_eq (by rw [toNat_shiftIn, BitVec.toNat_ofNat])

/-- The gate is the table of 42_frame_common.md R201. -/
theorem gateOpen_iff (u : UnitId) (s : State) : gateOpen u s = true ↔ gateAllows u s := by
  unfold gateOpen gateAllows
  split
  · next h => simp [h]
  · next k h =>
    by_cases hn : (s.unit u).st = .none
    · cases he : (s.slot k).exp <;> simp [h, hn, he, cdist, Config.wDx, Config.acqWin]
    · simp [hn]

/-- Step 4: the header that is due, or nothing. -/
theorem headerStep_cases (u : UnitId) (s : State) :
    (headerDue u s ∧ headerStep u s = headerP2 s) ∨
    (¬ headerDue u s ∧ headerStep u s = .goOn s) := by
  unfold headerStep
  by_cases h : headerDue u s
  · exact .inl ⟨h, if_pos h⟩
  · exact .inr ⟨h, if_neg h⟩

/-- Step 5: the frame end at this bit, or nothing. -/
theorem frameEndStep_cases (u : UnitId) (s : State) :
    ((s.unit u).enp = some (s.unit u).dp ∧ frameEndStep u s = frameEnd u (s.unit u).dp s) ∨
    ((s.unit u).enp ≠ some (s.unit u).dp ∧ frameEndStep u s = .goOn s) := by
  unfold frameEndStep
  by_cases h : (s.unit u).enp = some (s.unit u).dp
  · exact .inl ⟨h, if_pos h⟩
  · exact .inr ⟨h, if_neg h⟩

/-- Step 6: a sync match that the gate allows, or nothing. -/
theorem correlateStep_cases (u : UnitId) (s : State) :
    (∃ i, gateAllows u s ∧ correlate (s.unit u).sr (patterns s.par u)
        (threshold s.par u (s.unit u).st) = some i ∧ correlateStep u s = onSync u i s) ∨
    ((gateAllows u s → correlate (s.unit u).sr (patterns s.par u)
        (threshold s.par u (s.unit u).st) = none) ∧ correlateStep u s = s) := by
  unfold correlateStep
  by_cases h : gateOpen u s = true
  · rw [if_pos h]
    split
    · next i hi => exact .inl ⟨i, (gateOpen_iff u s).mp h, hi, rfl⟩
    · next hi => exact .inr ⟨fun _ => hi, rfl⟩
  · exact .inr ⟨fun g => absurd ((gateOpen_iff u s).mpr g) h, if_neg h⟩

/-- `unit_bit` either drops the bit or takes it through steps 2 to 7. -/
theorem unitBit_cases (u : UnitId) (b : Bool) (tag : Tag) (s : State) :
    (∃ k, slotOf u = some k ∧ (s.slot k).dly < s.cfg.chDelay ∧
      unitBit b tag s u = s.setSlot k { s.slot k with dly := (s.slot k).dly + 1 }) ∨
    ((∀ k, slotOf u = some k → s.cfg.chDelay ≤ (s.slot k).dly) ∧
      unitBit b tag s u = consumeBit u b tag s) := by
  unfold unitBit
  split
  · next k hk =>
    by_cases h : (s.slot k).dly < s.cfg.chDelay
    · exact .inl ⟨k, hk, h, if_pos h⟩
    · refine .inr ⟨fun j hj => ?_, if_neg h⟩
      obtain rfl : k = j := Option.some.inj (hk.symm.trans hj)
      exact BitVec.not_lt.mp h
  · exact .inr ⟨fun j hj => by simp_all, rfl⟩

/-- What steps 2 and 3 leave in the unit's registers. -/
theorem unit_trackSlot_takeBit (u : UnitId) (b : Bool) (tag : Tag) (s : State) :
    (trackSlot u tag (takeBit u b s)).unit u = { s.unit u with
      win := Memory.write unwrittenBit (s.unit u).win ((s.unit u).dp % winLen s.par u) b
      sr := shiftIn (s.unit u).sr b } := by
  have h (x : State) : (trackSlot u tag x).unit u = x.unit u := by
    unfold trackSlot tagTrack; split <;> simp
  simp [h, takeBit, winWrite]

/-- A frame end that does not reset the unit leaves the shift register and the data pointer. -/
theorem lockLoss_goOn {u : UnitId} {confirmed : Bool} {s t : State}
    (h : lockLoss u confirmed s = .goOn t) :
    (t.unit u).sr = (s.unit u).sr ∧ (t.unit u).dp = (s.unit u).dp := by
  rcases lockLoss_cases u confirmed s with ⟨-, e⟩ | ⟨-, -, e⟩ | ⟨-, -, e⟩ <;> rw [e] at h <;>
    cases h <;> simp

theorem emitFrame_keeps (u : UnitId) (sync voice : Bool) (sub : BitVec 4) (len : Nat) (s : State) :
    ((emitFrame u sync voice sub len s).unit u).sr = (s.unit u).sr ∧
      ((emitFrame u sync voice sub len s).unit u).dp = (s.unit u).dp := by
  rw [unit_emitFrame]; exact ⟨rfl, rfl⟩

theorem tdmaPeriodEnd_goOn {u : UnitId} {period : Nat} {confirmed : Bool} {s t : State}
    (h : tdmaPeriodEnd u period confirmed s = .goOn t) :
    (t.unit u).sr = (s.unit u).sr ∧ (t.unit u).dp = (s.unit u).dp := by
  unfold tdmaPeriodEnd at h
  split at h
  · cases h; simp
  · split at h
    · cases h
    · next s' hl =>
      obtain ⟨h1, h2⟩ := lockLoss_goOn hl
      cases h
      simp only [advanceFrame, unit_setUnit_same]
      split <;> simp [emitFrame_keeps, h1, h2]

theorem frameEndTdma_goOn {u : UnitId} {period : Nat} {s t : State}
    (h : frameEndTdma u period s = .goOn t) :
    (t.unit u).sr = (s.unit u).sr ∧ (t.unit u).dp = (s.unit u).dp := by
  unfold frameEndTdma at h
  split at h
  · split at h
    · simpa [emitFrame_keeps] using tdmaPeriodEnd_goOn h
    · split at h
      · unfold tdmaValidationFailure at h; split at h <;> cases h
      · unfold tdmaDataFrame at h
        split at h
        · simpa [emitFrame_keeps] using tdmaPeriodEnd_goOn h
        · split at h <;> simpa [emitFrame_keeps] using tdmaPeriodEnd_goOn h
        · simpa [emitFrame_keeps] using tdmaPeriodEnd_goOn h
        · cases h
        · cases h
  · exact tdmaPeriodEnd_goOn h

theorem frameEndIdle_goOn {s t : State} (h : frameEndIdle s = .goOn t) :
    t.is.sr = s.is.sr ∧ t.is.dp = s.is.dp := by
  have e (x : State) : (x.unit .is).sr = s.is.sr ∧ (x.unit .is).dp = s.is.dp →
      ((x.setUnit .is { x.unit .is with enp := none, sf := false }).unit .is).sr = s.is.sr ∧
      ((x.setUnit .is { x.unit .is with enp := none, sf := false }).unit .is).dp = s.is.dp := id
  unfold frameEndIdle at h
  cases h
  apply e
  split
  · split
    · exact emitFrame_keeps .is _ _ _ _ s
    · exact ⟨rfl, rfl⟩
  · exact ⟨rfl, rfl⟩

/-- The positions of the next P2 frame, and its blind header, are all that `scheduleNextP2` sets. -/
theorem scheduleNextP2_keeps (e : Nat) (s : State) :
    (scheduleNextP2 e s).p2.sr = s.p2.sr ∧ (scheduleNextP2 e s).p2.dp = s.p2.dp := by
  unfold scheduleNextP2
  dsimp only
  split <;> exact ⟨rfl, rfl⟩

theorem frameEndP2_goOn {e : Nat} {s t : State} (h : frameEndP2 e s = .goOn t) :
    t.p2.sr = s.p2.sr ∧ t.p2.dp = s.p2.dp := by
  have k (sync voice : Bool) (sub : BitVec 4) (len : Nat) (x : State) :=
    emitFrame_keeps .p2 sync voice sub len x
  unfold frameEndP2 at h
  dsimp only at h
  split at h
  · cases h
  · split at h
    · cases h
    · next s' hl =>
      cases h
      obtain ⟨h1, h2⟩ := lockLoss_goOn hl
      have h0 (x : State) (hx : (x.unit .p2).sr = s.p2.sr ∧ (x.unit .p2).dp = s.p2.dp) :
          (scheduleNextP2 e x).p2.sr = s.p2.sr ∧ (scheduleNextP2 e x).p2.dp = s.p2.dp :=
        ⟨(scheduleNextP2_keeps e x).1.trans hx.1, (scheduleNextP2_keeps e x).2.trans hx.2⟩
      apply h0
      have hs : (s'.unit .p2).sr = s.p2.sr ∧ (s'.unit .p2).dp = s.p2.dp := by
        rw [h1, h2]
        split
        · exact k _ _ _ _ s
        · exact ⟨rfl, rfl⟩
      split
      · exact ⟨(k _ _ _ _ s').1.trans hs.1, (k _ _ _ _ s').2.trans hs.2⟩
      · exact hs

theorem frameEndP3_goOn {e : Nat} {s t : State} (h : frameEndP3 e s = .goOn t) :
    t.p3.sr = s.p3.sr ∧ t.p3.dp = s.p3.dp := by
  unfold frameEndP3 at h
  dsimp only at h
  split at h
  · cases h
  · next s' hl =>
    obtain ⟨h1, h2⟩ := lockLoss_goOn hl
    have k := emitFrame_keeps .p3 s.p3.sf false 0 s.par.f3 s
    cases h
    exact ⟨h1.trans k.1, h2.trans k.2⟩

theorem frameEnd_goOn {u : UnitId} {e : Nat} {s t : State} (h : frameEnd u e s = .goOn t) :
    (t.unit u).sr = (s.unit u).sr ∧ (t.unit u).dp = (s.unit u).dp := by
  cases u
  · exact frameEndTdma_goOn h
  · exact frameEndTdma_goOn h
  · exact frameEndTdma_goOn h
  · exact frameEndIdle_goOn h
  · exact frameEndP2_goOn h
  · exact frameEndP3_goOn h

/-- A header step that does not reset P2 leaves its shift register and its data pointer. -/
theorem headerP2_goOn {s t : State} (h : headerP2 s = .goOn t) :
    t.p2.sr = s.p2.sr ∧ t.p2.dp = s.p2.dp := by
  unfold headerP2 at h
  dsimp only at h
  split at h
  · split at h <;> cases h
    exact ⟨rfl, rfl⟩
  · cases h; exact ⟨rfl, rfl⟩

end Sys2Proof.Machine
end

