-- ==== Sys2Proof/Laws/Frame.lean ====
section
/-! SUPPORT. What the parts of a frame end can do, said once: the difference modulo m and the count of 1
bits in the library's terms, field vectors, the control byte, the emitted event and the end of a TDMA
frame period (42_frame_common.md, 43_tdma_duplex.md R256). -/

namespace Sys2Proof.Machine

open Sys2Proof

/-- `(a - b) mod m` is the mathematical remainder (00_scope.md R11). -/
theorem modSub_eq_emod {m : Nat} (hm : 0 < m) (a b : Nat) :
    (modSub m a b : Int) = ((a : Int) - b) % m := by
  have hb : b % m ≤ m := (Nat.mod_lt b hm).le
  have ha := Int.mul_ediv_add_emod (a : Int) m
  have hb' := Int.mul_ediv_add_emod (b : Int) m
  have e : (a : Int) % m + (m - b % m) = a - b + m * (1 - a / m + b / m) := by linarith
  unfold modSub
  push_cast [hb]
  rw [e, Int.add_mul_emod_self_left]

/-- `popcount` counts the low bits that are 1 (00_scope.md R12). -/
theorem popcount_eq_countP (n x : Nat) : popcount n x = (List.range n).countP x.testBit := by
  induction n generalizing x with
  | zero => rfl
  | succ n ih =>
    have h : (x.testBit ∘ Nat.succ) = (x / 2).testBit := by
      funext i; simp [Nat.testBit_succ]
    rw [popcount, ih, List.range_succ_eq_map, List.countP_cons, List.countP_map, h, Nat.add_comm]
    rcases Nat.mod_two_eq_zero_or_one x with e | e <;> simp [Nat.testBit_zero, e]

/-- Two 64-bit values agree in as many bits as they have: `SR XOR P` has a 1 where they differ. -/
theorem errCount_eq_countP (sr : BitVec 64) (q : SyncPattern) :
    errCount sr q = (List.range 64).countP fun i =>
      (sr.getLsbD i && decide (i < q.len)) != q.value.getLsbD i := by
  unfold errCount
  rw [popcount_eq_countP, Config.srW]
  apply List.countP_congr
  intro i hi
  have hi : i < 64 := List.mem_range.mp hi
  have hm : (patternMask q.len).getLsbD i = decide (i < q.len) := by
    rw [patternMask, BitVec.getLsbD_ofNat, Nat.testBit_two_pow_sub_one]
    simp [hi]
  rw [BitVec.testBit_toNat, BitVec.getLsbD_xor, BitVec.getLsbD_and, hm]

theorem fieldValue_append (l : List Bool) (b : Bool) :
    fieldValue (l ++ [b]) = 2 * fieldValue l + b.toNat := by simp [fieldValue]

/-- A field vector of n bits is a number below 2^n. -/
theorem fieldValue_lt (l : List Bool) : fieldValue l < 2 ^ l.length := by
  induction l using List.reverseRecOn with
  | nil => decide
  | append_singleton l b ih =>
    have hb : b.toNat < 2 := by cases b <;> decide
    rw [fieldValue_append, List.length_append, List.length_singleton, Nat.pow_succ]
    omega

/-- Bit n - 1 - k of a field vector is its k-th bit in order of reception (20_memory.md R85). -/
theorem testBit_fieldValue {l : List Bool} {k : Nat} {b : Bool} (h : l[k]? = some b) :
    (fieldValue l).testBit (l.length - 1 - k) = b := by
  induction l using List.reverseRecOn with
  | nil => simp at h
  | append_singleton l c ih =>
    rw [fieldValue_append, List.length_append, List.length_singleton, Nat.add_sub_cancel]
    rcases Nat.lt_trichotomy k l.length with hk | hk | hk
    · rw [List.getElem?_append_left hk] at h
      have e : l.length - k = l.length - 1 - k + 1 := by omega
      have hc : (2 * fieldValue l + c.toNat) / 2 = fieldValue l := by
        cases c <;> simp; omega
      rw [e, Nat.testBit_succ, hc, ih h]
    · subst hk
      have h : c = b := by simpa using h
      cases c <;> simp [← h, Nat.testBit_zero]
    · rw [List.getElem?_eq_none (by simp; omega)] at h
      cases h

/-- The control byte as a number (42_frame_common.md R222). -/
theorem toNat_controlByte (rssi sync voice loss : Bool) (sub : BitVec 4) :
    (controlByte rssi sync voice loss sub).toNat =
      128 * rssi.toNat + 64 * sync.toNat + 32 * voice.toNat + 16 * loss.toNat + sub.toNat := by
  revert sub
  cases rssi <;> cases sync <;> cases voice <;> cases loss <;> decide

/-- The event of an emission (42_frame_common.md R219). -/
theorem events_emitFrame_eq (u : UnitId) (sync voice : Bool) (sub : BitVec 4) (len : Nat) (s : State) :
    (emitFrame u sync voice sub len s).events = s.events ++ [frameEvent s u sync voice sub len] :=
  events_emitFrame u sync voice sub len s

/-- The bytes of a frame depend on the parameters, RSSI_EN, the next draw, and the unit's window, start
position and LOSS alone. -/
theorem frameEvent_congr {s t : State} {u : UnitId} (hp : t.par = s.par) (hc : t.cfg = s.cfg)
    (hd : t.draws = s.draws) (hw : (t.unit u).win = (s.unit u).win)
    (hs : (t.unit u).stp = (s.unit u).stp) (hl : (t.unit u).loss = (s.unit u).loss)
    (sync voice : Bool) (sub : BitVec 4) (len : Nat) :
    frameEvent t u sync voice sub len = frameEvent s u sync voice sub len := by
  have hb : frameBit t u = frameBit s u := by
    funext j; unfold frameBit winRead; rw [hp, hw, hs]
  unfold frameEvent framePayload packFrame
  rw [hb, hc, hd, hl]

/-- The end of a frame period of a TDMA unit: a unit in NONE drops the frame position; a missed period
that brings the counter to 0 is LOST; any other counts, emits a continuation in VOICE without a sync,
and moves the positions one period on (43_tdma_duplex.md R256). -/
theorem tdmaPeriodEnd_cases (u : UnitId) (period : Nat) (confirmed : Bool) (s : State) :
    ((s.unit u).st = .none ∧ tdmaPeriodEnd u period confirmed s =
      .goOn (s.setUnit u { s.unit u with enp := none, sf := false })) ∨
    ((s.unit u).st ≠ .none ∧ confirmed = false ∧ (s.unit u).lc - 1 = 0 ∧
      tdmaPeriodEnd u period confirmed s =
        .skip (lostUnit u (s.setUnit u { s.unit u with lc := (s.unit u).lc - 1 }))) ∨
    ((s.unit u).st ≠ .none ∧ (confirmed = true ∨ (s.unit u).lc - 1 ≠ 0) ∧
      ∃ t, tdmaPeriodEnd u period confirmed s = .goOn t ∧
        t.unit u = { s.unit u with
          syp := ((s.unit u).syp + period) % winLen s.par u
          stp := ((s.unit u).stp + period) % winLen s.par u
          enp := (s.unit u).enp.map fun e => (e + period) % winLen s.par u
          lc := if confirmed then BitVec.ofNat 8 (maxLost s.par u) else (s.unit u).lc - 1
          sf := false
          loss := (s.unit u).loss && !((s.unit u).st == .voice && !(s.unit u).sf)
          seq := if (s.unit u).st == .voice && !(s.unit u).sf then
              BitVec.ofNat 3 ((s.unit u).seq.toNat % 5 + 1)
            else (s.unit u).seq } ∧
        t.events = s.events ++ if (s.unit u).st == .voice && !(s.unit u).sf then
          [frameEvent s u false true
            ((BitVec.ofNat 3 ((s.unit u).seq.toNat % 5 + 1)).setWidth 4) s.par.fT] else []) := by
  by_cases hn : (s.unit u).st = .none
  · exact .inl ⟨hn, by simp [tdmaPeriodEnd, hn]⟩
  · right
    have key : ∀ c : BitVec 8,
        lockLoss u confirmed s = .goOn (s.setUnit u { s.unit u with lc := c }) →
        ∃ t, tdmaPeriodEnd u period confirmed s = .goOn t ∧
          t.unit u = { s.unit u with
            syp := ((s.unit u).syp + period) % winLen s.par u
            stp := ((s.unit u).stp + period) % winLen s.par u
            enp := (s.unit u).enp.map fun e => (e + period) % winLen s.par u
            lc := c
            sf := false
            loss := (s.unit u).loss && !((s.unit u).st == .voice && !(s.unit u).sf)
            seq := if (s.unit u).st == .voice && !(s.unit u).sf then
                BitVec.ofNat 3 ((s.unit u).seq.toNat % 5 + 1)
              else (s.unit u).seq } ∧
          t.events = s.events ++ if (s.unit u).st == .voice && !(s.unit u).sf then
            [frameEvent s u false true
              ((BitVec.ofNat 3 ((s.unit u).seq.toNat % 5 + 1)).setWidth 4) s.par.fT] else [] := by
      intro c hc
      unfold tdmaPeriodEnd
      rw [if_neg hn, hc]
      refine ⟨_, rfl, ?_, ?_⟩
      · by_cases hv : (s.unit u).st = .voice <;> cases hf : (s.unit u).sf <;>
          simp [advanceFrame, hv, hf, unit_emitFrame, (onlyUnit_emitFrame _ _ _ _ _ _).par]
      · by_cases hv : (s.unit u).st = .voice <;> cases hf : (s.unit u).sf <;>
          simp [advanceFrame, hv, hf, events_emitFrame_eq]
        apply frameEvent_congr <;> simp
    rcases lockLoss_cases u confirmed s with ⟨h, e⟩ | ⟨h, hl, e⟩ | ⟨h, hl, e⟩
    · exact .inr ⟨hn, .inl h, by simpa [h] using key _ e⟩
    · exact .inr ⟨hn, .inr hl, by simpa [h] using key _ e⟩
    · exact .inl ⟨hn, h, hl, by unfold tdmaPeriodEnd; rw [if_neg hn, e]⟩

end Sys2Proof.Machine
end

