-- ==== Sys2Proof/Laws/PerInstr.lean ====
section
/-! SUPPORT. What holds of every command, one lemma per constructor of Instr: the OP byte of its word
is the one 30_encoding.md R117 assigns to it, and names no other command. -/

namespace Sys2Proof.Laws

open Sys2Proof

/-- The OP byte of the word of `i` is its opcode's, and stands for that opcode alone
(30_encoding.md R111, R117). -/
def OpByte.Statement (i : Instr) : Prop :=
  opField (encode i) = i.opcode.code ∧ Opcode.ofByte? (opField (encode i)) = some i.opcode

/-- The upper byte of a byte put before 24 operand bits. -/
theorem opField_append (op : BitVec 8) (x : BitVec 24) : opField (op ++ x) = op := by
  apply BitVec.eq_of_toNat_eq
  simp only [opField, BitVec.extractLsb'_toNat, BitVec.toNat_append]
  rw [← Nat.shiftLeft_add_eq_or_of_lt x.isLt]
  have := op.isLt
  have := x.isLt
  simp only [Nat.shiftLeft_eq, Nat.shiftRight_eq_div_pow]
  omega

/-- Each opcode's byte stands for that opcode (30_encoding.md R117). -/
theorem ofByte_code (op : Opcode) : Opcode.ofByte? op.code = some op := by cases op <;> decide

theorem opByte (i : Instr) : OpByte.Statement i := by
  have h : opField (encode i) = i.opcode.code := opField_append _ _
  exact ⟨h, h ▸ ofByte_code _⟩

theorem OpByte.nop (hint : BitVec 24) : OpByte.Statement (.nop hint) := opByte _
theorem OpByte.rbPut (bit : Bool) (tag : Tag) : OpByte.Statement (.rbPut bit tag) := opByte _
theorem OpByte.rbPspace : OpByte.Statement .rbPspace := opByte _
theorem OpByte.rbGet : OpByte.Statement .rbGet := opByte _
theorem OpByte.rbSpace : OpByte.Statement .rbSpace := opByte _
theorem OpByte.rbOcc : OpByte.Statement .rbOcc := opByte _
theorem OpByte.rbOvfclr : OpByte.Statement .rbOvfclr := opByte _
theorem OpByte.rbFlush : OpByte.Statement .rbFlush := opByte _
theorem OpByte.feed : OpByte.Statement .feed := opByte _
theorem OpByte.databit (bit : Bool) (tag : Tag) : OpByte.Statement (.databit bit tag) := opByte _
theorem OpByte.corPeek (unit idx : BitVec 4) : OpByte.Statement (.corPeek unit idx) := opByte _
theorem OpByte.statRd (unit : BitVec 4) : OpByte.Statement (.statRd unit) := opByte _
theorem OpByte.fsmReset (unit : BitVec 4) : OpByte.Statement (.fsmReset unit) := opByte _
theorem OpByte.modeSet (mode : BitVec 3) : OpByte.Statement (.modeSet mode) := opByte _
theorem OpByte.cfgWr (reg : BitVec 8) (value : BitVec 16) : OpByte.Statement (.cfgWr reg value) :=
  opByte _
theorem OpByte.cfgRd (reg : BitVec 8) : OpByte.Statement (.cfgRd reg) := opByte _

end Sys2Proof.Laws
end

