-- ==== Sys2Proof/Machine/Asm.lean ====
section
/-! DEFINITION. The assembler: one command or pseudo-instruction per line, to commands
(30_encoding.md R129, R130). A line is a list of characters. What R129 does not settle (the places
where spaces may stand, the case of letters, whether n may be 0) is DESIGN CHOICE, note 9. -/

namespace Sys2Proof.Machine

open Sys2Proof

/-- The value of a digit character in any base up to 16. -/
def digitOf (c : Char) : Option Nat :=
  if '0' ≤ c ∧ c ≤ '9' then some (c.toNat - 48)
  else if 'a' ≤ c ∧ c ≤ 'f' then some (c.toNat - 87)
  else if 'A' ≤ c ∧ c ≤ 'F' then some (c.toNat - 55)
  else none

/-- The value of digits in base `b`, `v` being the value of the digits already read. -/
def digitsValue (b : Nat) : List Char → Nat → Option Nat
  | [], v => some v
  | c :: cs, v =>
    match digitOf c with
    | none => none
    | some d => if d < b then digitsValue b cs (v * b + d) else none

/-- A number in decimal, `0x` hexadecimal or `0b` binary (R129). -/
def parseNumber (cs : List Char) : Option Nat :=
  match cs with
  | [] => none
  | ['0', 'x'] => none
  | ['0', 'b'] => none
  | '0' :: 'x' :: ds => digitsValue 16 ds 0
  | '0' :: 'b' :: ds => digitsValue 2 ds 0
  | ds => digitsValue 10 ds 0

/-- A number below `bound`. -/
def numberBelow (bound : Nat) (cs : List Char) : Option Nat :=
  match parseNumber cs with
  | none => none
  | some n => if n < bound then some n else none

/-- A name of `names`, or a number below `bound`. -/
def nameOrNumber (names : List (List Char × Nat)) (bound : Nat) (cs : List Char) : Option Nat :=
  match names.lookup cs with
  | some n => some n
  | none => numberBelow bound cs

/-- The unit names (R129). -/
def unitNames : List (List Char × Nat) :=
  [(['d', 'x', '1'], 0), (['d', 'x', '2'], 1), (['s', 'x'], 2), (['i', 's'], 3), (['p', '2'], 4),
   (['p', '3'], 5)]

/-- The mode names (R129). -/
def modeNames : List (List Char × Nat) :=
  [(['i', 'd', 'l', 'e'], 0), (['d', 'x'], 1), (['s', 'x'], 2), (['i', 's'], 3), (['p', '2'], 4),
   (['p', '3'], 5)]

/-- The configuration register names (R129). -/
def regNames : List (List Char × Nat) :=
  [(['c', 'c'], 0), (['n', 'i', 'd'], 1), (['n', 'i', 'd', 'w', 'i', 'l', 'd'], 2),
   (['e', 'n', 'a', 'b', 'l', 'e', 's'], 3), (['c', 'h', 'd', 'e', 'l', 'a', 'y'], 4),
   (['r', 's', 's', 'i', 'e', 'n'], 5), (['m', 'o', 'd', 'e'], 6)]

/-- Leading spaces left out. -/
def skipSpaces : List Char → List Char
  | ' ' :: cs => skipSpaces cs
  | cs => cs

/-- Leading and trailing spaces left out. -/
def trim (cs : List Char) : List Char := (skipSpaces (skipSpaces cs).reverse).reverse

/-- The parts of a text between commas, each trimmed. -/
def splitCommas (cs : List Char) : List (List Char) :=
  (cs.splitOn ',').map trim

/-- A bit operand: 0 or 1. -/
def bitOperand (cs : List Char) : Option Bool := (numberBelow 2 cs).map fun n => n == 1

/-- A tag operand: 0..255, and 0 where it is left out (R130). -/
def tagOperand (ops : List (List Char)) : Option Tag :=
  match ops with
  | [] => some 0
  | [t] => (numberBelow 256 t).map (BitVec.ofNat 8)
  | _ => none

/-- The bits of a bit string; spaces and underscores between them are ignored (R130). That
a string of no bits is legal, and stands for no command, is DESIGN CHOICE (note 9). -/
def bitString : List Char → Option (List Bool)
  | [] => some []
  | ' ' :: cs => bitString cs
  | '_' :: cs => bitString cs
  | '0' :: cs => (bitString cs).map (false :: ·)
  | '1' :: cs => (bitString cs).map (true :: ·)
  | _ => none

/-- A command carrying a sample: `put` or `databit`, with the tag left out as 0 (R129, R130). -/
def sampleCommand (mk : Bool → Tag → Instr) (ops : List (List Char)) : Option (List Instr) :=
  match ops with
  | b :: rest =>
    match bitOperand b, tagOperand rest with
    | some bit, some tag => some [mk bit tag]
    | _, _ => none
  | [] => none

/-- `putbits` or `bits`: one command per bit, in order, with one tag (R130). -/
def bitsCommand (mk : Bool → Tag → Instr) (ops : List (List Char)) : Option (List Instr) :=
  match ops with
  | b :: rest =>
    match bitString b, tagOperand rest with
    | some bits, some tag => some (bits.map fun bit => mk bit tag)
    | _, _ => none
  | [] => none

/-- A command with no operand. -/
def plainCommand (i : Instr) (ops : List (List Char)) : Option (List Instr) :=
  match ops with
  | [] => some [i]
  | _ => none

/-- A command whose one operand is a name or a number below `bound`. -/
def oneOperand (names : List (List Char × Nat)) (bound : Nat) (mk : Nat → List Instr)
    (ops : List (List Char)) : Option (List Instr) :=
  match ops with
  | [x] => (nameOrNumber names bound x).map mk
  | _ => none

/-- A command with two operands, names or numbers below a bound. -/
def twoOperands (names : List (List Char × Nat)) (bound bound' : Nat)
    (mk : Nat → Nat → List Instr) (ops : List (List Char)) : Option (List Instr) :=
  match ops with
  | [x, y] =>
    match nameOrNumber names bound x, numberBelow bound' y with
    | some a, some b => some (mk a b)
    | _, _ => none
  | _ => none

/-- The expansion of `activate <m>`, m = 1..5: enable mode m, then switch to it (R130). -/
def activateExpansion (m : Nat) : List Instr :=
  if m = 0 then [] else [.cfgWr 3 (BitVec.ofNat 16 (2 ^ (m - 1))), .modeSet (BitVec.ofNat 3 m)]

/-- The commands of a mnemonic with its operands (R129), or the expansion of a pseudo-instruction
(R130); none for a line that is neither. That `feedn 0` is legal, and stands for no command, is DESIGN
CHOICE (note 9). -/
def assembleParts (name : List Char) (ops : List (List Char)) : Option (List Instr) :=
  match name with
  | ['n', 'o', 'p'] => plainCommand (.nop 0) ops
  | ['p', 'u', 't'] => sampleCommand .rbPut ops
  | ['p', 's', 'p', 'a', 'c', 'e'] => plainCommand .rbPspace ops
  | ['g', 'e', 't'] => plainCommand .rbGet ops
  | ['s', 'p', 'a', 'c', 'e'] => plainCommand .rbSpace ops
  | ['o', 'c', 'c'] => plainCommand .rbOcc ops
  | ['o', 'v', 'f', 'c', 'l', 'r'] => plainCommand .rbOvfclr ops
  | ['f', 'l', 'u', 's', 'h'] => plainCommand .rbFlush ops
  | ['f', 'e', 'e', 'd'] => plainCommand .feed ops
  | ['d', 'a', 't', 'a', 'b', 'i', 't'] => sampleCommand .databit ops
  | ['c', 'o', 'r', 'p', 'e', 'e', 'k'] =>
    twoOperands unitNames 6 16
      (fun u i => [.corPeek (BitVec.ofNat 4 u) (BitVec.ofNat 4 i)]) ops
  | ['s', 't', 'a', 't', 'r', 'd'] =>
    oneOperand unitNames 6 (fun u => [.statRd (BitVec.ofNat 4 u)]) ops
  | ['f', 's', 'm', 'r', 'e', 's', 'e', 't'] =>
    oneOperand unitNames 6 (fun u => [.fsmReset (BitVec.ofNat 4 u)]) ops
  | ['m', 'o', 'd', 'e'] => oneOperand modeNames 6 (fun m => [.modeSet (BitVec.ofNat 3 m)]) ops
  | ['c', 'f', 'g', 'w', 'r'] =>
    twoOperands regNames 256 65536
      (fun r v => [.cfgWr (BitVec.ofNat 8 r) (BitVec.ofNat 16 v)]) ops
  | ['c', 'f', 'g', 'r', 'd'] =>
    oneOperand regNames 256 (fun r => [.cfgRd (BitVec.ofNat 8 r)]) ops
  | ['p', 'u', 't', 'b', 'i', 't', 's'] => bitsCommand .rbPut ops
  | ['b', 'i', 't', 's'] => bitsCommand .databit ops
  | ['f', 'e', 'e', 'd', 'n'] =>
    match ops with
    | [n] => (parseNumber n).map fun n => List.replicate n .feed
    | _ => none
  | ['a', 'c', 't', 'i', 'v', 'a', 't', 'e'] =>
    match ops with
    | [m] =>
      match numberBelow 6 m with
      | some 0 => none
      | some n => some (activateExpansion n)
      | none => none
    | _ => none
  | _ => none

/-- The commands a line of assembler text stands for (R129, R130): the mnemonic up to the first space,
then operands separated by commas. -/
def assemble (line : List Char) : Option (List Instr) :=
  let text := trim line
  let rest := trim (text.dropWhile fun c => c ≠ ' ')
  assembleParts (text.takeWhile fun c => c ≠ ' ') (if rest.isEmpty then [] else splitCommas rest)

end Sys2Proof.Machine
end

