-- ==== Sys2Proof/Tests/Slice0.lean ====
section
/-! SUPPORT. Tests: ill-formed commands refused, the decoding of words written out from the encodings of
30_encoding.md, one or two single steps per command with results worked out in the spec, and for
every statement with hypotheses a concrete state that meets them (witness_<statement>). -/

namespace Sys2Proof.Tests

open Sys2Proof Sys2Proof.Machine

/-! ### Ill-formed operands (30_encoding.md R119, row BAD_FIELD) -/

theorem test_wf_corPeek : (Instr.corPeek 6 0).wellFormed = false := by decide
theorem test_wf_statRd : (Instr.statRd 6).wellFormed = false := by decide
theorem test_wf_fsmReset : (Instr.fsmReset 15).wellFormed = false := by decide
theorem test_wf_modeSet : (Instr.modeSet 6).wellFormed = false := by decide
theorem test_wf_cfgWr : (Instr.cfgWr 0x06 0).wellFormed = false := by decide
theorem test_wf_cfgRd : (Instr.cfgRd 0x07).wellFormed = false := by decide

/-! ### Words written out bit by bit: OP[31:24], then the fields of the format (R111 to R117) -/

theorem test_decode_nop :
    decode 0b00000000_101010111100110111101111 = .ok (.nop 0xABCDEF) := by decide
theorem test_decode_rbPut :
    decode 0b00000001_00000000_00000010_0000000_1 = .ok (.rbPut true 0x02) := by decide
theorem test_decode_rbPspace : decode 0b00000010_000000000000000000000000 = .ok .rbPspace := by decide
theorem test_decode_rbGet : decode 0b00010000_000000000000000000000000 = .ok .rbGet := by decide
theorem test_decode_rbSpace : decode 0b00010001_000000000000000000000000 = .ok .rbSpace := by decide
theorem test_decode_rbOcc : decode 0b00010010_000000000000000000000000 = .ok .rbOcc := by decide
theorem test_decode_rbOvfclr : decode 0b00010011_000000000000000000000000 = .ok .rbOvfclr := by decide
theorem test_decode_rbFlush : decode 0b00010100_000000000000000000000000 = .ok .rbFlush := by decide
theorem test_decode_feed : decode 0b00100000_000000000000000000000000 = .ok .feed := by decide
theorem test_decode_databit :
    decode 0b00100001_00000000_00000010_0000000_1 = .ok (.databit true 0x02) := by decide
theorem test_decode_corPeek :
    decode 0b00110000_0001_0011_0000000000000000 = .ok (.corPeek 1 3) := by decide
theorem test_decode_statRd :
    decode 0b00110001_0100_00000000000000000000 = .ok (.statRd 4) := by decide
theorem test_decode_fsmReset :
    decode 0b01000000_0101_00000000000000000000 = .ok (.fsmReset 5) := by decide
theorem test_decode_modeSet :
    decode 0b01000001_000000000000000000000_101 = .ok (.modeSet 5) := by decide
theorem test_decode_cfgWr :
    decode 0b01010000_00000011_0000000000010000 = .ok (.cfgWr 3 0x10) := by decide
theorem test_decode_cfgRd :
    decode 0b01010001_00000110_0000000000000000 = .ok (.cfgRd 6) := by decide
/-- A reserved bit set (R124) and an OP that is not in the table (R122). -/
theorem test_decode_reserved : decode 0x01010000 = .error (.reservedField .rbPut) := by decide
theorem test_decode_illegal : decode 0x03000000 = .error .illegalOp := by decide

/-! ### Small states -/

/-- L = 4 with the four pointers WPTR, RPTR_V, RPTR, WPTR_V as given. -/
def ringAt (w rv r wv : Nat) (mem : Memory Sample := []) : State :=
  { State.reset with
    rb := { RingRegs.powerOn with
      mem := mem, wptr := w, wptrG := gray w, rptr := r, rptrG := gray r, wptrV := wv,
      rptrV := rv } }

/-- The running command is on the producer port. -/
def onProd (s : State) : State := { s with port := .producer }

/-- The state after an outcome, the given state where there is none. -/
def after (s : State) (o : Host.Outcome State Fault Refusal) : State :=
  match o with
  | .next t => t
  | _ => s

/-- The result word of a command on the port of `s`. -/
def result (i : Instr) (s : State) : Option Word := portResponse (after s (exec i s)) s.port

/-! ### Single steps; the expected values are those of the examples of the rules named -/

/-- R127: the word 0x00ABCDEF returns 0x00000000. -/
theorem test_nop : result (.nop 0xABCDEF) State.reset = some 0 := by decide
/-- R144, example: entry 3 written, WPTR 4, WPTR_G 0b110, response 0. -/
theorem test_rbPut : (after (ringAt 3 0 0 0) (exec (.rbPut true 2) (onProd (ringAt 3 0 0 0)))).rb =
    { RingRegs.powerOn with mem := [(3, ⟨true, 2⟩)], wptr := 4, wptrG := 0b110 } := by decide
/-- R144, FULL: a put into a full buffer keeps the samples and counts in OVF_CNT. -/
theorem test_rbPut_full :
    (after (ringAt 4 0 0 4) (exec (.rbPut true 2) (onProd (ringAt 4 0 0 4)))).rb =
      { (ringAt 4 0 0 4).rb with ovfCnt := 1, ovfG := 1 } := by decide
/-- R145, example: L = 4, WPTR = 5, RPTR_V = 2 gives 1. -/
theorem test_rbPspace : result .rbPspace (onProd (ringAt 5 2 2 5)) = some 1 := by decide
/-- R146, example: response 0x00010201 and RPTR 4. -/
theorem test_rbGet : result .rbGet (ringAt 4 3 3 4 [(3, ⟨true, 2⟩)]) = some 0x00010201 := by decide
theorem test_rbGet_rptr :
    (after State.reset (exec .rbGet (ringAt 4 3 3 4))).rb.rptr = 4 := by decide
/-- R147, example: WPTR_V = 6, RPTR = 3 gives 1. -/
theorem test_rbSpace : result .rbSpace (ringAt 6 3 3 6) = some 1 := by decide
/-- R148, example: WPTR_V = 1, RPTR = 7 gives 2. -/
theorem test_rbOcc : result .rbOcc (ringAt 1 7 7 1) = some 2 := by decide

/-- OVF_V = 3 and OVF_ACK = 1 (R149, example). -/
def overflowed : State :=
  { State.reset with rb := { RingRegs.powerOn with ovfV := 3, ovfAck := 1 } }

/-- R149, example: result 1, OVF_ACK becomes 3, and at once again 0. -/
theorem test_rbOvfclr : result .rbOvfclr overflowed = some 1 := by decide
theorem test_rbOvfclr_again :
    result .rbOvfclr (after overflowed (exec .rbOvfclr overflowed)) = some 0 := by decide
/-- R150, example: WPTR_V = 6 and RPTR = 3 fix k = 3. -/
theorem test_rbFlush : (after State.reset (exec .rbFlush (ringAt 6 3 3 6))).flush =
    some ⟨3, 3, none⟩ := by decide
/-- R150: with nothing in view the flush answers 0 at once. -/
theorem test_rbFlush_empty : result .rbFlush (ringAt 6 3 6 6) = some 0 := by decide
/-- R391, example: MODE = P3, one sample with bit 1 and tag 0 in view, result 0x030001. -/
theorem test_feed :
    result .feed { ringAt 1 0 0 1 [(0, ⟨true, 0⟩)] with mode := .p3 } = some 0x00030001 := by decide
/-- R391: in IDLE the sample is consumed, with bit 17 of the result 0. -/
theorem test_feed_idle : result .feed (ringAt 1 0 0 1 [(0, ⟨true, 0⟩)]) = some 0x00010001 := by decide
/-- R393, example: in mode DX the result is 0x030201; R390: both units take the bit. -/
theorem test_databit : result (.databit true 2) { State.reset with mode := .dx } =
    some 0x00030201 := by decide
theorem test_databit_units :
    let t := after State.reset (exec (.databit true 2) { State.reset with mode := .dx })
    (t.dx1.dp, t.dx2.dp, t.sx.dp) = (1, 1, 0) := by decide

/-- PAT[0] = (DATA, 8, 0xB2), SR low byte 0xB3, state NONE, T_ACQ = 1 (R188, example). -/
def peekState : State :=
  { State.reset with
    par := { sampleParams with patP2 := [⟨.data, 8, 0xB2⟩], tAcqP2 := 1 },
    p2 := { UnitRegs.powerOn with sr := 0x5B3 } }

/-- R188, example: result 0x000101; an index that is no pattern's is BAD_FIELD. -/
theorem test_corPeek : result (.corPeek 4 0) peekState = some 0x00000101 := by decide
theorem test_corPeek_idx : result (.corPeek 4 1) peekState = some 0x03000000 := by decide

/-- P3 after the first frame of R375 with MAX_LOST_P3 = 3 (R401, example). -/
def lockedP3 : State :=
  { State.reset with mode := .p3, p3 := { UnitRegs.powerOn with st := .data, enp := some 20, lc := 3 } }

/-- R401, example: result 0x010307; UNIT 6 is BAD_FIELD. -/
theorem test_statRd : result (.statRd 5) lockedP3 = some 0x00010307 := by decide
theorem test_statRd_unit : result (.statRd 6) lockedP3 = some 0x03000000 := by decide
/-- R394: the unit is reset, without an event. -/
theorem test_fsmReset :
    let t := after State.reset (exec (.fsmReset 5) lockedP3)
    (t.p3.st, t.p3.enp, t.events) = (.none, none, []) := by decide
/-- R395, example: ENABLES = 0x10 and three samples in view, a flush of 3 that activates P3. -/
theorem test_modeSet :
    (after State.reset (exec (.modeSet 5)
      { ringAt 6 3 3 6 with cfg := { CfgRegs.powerOn with enables := 0x10 } })).flush =
    some ⟨3, 3, some .p3⟩ := by decide
/-- R395: a mode that is not enabled is DISABLED. -/
theorem test_modeSet_disabled : result (.modeSet 5) State.reset = some 0x04000000 := by decide
/-- R399, example: `cfgwr cc,0x1F` stores CC = 0xF; the read-only MODE register is BAD_FIELD. -/
theorem test_cfgWr : (after State.reset (exec (.cfgWr 0 0x1F) State.reset)).cfg.cc = 0xF := by decide
theorem test_cfgWr_mode : result (.cfgWr 6 1) State.reset = some 0x03000000 := by decide
/-- R400, example: it reads back 0x00000F; register 0x06 reads MODE. -/
theorem test_cfgRd : result (.cfgRd 0) { State.reset with cfg := { CfgRegs.powerOn with cc := 0xF } } =
    some 0x0F := by decide
theorem test_cfgRd_mode : result (.cfgRd 6) lockedP3 = some 5 := by decide
/-- The assembler of R129: the line `put 1, 0x02` is RB_PUT. -/
theorem test_assemble : assemble "put 1, 0x02".toList = some [.rbPut true 2] := by decide

/-! ### Witnesses: for every statement with hypotheses, states and operands that meet them -/

/-- A check over the six units, made on the list of units. -/
theorem forall_unit {p : UnitId → Prop} [DecidablePred p]
    (h : (allUnits.all fun u => decide (p u)) = true) : ∀ u, p u := by
  intro u
  have h := List.all_eq_true.mp h u (by cases u <;> decide)
  exact of_decide_eq_true h

/-- The storage of a state is canonical if its lists are. -/
theorem canonical_of {s : State} (h1 : Memory.wf Sample.unwritten s.rb.mem = true)
    (h2 : Memory.below (capacity s.par) s.rb.mem = true)
    (h3 : (allUnits.all fun u => decide (Memory.wf unwrittenBit (s.unit u).win = true ∧
      Memory.below (winLen s.par u) (s.unit u).win = true)) = true) : storageCanonical s :=
  ⟨h1, h2, forall_unit h3⟩

/-- The ring-buffer invariant of a state with no flush in progress. -/
theorem ring_of {s : State} (h1 : pointersInRange s) (h2 : grayInStep s) (h3 : pointersInOrder s)
    (h4 : s.flush = none) : ringInvariant s :=
  ⟨h1, h2, h3, fun job h => by rw [h4] at h; cases h⟩

theorem params_ok : paramsOk sampleParams = true := by decide

/-- The sample parameters meet every constraint, and AW = 24 breaks one. -/
theorem constraints_sample : ParameterConstraints sampleParams where
  aw := by decide
  patterns := by
    have h (l : List SyncPattern) (n : Nat) (h1 : 1 ≤ l.length ∧ l.length ≤ 16)
        (h2 : 1 ≤ n ∧ n ≤ 64) (h3 : ∀ q ∈ l, q.len = n ∧ q.value.toNat < 2 ^ n) :
        patternListLegal l := ⟨h1.1, h1.2, n, h2.1, h2.2, h3⟩
    exact ⟨h _ 16 (by decide) (by decide) (by decide), h _ 16 (by decide) (by decide) (by decide),
      ⟨h _ 16 (by decide) (by decide) (by decide), _, rfl, rfl⟩,
      ⟨h _ 16 (by decide) (by decide) (by decide), _, rfl, rfl⟩,
      ⟨h _ 16 (by decide) (by decide) (by decide), _, rfl, rfl⟩⟩
  thresholds := by unfold thresholdsLegal; decide
  simplex := by decide
  maxLost := by decide
  tdmaFrame := by decide
  tdmaSync := by decide
  tdmaWindows := by decide
  period := by decide
  slotStart := by decide
  slotType := by decide
  header := by decide
  frames ft len cl h := by
    have all : ∀ ft, ((sampleParams.frameTypes.lookup ft).all fun x =>
        decide ((∀ q ∈ sampleParams.patP2, q.len + sampleParams.nidLen ≤ x.1) ∧
          x.1 ≤ sampleParams.wP2 ∧ x.1 < 2 ^ 16)) = true := by decide
    have := all ft
    rw [h] at this
    exact of_decide_eq_true this
  proto3 := by decide

theorem witness_StepRefusesExactlyBadParameters : ParameterConstraints State.reset.par ∧
    ¬ ParameterConstraints { sampleParams with aw := 24 } ∧ paramsOk sampleParams = true ∧
    (locksTdma .sx ∨ UnitId.sx = .is) :=
  ⟨constraints_sample, fun h => absurd h.aw.2 (by decide), params_ok, .inl (.inr (.inr rfl))⟩

/-- A state in which each agent that takes commands has a NOP waiting, and which is given moves. -/
def waiting (moves : List Move) (turn : Agent) (rst : Bool) : State :=
  { State.reset with moves := moves, turn := turn, rst := rst, prodIn := [0], consIn := [0] }

theorem witness_StepRunsDecodedCommand :
    (∀ a, paramsOk (waiting [.agent a] .prod false).par = true ∧
      (waiting [.agent a] .prod false).rst = false) ∧
    decode 0 = .ok (.nop 0) ∧ (waiting [.agent .prod] .prod false).prodIn = 0 :: [] ∧
    (waiting [.agent .cons] .prod false).consIn = 0 :: [] ∧
    (waiting [.agent .cons] .prod false).flush = none ∧
    (waiting [] .cons false).moves = [] ∧ (waiting [] .cons false).turn = .cons ∧
    (waiting [] .prod false).turn = .prod :=
  ⟨fun _ => ⟨params_ok, rfl⟩, by decide, rfl, rfl, rfl, rfl, rfl, rfl⟩

theorem witness_ResetInputHoldsTheCore :
    paramsOk (waiting [] .prod true).par = true ∧
    (waiting [.rst true] .prod false).moves = .rst true :: [] ∧
    (waiting [.rst false] .prod true).rst = true ∧
    (waiting [.agent .prod] .prod true).prodIn = 0 :: [] ∧
    (waiting [.agent .cons] .prod true).flush = none ∧
    (waiting [.agent .cons] .prod true).consIn = 0 :: [] := by decide

theorem witness_EncodeOfDecode : decode 0x4100_0007 = .ok (.modeSet 7) := by decide

theorem witness_IllegalOpcodeIsAnswered : State.reset.rst = false ∧
    [0x03, 0x0F, 0x15, 0x1F, 0x22, 0x2F, 0x32, 0x3F, 0x42, 0x4F, 0x52, 0xFF].all
      (fun n => ((BitVec.ofNat 32 (n * 2 ^ 24)).extractLsb' 24 8).toNat == n) = true := by decide

theorem witness_StatusPriority : (onProd State.reset).rst = false ∧
    (⟨.rbGet, 0x10000000, 0xFFFFFFFF⟩ ∈ opcodeTable ∧
      (0x10000001 : Word).extractLsb' 24 8 = (0x10000000 : Word).extractLsb' 24 8 ∧
      (onProd State.reset).port = .producer ∧ State.reset.port = .consumer ∧
      (0x10000001 : Word) &&& 0xFFFFFFFF ≠ 0x10000000) ∧
    (⟨.rbPut, 0x01000000, 0xFFFF00FE⟩ ∈ opcodeTable ∧
      (0x01000002 : Word).extractLsb' 24 8 = (0x01000000 : Word).extractLsb' 24 8 ∧
      (0x01000002 : Word) &&& 0xFFFF00FE ≠ 0x01000000) ∧
    Instr.rbGet.opcode ≠ .nop ∧
    ((Instr.rbGet.opcode = .rbPut ∨ Instr.rbGet.opcode = .rbPspace) ↔
      (onProd State.reset).port = .consumer) := by decide

theorem witness_OutOfRangeOperandIsAnswered : State.reset.port = .consumer ∧
    (Instr.cfgWr 0x07 0).wellFormed = false ∧ (Instr.cfgRd 0xFF).wellFormed = false ∧
    (Instr.statRd 6).wellFormed = false ∧ 5 < (6 : BitVec 4).toNat ∧ 5 < (6 : BitVec 3).toNat ∧
    5 < (6 : BitVec 8).toNat ∧ 6 < (7 : BitVec 8).toNat ∧ unitOf 0 = some .dx1 ∧
    (patterns State.reset.par .dx1).length ≤ (2 : BitVec 4).toNat := by decide

theorem witness_ErrorStatusChangesNothing :
    (∃ t, runWord 0x10000000 State.reset = .next t ∧ portResponse t .consumer = some 0x05000000) ∧
    (∃ t, runWord 0x01000000 (onProd (ringAt 4 0 0 4)) = .next t ∧
      portResponse t .producer = some 0x06000000) :=
  ⟨⟨_, rfl, by decide⟩, ⟨_, rfl, by decide⟩⟩

theorem witness_NopAnswersOk : (0x00FFFFFF : Word).extractLsb' 24 8 = 0 ∧ State.reset.rst = false := by decide

theorem witness_GrayCode : 3 < 2 ^ 2 ∧ 0 + 1 < 2 ∧ 0 < 2 := by decide

/-- A full, an empty and a partly filled buffer of four, with all views equal to their registers. -/
def full : State := ringAt 4 0 0 4 [(1, ⟨true, 7⟩)]
def empty : State := ringAt 4 4 4 4
def partly : State := ringAt 7 5 5 7 [(1, ⟨true, 7⟩)]

theorem witness_PutStoresOrCounts : (onProd partly).port = .producer ∧
    occW (onProd partly) ≠ capacity (onProd partly).par ∧ storageCanonical (onProd partly) ∧
    occW (onProd full) = capacity (onProd full).par :=
  ⟨rfl, by decide, canonical_of (by decide) (by decide) (by decide), by decide⟩

theorem witness_SpaceQueriesAnswer : 0 < 2 * 2 ^ full.par.aw ∧ paramsOk full.par = true ∧ occW full ≤ capacity full.par ∧
    occR full ≤ capacity full.par ∧ full.port = .consumer ∧ (onProd full).port = .producer := by decide

theorem witness_GetTakesOldestSample : full.port = .consumer ∧ occR full ≠ 0 ∧ occR empty = 0 := by
  decide

theorem witness_OverflowReadAndCleared : overflowed.port = .consumer := rfl

/-- A flush of two samples in progress, the second micro-step the last. -/
def flushing (activates : Option Mode) : State :=
  { partly with flush := some ⟨2, 2, activates⟩ }

theorem witness_FlushStartsAndHoldsConsumer : partly.port = .consumer ∧ occR partly ≠ 0 ∧
    empty.port = .consumer ∧ occR empty = 0 ∧ (flushing none).flush = some ⟨2, 2, none⟩ ∧
    1 < (⟨2, 2, none⟩ : FlushJob).left := by decide

theorem witness_FlushRunsToItsEnd : (flushing (some .p2)).flush = some ⟨2, 2, some .p2⟩ ∧
    (flushing none).flush = some ⟨2, 2, none⟩ ∧ 1 ≤ (⟨2, 2, none⟩ : FlushJob).left := by decide

theorem witness_SynchronisersCopy : ∀ a, paramsOk (waiting [.agent a] .prod false).par = true ∧
    (waiting [.agent a] .prod false).moves = .agent a :: [] := fun _ => ⟨params_ok, rfl⟩

theorem ring_partly : ringInvariant partly :=
  ring_of (by unfold pointersInRange; decide) (by unfold grayInStep; decide)
    (by unfold pointersInOrder; decide) rfl

theorem witness_RingInvariantKept : ringInvariant partly ∧ ∃ t, step partly = .next t :=
  ⟨ring_partly, _, rfl⟩

theorem witness_InvariantsAtPowerOn : paramsOk sampleParams = true := by decide

theorem ring_flushing : ringInvariant (flushing none) :=
  ⟨ring_partly.1, ring_partly.2.1, ring_partly.2.2.1, fun job h => by
    have h : (⟨2, 2, none⟩ : FlushJob) = job := Option.some.inj h
    subst h
    decide⟩

theorem witness_CommandsActOnFifo :
    (ringInvariant partly ∧ storageCanonical partly ∧ partly.port = .consumer ∧ occR partly ≠ 0) ∧
    (ringInvariant (onProd partly) ∧ storageCanonical (onProd partly) ∧
      (onProd partly).port = .producer) ∧
    (ringInvariant empty ∧ storageCanonical empty ∧ empty.port = .consumer ∧ occR empty = 0 ∧
      ∃ t, exec .feed empty = .next t) ∧
    (ringInvariant (flushing none) ∧ storageCanonical (flushing none) ∧
      (flushing none).flush = some ⟨2, 2, none⟩) :=
  ⟨⟨ring_partly, canonical_of (by decide) (by decide) (by decide), rfl, by decide⟩,
    ⟨ring_partly, canonical_of (by decide) (by decide) (by decide), rfl⟩,
    ⟨ring_of (by unfold pointersInRange; decide) (by unfold grayInStep; decide)
      (by unfold pointersInOrder; decide) rfl,
      canonical_of (by decide) (by decide) (by decide), rfl, by decide, _, rfl⟩,
    ⟨ring_flushing, canonical_of (by decide) (by decide) (by decide), rfl⟩⟩

theorem witness_OverflowReportedOnce : full.port = .consumer ∧ full.rb.ovfAck = full.rb.ovfCnt ∧
    ∃ t, exec .rbOvfclr (syncO2r (failedPuts 3 full)) = .next t ∧ ∃ x, exec .rbOvfclr t = .next x :=
  ⟨rfl, rfl, _, rfl, _, rfl⟩

theorem witness_CaughtUpViewsTellTheTruth : (ringInvariant full ∧ viewsCaughtUp full) ∧
    (ringInvariant empty ∧ viewsCaughtUp empty) :=
  ⟨⟨ring_of (by unfold pointersInRange; decide) (by unfold grayInStep; decide)
      (by unfold pointersInOrder; decide) rfl, by unfold viewsCaughtUp; decide⟩,
    ⟨ring_of (by unfold pointersInRange; decide) (by unfold grayInStep; decide)
      (by unfold pointersInOrder; decide) rfl, by unfold viewsCaughtUp; decide⟩⟩

theorem witness_IdleMachineCatchesUp : paramsOk full.par = true ∧ full.moves = [] ∧
    full.prodIn = [] ∧ full.consIn = [] ∧ full.flush = none := by decide

/-- Pattern (DATA, 8, 0xB2) with its two lowest bits inverted: k = 2, so T = 2 matches, T = 1 not. -/
theorem witness_CorrelatorBoundary :
    (8 ≤ 64 ∧ (0xB2 : BitVec 64).toNat < 2 ^ 8 ∧ ((List.range 8).countP fun i =>
      (0x5B1 : BitVec 64).getLsbD i != (0xB2 : BitVec 64).getLsbD i) = 2) ∧
    patternMatches 0x5B1 2 ⟨.data, 8, 0xB2⟩ = true ∧
    patternMatches 0x5B1 1 ⟨.data, 8, 0xB2⟩ = false ∧
    ∀ i, i < 8 → (0x5B1 : BitVec 64).getLsbD i = (0xB1 : BitVec 64).getLsbD i := by decide

theorem witness_CorPeekReadsErrorCount : peekState.port = .consumer ∧ unitOf 4 = some .p2 ∧
    (patterns peekState.par .p2)[(0 : BitVec 4).toNat]? = some ⟨.data, 8, 0xB2⟩ := by decide

/-- Bit 15 of a frame of 9 bits is padding; and an emission by SX. -/
theorem witness_PayloadPacking : 15 < 8 * ((9 + 7) / 8) ∧
    ∃ t, t = emitFrame .sx true false 6 32 State.reset := ⟨by decide, _, rfl⟩

/-- A duplex unit that drops its next bit, its first CH_DELAY = 1 bit. -/
def delaying : State := { State.reset with mode := .dx, cfg := { CfgRegs.powerOn with chDelay := 1 } }

theorem witness_WindowIsOneHistory :
    (paramsOk full.par = true ∧ storageCanonical full ∧
      ∀ k, slotOf .dx1 = some k → full.cfg.chDelay ≤ (full.slot k).dly) ∧
    (paramsOk delaying.par = true ∧ storageCanonical delaying ∧
      ∃ k, slotOf .dx1 = some k ∧ (delaying.slot k).dly < delaying.cfg.chDelay) :=
  ⟨⟨by decide, canonical_of (by decide) (by decide) (by decide), fun k _ => by cases k <;> decide⟩,
    ⟨by decide, canonical_of (by decide) (by decide) (by decide), .slot1, by decide, by decide⟩⟩

/-- Two states that differ in everything but unit SX. -/
theorem witness_UnitSeesOnlyItself : SameForUnit .sx full lockedP3 :=
  ⟨rfl, rfl, rfl, rfl, fun k _ => by cases k <;> rfl, fun h => by cases h⟩

theorem witness_EventsAreFinal : (∃ t, step full = .next t) ∧
    ∀ level rest, full.moves ≠ .rst level :: rest :=
  ⟨⟨_, rfl⟩, fun _ _ h => by cases h⟩

/-- A locked unit with the lock-loss counter as given. -/
def lockedSx (st : AcqState) (lc : BitVec 8) : State :=
  { State.reset with mode := .sx, sx := { UnitRegs.powerOn with st := st, enp := some 20, lc := lc } }

theorem witness_LockLossCounting : paramsOk (lockedSx .voice 1).par = true ∧ UnitId.sx ≠ .is ∧
    1 ≤ ((lockedSx .voice 1).unit .sx).lc.toNat ∧ ((lockedSx .voice 1).unit .sx).lc.toNat = 1 ∧
    2 ≤ ((lockedSx .voice 2).unit .sx).lc.toNat := by decide

theorem witness_UnitStatesKept : unitsLegal lockedP3 ∧ proto2Pending lockedP3 ∧
    absentRegistersZero lockedP3 ∧ ∃ t, step lockedP3 = .next t :=
  ⟨fun u => by cases u <;> simp only [stateLegal, locked] <;> decide,
    by unfold proto2Pending locked; decide, by unfold absentRegistersZero; decide, _, rfl⟩

theorem witness_StorageAndPositionsKept : storageCanonical lockedP3 ∧ positionsInRange lockedP3 ∧
    ∃ t, step lockedP3 = .next t := by
  refine ⟨canonical_of (by decide) (by decide) (by decide), ⟨fun u => ?_, fun k e h => ?_,
    fun e h => ?_⟩, _, rfl⟩
  · cases u
    case p3 => exact ⟨by decide, by decide, by decide, fun e h => by cases h; decide⟩
    all_goals exact ⟨by decide, by decide, by decide, fun e h => by cases h⟩
  · cases k <;> cases h
  · cases h

theorem witness_InactiveUnitsRest : inactiveAtRest lockedP3 ∧ ∃ t, step lockedP3 = .next t :=
  ⟨fun u h => by
    cases u
    case p3 => exact absurd (by decide) h
    all_goals exact ⟨rfl, fun k _ => by cases k <;> rfl, fun _ => rfl⟩, _, rfl⟩

/-- A duplex unit whose next bit, tagged 1, is the first of its slot. -/
def slotStart : State :=
  { State.reset with mode := .dx, slot1 := { SlotRegs.powerOn with pis := false, exp := some 3 } }

theorem witness_ChannelDelayAndTagTracking : slotOf .dx1 = some .slot1 ∧
    (delaying.slot .slot1).dly < delaying.cfg.chDelay ∧
    slotStart.cfg.chDelay ≤ (slotStart.slot .slot1).dly ∧
    (Config.tagSlot .slot1 = 1 ∧ (slotStart.slot .slot1).pis = false) := by decide

/-- Position 3 bits from the expected one: just outside the window of 2. -/
theorem witness_GateBlocksAcquisition : slotOf .dx1 = some .slot1 ∧
    (slotStart.unit .dx1).st = .none ∧ (slotStart.unit .dx1).enp = none ∧
    slotStart.cfg.chDelay ≤ (slotStart.slot .slot1).dly ∧
    ¬ ((2 : Tag) = Config.tagSlot .slot1 ∧ (slotStart.slot .slot1).pis = false) ∧
    ∀ e, (slotStart.slot .slot1).exp = some e →
      2 < min (modSub 576 (slotStart.unit .dx1).dp e) (modSub 576 e (slotStart.unit .dx1).dp) :=
  ⟨by decide, by decide, by decide, by decide, by decide, fun e h => by cases h; decide⟩

theorem witness_TdmaSyncPositionsFrame : paramsOk State.reset.par = true ∧
    (locksTdma .sx ∨ UnitId.sx = .is) ∧
    (patterns State.reset.par .sx)[1]? = some ⟨.voice, 16, 0xD4B2⟩ ∧
    (State.reset.unit .sx).dp < winLen State.reset.par .sx :=
  ⟨by decide, .inl (.inr (.inr rfl)), by decide, by decide⟩

/-- SX at the end of a sync frame of the role given, its slot-type field holding `win`. -/
def sxFrame (st : AcqState) (sk : Role) (win : Memory Bool) (cc : BitVec 4)
    (lc : BitVec 8 := 2) : State :=
  { State.reset with
    mode := .sx, cfg := { CfgRegs.powerOn with cc := cc },
    sx := { UnitRegs.powerOn with
      st := st, sk := sk, win := win, sf := true, lc := lc, dp := 31, enp := some 31 } }

theorem witness_SyncFrameAcceptedOrRejected : locksTdma .sx ∧ sampleParams.stPos[7]? = some 27 ∧
    paramsOk (sxFrame .data .voice [] 0).par = true ∧
    ((sxFrame .data .voice [] 0).unit .sx).sf = true ∧
    ((sxFrame .data .voice [] 0).unit .sx).sk = .voice ∧
    ((sxFrame .data .data [] 1).unit .sx).sk = .data ∧
    ((sxFrame .none .data [] 1).unit .sx).sk = .data ∧
    (slotTypeDecode (sxFrame .data .data [] 1).par (slotTypeField (sxFrame .data .data [] 1) .sx) =
      some (0, 0) ∧ (sxFrame .data .data [] 1).cfg.cc ≠ 0) ∧
    (slotTypeDecode (sxFrame .none .data [] 1).par (slotTypeField (sxFrame .none .data [] 1) .sx) =
      some (0, 0) ∧ (sxFrame .none .data [] 1).cfg.cc ≠ 0) :=
  ⟨.inr (.inr rfl), by decide, by decide, by decide, by decide, by decide, by decide, by decide,
    by decide⟩

/-- The data type that the frame of `sxFrame` carries: the last four bits of its slot-type field. -/
def sxType (st : AcqState) (win : Memory Bool) : Option (BitVec 4 × BitVec 4) :=
  slotTypeDecode sampleParams (slotTypeField (sxFrame st .data win 0) .sx)

/-- One data type for each class: 6 HEADER, 1 VHDR, 2 TLC, 0 OTHER, 7 CONT. -/
theorem witness_DataSyncFrameClasses : locksTdma .sx ∧ paramsOk sampleParams = true ∧
    ((sxFrame .voice .data [] 0).unit .sx).sf = true ∧
    ((sxFrame .voice .data [] 0).unit .sx).sk = .data ∧
    (sxType .none [(25, true), (26, true)] = some (0, 6) ∧ classOf sampleParams 6 = .header) ∧
    (sxType .none [(27, true)] = some (0, 1) ∧ classOf sampleParams 1 = .vhdr) ∧
    (sxType .data [(26, true)] = some (0, 2) ∧ classOf sampleParams 2 = .tlc) ∧
    (sxType .data [] = some (0, 0) ∧ classOf sampleParams 0 = .other) ∧
    (∀ st, sxType st [(25, true), (26, true), (27, true)] = some (0, 7)) ∧
    classOf sampleParams 7 = .cont ∧
    ((sxFrame .data .data [] 0).unit .sx).st = .data ∧
    ((sxFrame .none .data [] 0).unit .sx).st = .none ∧
    ((sxFrame .voice .data [] 0).unit .sx).st = .voice ∧
    2 ≤ ((sxFrame .voice .data [] 0).unit .sx).lc.toNat ∧
    (∀ w, ((sxFrame .voice .data w 0 1).unit .sx).lc.toNat = 1) :=
  ⟨.inr (.inr rfl), by decide, by decide, by decide, by decide, by decide, by decide, by decide,
    fun st => by cases st <;> decide, by decide, by decide, by decide, by decide, by decide,
    fun _ => rfl⟩

theorem witness_VoiceLockTimeout : locksTdma .sx ∧
    (((lockedSx .data 2).unit .sx).st = .data ∧ ((lockedSx .data 2).unit .sx).sf = false ∧
      2 ≤ ((lockedSx .data 2).unit .sx).lc.toNat) ∧
    (locked ((lockedSx .data 1).unit .sx) ∧ ((lockedSx .data 1).unit .sx).sf = false ∧
      ((lockedSx .data 1).unit .sx).lc.toNat = 1) ∧
    (locked ((lockedSx .voice 1).unit .sx) ∧ ((lockedSx .voice 1).unit .sx).lc.toNat = 1) ∧
    2 ≤ ((lockedSx .voice 2).unit .sx).lc.toNat ∧ ((lockedSx .voice 3).unit .sx).st = .voice ∧
    ((lockedSx .voice 3).unit .sx).sf = false ∧ ((lockedSx .voice 3).unit .sx).seq = 0 ∧
    ((lockedSx .voice 3).unit .sx).loss = false ∧
    ((lockedSx .voice 3).unit .sx).lc.toNat = 2 + 1 ∧ ((lockedSx .voice 1).unit .sx).lc.toNat = 0 + 1 :=
  ⟨.inr (.inr rfl), by decide, ⟨.inr rfl, by decide, by decide⟩, ⟨.inl rfl, by decide⟩, by decide,
    by decide, by decide, by decide, by decide, by decide, by decide⟩

/-- The idle scanner with a frame of the data type 9 that it forwards, and with one that it drops. -/
theorem witness_IdleScannerForwards :
    let s (win : Memory Bool) : State := { State.reset with is := { UnitRegs.powerOn with win := win } }
    slotTypeDecode (s [(24, true), (27, true)]).par (slotTypeField (s [(24, true), (27, true)]) .is) =
      some ((s [(24, true), (27, true)]).cfg.cc, (s [(24, true), (27, true)]).par.idleFwdDt) ∧
    slotTypeDecode (s []).par (slotTypeField (s []) .is) ≠
      some ((s []).cfg.cc, (s []).par.idleFwdDt) := by decide

/-- P2 in a state with a pending header whose field holds `win`. -/
def p2Header (st : AcqState) (hsy : Bool) (win : Memory Bool) : State :=
  { State.reset with
    mode := .p2, hdr := { HdrRegs.powerOn with hdp := some 8, hsy := hsy },
    p2 := { UnitRegs.powerOn with st := st, dp := 8, win := win } }

/-- Field 0x05 is network id 0 and frame type 5 (DATA, 40 bits), 0x03 frame type 3 (TERM); 0x00 does not
decode. -/
theorem witness_Proto2HeaderOutcomes : 7 < sampleParams.nidLen ∧
    paramsOk (p2Header .sync true []).par = true ∧
    (nidDecode sampleParams (headerField (p2Header .sync true [(6, true), (8, true)])) = some (0, 5) ∧
      (p2Header .sync true []).cfg.nid = 0 ∧ frameType sampleParams 5 = some (40, .data)) ∧
    (nidDecode sampleParams (headerField (p2Header .voice false [(7, true), (8, true)])) = some (0, 3) ∧
      frameType sampleParams 3 = some (32, .term)) ∧
    nidDecode sampleParams (headerField (p2Header .sync true [])) = none ∧
    nidDecode sampleParams (headerField (p2Header .data false [])) = none := by decide

/-- A duplex unit in NONE, 3 bits from its expected sync position and 2 bits from it. -/
def nearSlot (e : Nat) : State :=
  { State.reset with mode := .dx, slot1 := { SlotRegs.powerOn with exp := some e } }

/-- The next bit 0 completes SX's second pattern. -/
def sxSync : State := { State.reset with mode := .sx, sx := { UnitRegs.powerOn with sr := 0x6A59 } }

/-- Bits that are not dropped and, after steps 2 and 3: a P2 header that resets and one that does not; a
frame end that resets and one that does not; no frame end; the gate closed at distance 3 and open at 2;
a sync match and none. -/
theorem witness_UnitBitRunsItsSteps :
    (∀ k, slotOf .dx1 = some k → (nearSlot 3).cfg.chDelay ≤ ((nearSlot 3).slot k).dly) ∧
    (∀ k, slotOf .sx ≠ some k) ∧ (∀ k, slotOf .p2 ≠ some k) ∧
    (headerDue .p2 (p2Header .sync true []) ∧
      (∃ y, headerP2 (trackSlot .p2 0 (takeBit .p2 false (p2Header .sync true []))) = .skip y) ∧
      ∃ y, headerP2 (trackSlot .p2 0 (takeBit .p2 true (p2Header .sync true [(6, true)]))) =
        .goOn y) ∧
    ¬ headerDue .sx sxSync ∧
    (((sxFrame .data .data [] 1).unit .sx).enp = some ((sxFrame .data .data [] 1).unit .sx).dp ∧
      (∃ z, frameEnd .sx 31 (trackSlot .sx 0 (takeBit .sx false (sxFrame .data .data [] 1))) =
        .skip z) ∧
      ∃ z, frameEnd .sx 31 (trackSlot .sx 0 (takeBit .sx false (sxFrame .data .voice [] 0))) =
        .goOn z) ∧
    (sxSync.unit .sx).enp ≠ some (sxSync.unit .sx).dp ∧
    (¬ gateAllows .dx1 (nearSlot 3) ∧ gateAllows .dx1 (nearSlot 2)) ∧
    (gateAllows .sx sxSync ∧
      correlate ((takeBit .sx false sxSync).unit .sx).sr (patterns sampleParams .sx)
        (threshold sampleParams .sx .none) = some 1 ∧
      correlate ((takeBit .sx true sxSync).unit .sx).sr (patterns sampleParams .sx)
        (threshold sampleParams .sx .none) = none) := by
  refine ⟨fun k _ => by cases k <;> decide, fun k => by cases k <;> decide,
    fun k => by cases k <;> decide, ⟨by decide, ⟨_, rfl⟩, ⟨_, rfl⟩⟩, by decide,
    ⟨by decide, ⟨_, rfl⟩, ⟨_, rfl⟩⟩, by decide, ⟨fun h => ?_, fun k hk _ => ?_⟩,
    ⟨(fun k hk => by cases k <;> cases hk), by decide, by decide⟩⟩
  · obtain ⟨e, he, hd⟩ := h .slot1 rfl rfl
    obtain rfl : 3 = e := Option.some.inj he
    exact absurd hd (by decide)
  · cases k
    · exact ⟨2, rfl, by decide⟩
    · cases hk

/-- P2 at a frame end. -/
def p2Frame (st : AcqState) (hok : Bool) (cl : FClass) (lc : BitVec 8) : State :=
  { State.reset with
    mode := .p2, hdr := { HdrRegs.powerOn with hok := hok, cl := cl, fl := 40 },
    p2 := { UnitRegs.powerOn with st := st, lc := lc, dp := 40, enp := some 40 } }

theorem witness_Proto2FrameEnds : paramsOk (p2Frame .data true .term 1).par = true ∧
    ((p2Frame .data true .term 1).hdr.hok = true ∧ (p2Frame .data true .term 1).hdr.cl = .term) ∧
    ((p2Frame .voice true .voice 1).hdr.hok = true ∧ (p2Frame .voice true .voice 1).hdr.cl ≠ .term) ∧
    ((p2Frame .voice false .voice 2).hdr.hok = false ∧
      2 ≤ (p2Frame .voice false .voice 2).p2.lc.toNat) ∧
    ((p2Frame .data false .data 1).hdr.hok = false ∧
      (p2Frame .data false .data 1).p2.lc.toNat = 1) ∧
    ((∃ t, frameEnd .p2 40 (p2Frame .data true .data 1) = .goOn t) ∧
      (p2Frame .data true .data 1).p2.st = .data ∧ (p2Frame .data true .data 1).hdr.hdp = none) ∧
    ((∃ t, frameEnd .p2 40 (p2Frame .voice false .voice 2) = .goOn t) ∧
      (p2Frame .voice false .voice 2).p2.st ≠ .data) ∧
    ((∃ t, frameEnd .p2 40 { p2Frame .data true .data 1 with
        hdr := { (p2Frame .data true .data 1).hdr with hdp := some 8 } } = .goOn t) ∧
      (some 8 : Option Nat) ≠ none) :=
  ⟨by decide, by decide, by decide, by decide, by decide, ⟨⟨_, rfl⟩, by decide⟩,
    ⟨⟨_, rfl⟩, by decide⟩, ⟨⟨_, rfl⟩, by decide⟩⟩

theorem witness_Proto3SyncAndFrameEnd : paramsOk lockedP3.par = true ∧ lockedP3.p3.st ≠ .none ∧
    State.reset.p3.st = .none ∧ 2 ≤ lockedP3.p3.lc.toNat ∧
    ({ lockedP3 with p3 := { lockedP3.p3 with lc := 1 } } : State).p3.sf = false ∧
    ({ lockedP3 with p3 := { lockedP3.p3 with lc := 1 } } : State).p3.lc.toNat = 1 := by decide

theorem witness_Proto3LockTimeout : lockedP3.p3.sf = false ∧ lockedP3.p3.loss = false ∧
    lockedP3.p3.lc.toNat = 2 + 1 := by decide

theorem witness_FeedAndDatabitRoute :
    (∀ m, ({ State.reset with mode := m } : State).mode = m) ∧ full.port = .consumer ∧ occR full ≠ 0 ∧ empty.port = .consumer ∧
    occR empty = 0 := ⟨fun _ => rfl, by decide⟩

theorem witness_RoutedBitFrame : lockedP3.port = .consumer ∧
    (∃ t, exec (.databit true 0) lockedP3 = .next t) ∧ (∃ t, exec .feed full = .next t) ∧
    UnitId.dx1 ∉ lockedP3.mode.active ∧ full.mode = .idle :=
  ⟨rfl, ⟨_, rfl⟩, ⟨_, rfl⟩, by decide, rfl⟩

theorem witness_FsmResetResetsOneUnit : lockedP3.port = .consumer ∧ unitOf 5 = some .p3 ∧
    unitOf 0 = some .dx1 := by decide

theorem witness_ModeSetSwitches :
    let enabled (s : State) : State := { s with cfg := { CfgRegs.powerOn with enables := 0x10 } }
    State.reset.port = .consumer ∧ modeOf 5 = some .p3 ∧ Mode.p3 ≠ .idle ∧
    State.reset.cfg.enables.getLsbD ((5 : BitVec 3).toNat - 1) = false ∧
    (enabled empty).cfg.enables.getLsbD ((5 : BitVec 3).toNat - 1) = true ∧
    occR (enabled empty) = 0 ∧ occR (enabled full) ≠ 0 ∧ modeOf 0 = some .idle := by decide

theorem witness_ConfigWriteAndRead : State.reset.port = .consumer ∧
    [4, 12, 1, 5, 16, 1][(0 : BitVec 8).toNat]? = some 4 ∧
    [4, 12, 1, 5, 16, 1][(5 : BitVec 8).toNat]? = some 1 ∧ (6 : BitVec 8) ≠ 5 := by decide

theorem witness_StatusRead : lockedP3.port = .consumer ∧ unitOf 5 = some .p3 := by decide

end Sys2Proof.Tests
end

section
/-! The frame of a routed bit: `unit_bit` of a unit changes that unit alone, step by step
(42_frame_common.md R200, R227), so routing a bit never changes the port of the running command. -/

namespace Sys2Proof.Machine

open Sys2Proof

/-- Writing P2's registers and its header registers stays in P2. -/
theorem onlyUnit_p2Regs (s : State) (r : UnitRegs) (h : HdrRegs) :
    OnlyUnit .p2 s { s with p2 := r, hdr := h } := by
  constructor
  case other => intro v hv; cases v <;> first | rfl | exact absurd rfl hv
  case slots => intro k _; cases k <;> rfl
  case hdr => intro hu; exact absurd rfl hu
  all_goals rfl

theorem onlyUnit_onSyncP2 (s : State) : OnlyUnit .p2 s (onSyncP2 s) := by
  unfold onSyncP2
  dsimp only
  split
  · exact onlyUnit_trans (onlyUnit_markSync .p2 s) (onlyUnit_p2Regs _ _ _)
  · exact onlyUnit_trans (onlyUnit_markSync .p2 s) (onlyUnit_p2Regs _ _ _)

theorem onlyUnit_onSyncP3 (s : State) : OnlyUnit .p3 s (onSyncP3 s) := by
  unfold onSyncP3
  dsimp only
  split
  · exact onlyUnit_trans (onlyUnit_markSync .p3 s) (onlyUnit_setUnit .p3 _ _)
  · exact onlyUnit_trans (onlyUnit_markSync .p3 s) (onlyUnit_setUnit .p3 _ _)

theorem onlyUnit_onSync (u : UnitId) (i : Nat) (s : State) : OnlyUnit u s (onSync u i s) := by
  cases u
  case p2 => exact onlyUnit_onSyncP2 s
  case p3 => exact onlyUnit_onSyncP3 s
  all_goals exact onlyUnit_onSyncTdma _ i s

theorem onlyUnit_headerP2 (s : State) : OnlyUnit .p2 s (headerP2 s).state := by
  unfold headerP2
  dsimp only
  split
  · split
    · exact onlyUnit_trans (onlyUnit_p2Regs s s.p2 _) (onlyUnit_lostUnit .p2 _)
    · exact onlyUnit_p2Regs s s.p2 _
  · exact onlyUnit_p2Regs s _ _

theorem onlyUnit_scheduleNextP2 (e : Nat) (s : State) : OnlyUnit .p2 s (scheduleNextP2 e s) := by
  unfold scheduleNextP2
  dsimp only
  split
  · exact onlyUnit_p2Regs s _ _
  · exact onlyUnit_p2Regs s _ _

/-- An emission that may be left out stays in its unit either way. -/
theorem onlyUnit_emitFrame_if (c : Bool) (u : UnitId) (sync voice : Bool) (sub : BitVec 4)
    (len : Nat) (s : State) :
    OnlyUnit u s (if c then emitFrame u sync voice sub len s else s) := by
  cases c
  · exact onlyUnit_refl u s
  · exact onlyUnit_emitFrame u sync voice sub len s

/-- The lock-loss count stays in its unit, whichever way it ends. -/
theorem onlyUnit_of_lockLoss {u : UnitId} {confirmed : Bool} {s t : State}
    (h : lockLoss u confirmed s = .goOn t ∨ lockLoss u confirmed s = .skip t) : OnlyUnit u s t := by
  have hl := onlyUnit_lockLoss u confirmed s
  rcases h with h | h <;> rwa [h] at hl

theorem onlyUnit_frameEndP2 (e : Nat) (s : State) : OnlyUnit .p2 s (frameEndP2 e s).state := by
  unfold frameEndP2
  dsimp only
  split
  · exact onlyUnit_trans (onlyUnit_emitFrame .p2 _ _ _ _ s) (onlyUnit_resetUnit .p2 _)
  · have hfirst := onlyUnit_emitFrame_if s.hdr.hok .p2 s.hdr.hsy (s.p2.st == .voice) s.hdr.ft
      s.hdr.fl.toNat s
    split
    · next t hl => exact onlyUnit_trans hfirst (onlyUnit_of_lockLoss (.inr hl))
    · next t hl =>
      have hcont := onlyUnit_emitFrame_if (!t.hdr.hok && t.p2.st = .voice) .p2 false true
        t.hdr.ft s.hdr.fl.toNat t
      exact onlyUnit_trans hfirst (onlyUnit_trans (onlyUnit_of_lockLoss (.inl hl))
        (onlyUnit_trans hcont (onlyUnit_scheduleNextP2 e _)))

theorem onlyUnit_frameEndP3 (e : Nat) (s : State) : OnlyUnit .p3 s (frameEndP3 e s).state := by
  have hemit := onlyUnit_emitFrame .p3 s.p3.sf false 0 s.par.f3 s
  unfold frameEndP3
  dsimp only
  split
  · next t hl => exact onlyUnit_trans hemit (onlyUnit_of_lockLoss (.inr hl))
  · next t hl =>
    exact onlyUnit_trans hemit
      (onlyUnit_trans (onlyUnit_of_lockLoss (.inl hl)) (onlyUnit_setUnit .p3 t _))

theorem onlyUnit_tdmaPeriodEnd (u : UnitId) (period : Nat) (confirmed : Bool) (s : State) :
    OnlyUnit u s (tdmaPeriodEnd u period confirmed s).state := by
  unfold tdmaPeriodEnd
  split
  · exact onlyUnit_setUnit u s _
  · split
    · next t hl => exact onlyUnit_of_lockLoss (.inr hl)
    · next t hl =>
      refine onlyUnit_trans (onlyUnit_of_lockLoss (.inl hl)) (onlyUnit_trans ?_
        (onlyUnit_trans (onlyUnit_setUnit u _ _) (onlyUnit_advanceFrame u period _)))
      split
      · exact onlyUnit_trans (onlyUnit_setUnit u t _) (onlyUnit_emitFrame u _ _ _ _ _)
      · exact onlyUnit_refl u t

/-- The end of a period whose frame was emitted, so that lock is confirmed, stays in its unit. -/
theorem onlyUnit_confirmedFrame (u : UnitId) (period : Nat) (sync voice : Bool) (sub : BitVec 4)
    (len : Nat) (s : State) :
    OnlyUnit u s (tdmaPeriodEnd u period true (emitFrame u sync voice sub len s)).state :=
  onlyUnit_trans (onlyUnit_emitFrame u sync voice sub len s) (onlyUnit_tdmaPeriodEnd u period true _)

theorem onlyUnit_tdmaValidationFailure (u : UnitId) (s : State) :
    OnlyUnit u s (tdmaValidationFailure u s).state := by
  unfold tdmaValidationFailure
  split
  · exact onlyUnit_lostUnit u s
  · exact onlyUnit_resetUnit u s

theorem onlyUnit_tdmaDataFrame (u : UnitId) (period : Nat) (dt : BitVec 4) (s : State) :
    OnlyUnit u s (tdmaDataFrame u period dt s).state := by
  have hreset : OnlyUnit u s (resetUnit u (emitFrame u true false dt s.par.fT s)) :=
    onlyUnit_trans (onlyUnit_emitFrame u true false dt s.par.fT s) (onlyUnit_resetUnit u _)
  unfold tdmaDataFrame
  split
  · exact onlyUnit_trans (onlyUnit_setUnit u s _) (onlyUnit_confirmedFrame u period _ _ _ _ _)
  · split
    · exact onlyUnit_confirmedFrame u period _ _ _ _ s
    · exact onlyUnit_tdmaPeriodEnd u period false s
  · exact onlyUnit_trans (onlyUnit_setUnit u s _) (onlyUnit_confirmedFrame u period _ _ _ _ _)
  · exact hreset
  · exact hreset

theorem onlyUnit_frameEndTdma (u : UnitId) (period : Nat) (s : State) :
    OnlyUnit u s (frameEndTdma u period s).state := by
  unfold frameEndTdma
  split
  · split
    · exact onlyUnit_trans (onlyUnit_setUnit u s _) (onlyUnit_confirmedFrame u period _ _ _ _ _)
    · split
      · exact onlyUnit_tdmaValidationFailure u s
      · exact onlyUnit_tdmaDataFrame u period _ s
  · exact onlyUnit_tdmaPeriodEnd u period false s

theorem onlyUnit_frameEndIdle (s : State) : OnlyUnit .is s (frameEndIdle s).state := by
  unfold frameEndIdle
  refine onlyUnit_trans ?_ (onlyUnit_setUnit .is _ _)
  split
  · split
    · exact onlyUnit_emitFrame .is _ _ _ _ s
    · exact onlyUnit_refl .is s
  · exact onlyUnit_refl .is s

theorem onlyUnit_frameEnd (u : UnitId) (e : Nat) (s : State) :
    OnlyUnit u s (frameEnd u e s).state := by
  cases u
  case dx1 => exact onlyUnit_frameEndTdma .dx1 _ s
  case dx2 => exact onlyUnit_frameEndTdma .dx2 _ s
  case sx => exact onlyUnit_frameEndTdma .sx _ s
  case is => exact onlyUnit_frameEndIdle s
  case p2 => exact onlyUnit_frameEndP2 e s
  case p3 => exact onlyUnit_frameEndP3 e s

theorem onlyUnit_headerStep (u : UnitId) (s : State) : OnlyUnit u s (headerStep u s).state := by
  rcases headerStep_cases u s with ⟨⟨hu, -⟩, h⟩ | ⟨-, h⟩ <;> rw [h]
  · exact hu ▸ onlyUnit_headerP2 s
  · exact onlyUnit_refl u s

theorem onlyUnit_frameEndStep (u : UnitId) (s : State) :
    OnlyUnit u s (frameEndStep u s).state := by
  rcases frameEndStep_cases u s with ⟨-, h⟩ | ⟨-, h⟩ <;> rw [h]
  · exact onlyUnit_frameEnd u _ s
  · exact onlyUnit_refl u s

theorem onlyUnit_correlateStep (u : UnitId) (s : State) : OnlyUnit u s (correlateStep u s) := by
  rcases correlateStep_cases u s with ⟨i, -, -, h⟩ | ⟨-, h⟩ <;> rw [h]
  · exact onlyUnit_onSync u i s
  · exact onlyUnit_refl u s

theorem onlyUnit_frameSteps (u : UnitId) (s : State) : OnlyUnit u s (frameSteps u s) := by
  have hhdr := onlyUnit_headerStep u s
  unfold frameSteps
  split
  · next t h => rwa [h] at hhdr
  · next t h =>
    rw [h] at hhdr
    have hend := onlyUnit_frameEndStep u t
    split
    · next t' h' => rw [h'] at hend; exact onlyUnit_trans hhdr hend
    · next t' h' =>
      rw [h'] at hend
      exact onlyUnit_trans hhdr (onlyUnit_trans hend (onlyUnit_correlateStep u t'))

theorem onlyUnit_consumeBit (u : UnitId) (b : Bool) (tag : Tag) (s : State) :
    OnlyUnit u s (consumeBit u b tag s) :=
  onlyUnit_trans (onlyUnit_takeBit u b s) (onlyUnit_trans (onlyUnit_trackSlot u tag _)
    (onlyUnit_trans (onlyUnit_frameSteps u _) (onlyUnit_advanceDp u _)))

theorem onlyUnit_unitBit (u : UnitId) (b : Bool) (tag : Tag) (s : State) :
    OnlyUnit u s (unitBit b tag s u) := by
  rcases unitBit_cases u b tag s with ⟨k, hk, -, h⟩ | ⟨-, h⟩ <;> rw [h]
  · exact onlyUnit_setSlot hk s _
  · exact onlyUnit_consumeBit u b tag s

/-- Routing a bit leaves the port of the running command. -/
@[simp] theorem port_route (b : Bool) (tag : Tag) (s : State) : (route b tag s).port = s.port := by
  have hfold (l : List UnitId) : ∀ x : State, (l.foldl (unitBit b tag) x).port = x.port := by
    induction l with
    | nil => intro x; rfl
    | cons u l ih => intro x; exact (ih _).trans (onlyUnit_unitBit u b tag x).port
  exact hfold s.mode.active s

end Sys2Proof.Machine
end

section
/-! Decoding by OP, and what a command word does by the outcome of its decoding (30_encoding.md R121,
R122, R124). -/

namespace Sys2Proof.Machine

open Sys2Proof

/-- A byte stands for no opcode exactly when it is the OP of none (R122). -/
theorem ofByte_eq_none_iff (b : BitVec 8) : Opcode.ofByte? b = none ↔ ∀ op : Opcode, op.code ≠ b := by
  have hall (op : Opcode) : op ∈ Opcode.all := by cases op <;> decide
  simp [Opcode.ofByte?, hall]

theorem decode_of_unassigned {w : Word} (h : ∀ op : Opcode, op.code ≠ opField w) :
    decode w = .error .illegalOp := by
  simp [decode, (ofByte_eq_none_iff _).2 h]

/-- A word whose OP is assigned is the command of its operands, unless a reserved bit is set (R124). -/
theorem decode_of_opField {w : Word} {op : Opcode} (h : opField w = op.code) :
    decode w = if reservedZero op w then .ok (operands op w) else .error (.reservedField op) := by
  simp [decode, h, Laws.ofByte_code]

section
variable {w : Word} {s : State}

theorem runWord_of_command {i : Instr} (hr : s.rst = false) (h : decode w = .ok i) :
    runWord w s = exec i s := by simp [runWord, hr, h]

theorem runWord_of_illegalOp (hr : s.rst = false) (h : decode w = .error .illegalOp) :
    runWord w s = .next (s.fail .illegalOp) := by simp [runWord, hr, h]

theorem runWord_of_reservedField {op : Opcode} (hr : s.rst = false)
    (h : decode w = .error (.reservedField op)) :
    runWord w s = .next (s.fail (if legalOn s.port op then .badField else .wrongPort)) := by
  simp [runWord, hr, h]
end

/-- The assigned values of OP, as the gaps of R122 leave them. -/
theorem code_toNat_assigned (op : Opcode) :
    op.code.toNat ≤ 0x02 ∨ (0x10 ≤ op.code.toNat ∧ op.code.toNat ≤ 0x14) ∨
      (0x20 ≤ op.code.toNat ∧ op.code.toNat ≤ 0x21) ∨ (0x30 ≤ op.code.toNat ∧ op.code.toNat ≤ 0x31) ∨
      (0x40 ≤ op.code.toNat ∧ op.code.toNat ≤ 0x41) ∨
      (0x50 ≤ op.code.toNat ∧ op.code.toNat ≤ 0x51) := by
  cases op <;> decide

/-- Settles O9: a value in a gap of the table of R117 is the OP of no opcode, so the word is rejected
as ILLEGAL_OP before the port is looked at. -/
theorem illegalOpcodeIsAnswered : Obligations.IllegalOpcodeIsAnswered := by
  unfold Obligations.IllegalOpcodeIsAnswered
  intro w s n hr hn hgap
  have hno : ∀ op : Opcode, op.code ≠ opField w := by
    intro op hop
    have hcode : op.code.toNat = n := by rw [hop]; exact hn
    have := code_toNat_assigned op
    omega
  exact runWord_of_illegalOp hr (decode_of_unassigned hno)

theorem exec_nop (hint : BitVec 24) (s : State) : exec (.nop hint) s = .next (s.answer 0) := rfl

/-- Settles O13: OP 0x00 has no reserved bit, so each of its words decodes to NOP, and NOP answers OK
on the port it came from. -/
theorem nopAnswersOk : Obligations.NopAnswersOk := by
  unfold Obligations.NopAnswersOk
  intro s
  refine ⟨fun hint => exec_nop hint s, fun w hw => ?_⟩
  have hdec : decode w = .ok (.nop (w.extractLsb' 0 24)) := decode_of_opField (op := .nop) hw
  exact ⟨hdec, fun hr => (runWord_of_command hr hdec).trans (exec_nop _ s)⟩

end Sys2Proof.Machine
end

section
/-! Operands out of range (30_encoding.md R125, R126): the checks of UNIT, MODE and REG fail exactly
outside their ranges, and a failed check is BAD_FIELD. -/

namespace Sys2Proof.Machine

open Sys2Proof

theorem unitOf_eq_none_iff (x : BitVec 4) : unitOf x = none ↔ 5 < x.toNat := by
  revert x; decide

theorem modeOf_eq_none_iff (x : BitVec 3) : modeOf x = none ↔ 5 < x.toNat := by
  revert x; decide

theorem cfgRead_eq_none_iff (s : State) (reg : BitVec 8) :
    cfgRead s reg = none ↔ 6 < reg.toNat := by
  unfold cfgRead
  split <;> simp_all
  omega

theorem cfgWrite_eq_none_iff (c : CfgRegs) (reg : BitVec 8) (value : BitVec 16) :
    cfgWrite c reg value = none ↔ 5 < reg.toNat := by
  unfold cfgWrite
  split <;> simp_all
  omega

section
variable {x : BitVec 4} {s : State} {run : UnitId → State → State}

theorem withUnit_none (h : unitOf x = none) : withUnit x s run = s.fail .badField := by
  simp [withUnit, h]

theorem withUnit_some {u : UnitId} (h : unitOf x = some u) : withUnit x s run = run u s := by
  simp [withUnit, h]
end

/-- A command whose operands are out of range is answered BAD_FIELD on its port (R125, R126). -/
theorem exec_of_not_wellFormed {i : Instr} {s : State} (hp : s.port = .consumer)
    (h : i.wellFormed = false) : exec i s = .next (s.fail .badField) := by
  cases i <;> simp only [Instr.wellFormed, decide_eq_false_iff_not, not_le, reduceCtorEq] at h
  case corPeek x idx =>
    simp [exec, execCorPeek, onPort_same hp, withUnit_none ((unitOf_eq_none_iff x).2 h)]
  case statRd x =>
    simp [exec, execStatRd, onPort_same hp, withUnit_none ((unitOf_eq_none_iff x).2 h)]
  case fsmReset x =>
    simp [exec, execFsmReset, onPort_same hp, withUnit_none ((unitOf_eq_none_iff x).2 h)]
  case modeSet x => simp [exec, execModeSet, onPort_same hp, (modeOf_eq_none_iff x).2 h]
  case cfgWr reg value =>
    simp [exec, execCfgWr, onPort_same hp, (cfgWrite_eq_none_iff s.cfg reg value).2 h]
  case cfgRd reg => simp [exec, execCfgRd, onPort_same hp, (cfgRead_eq_none_iff s reg).2 h]

/-- COR_PEEK of a pattern the unit does not have is answered BAD_FIELD (R119, R188). -/
theorem exec_corPeek_of_length_le {x idx : BitVec 4} {u : UnitId} {s : State}
    (hp : s.port = .consumer) (hu : unitOf x = some u)
    (hidx : (patterns s.par u).length ≤ idx.toNat) :
    exec (.corPeek x idx) s = .next (s.fail .badField) := by
  simp [exec, execCorPeek, onPort_same hp, withUnit_some hu, List.getElem?_eq_none hidx]

/-- The BAD_FIELD response on the consumer port. -/
theorem fail_badField_consumer {s : State} (hp : s.port = .consumer) :
    s.fail .badField = s.respondOn .consumer 0x03000000 := by
  rw [fail_eq, hp]; rfl

/-- Settles O11: the range checks are `wellFormed` with the ranges written out, and each one that fails
is BAD_FIELD. -/
theorem outOfRangeOperandIsAnswered : Obligations.OutOfRangeOperandIsAnswered := by
  unfold Obligations.OutOfRangeOperandIsAnswered
  intro s hp
  rw [← fail_badField_consumer hp]
  refine ⟨fun i h => exec_of_not_wellFormed hp h, fun x hx => ?_, fun x hx => ?_, fun reg => ?_,
    fun x idx u hu hidx => exec_corPeek_of_length_le hp hu hidx⟩
  · simp [Instr.wellFormed, hx]
  · simp [Instr.wellFormed, hx]
  · simp [Instr.wellFormed]

end Sys2Proof.Machine
end

section
/-! What a command can answer, said once: OK, an error status and nothing else, FULL with the failed
put counted, or no response yet where a flush has started (30_encoding.md R118 to R120). -/

namespace Sys2Proof.Machine

open Sys2Proof

/-- What a command word run at `s` leaves at `t`, by the status on the port of the command. -/
inductive Answered (s t : State) : Prop
  /-- Status OK, whatever the command did. -/
  | ok (u : State) (result : BitVec 24) (h : t = u.respondOn s.port (responseWord .ok result))
  /-- A status other than OK and FULL, the response being the only change. -/
  | error (c : Status) (hok : c ≠ .ok) (hfull : c ≠ .full) (h : t = s.fail c)
  /-- Status FULL, the failed put being counted. -/
  | full (h : t = (ringOverflow s).fail .full)
  /-- No response yet: a flush of the consumer is in progress. -/
  | pending (h : portResponse t s.port = none)

theorem answered_answer {s u : State} {result : BitVec 24} (hp : u.port = s.port) :
    Answered s (u.answer result) := .ok u result (by rw [answer_eq, hp])

theorem answered_badField (s : State) : Answered s (s.fail .badField) :=
  .error .badField (by decide) (by decide) rfl

theorem answered_empty (s : State) : Answered s (s.fail .empty) :=
  .error .empty (by decide) (by decide) rfl

theorem answered_disabled (s : State) : Answered s (s.fail .disabled) :=
  .error .disabled (by decide) (by decide) rfl

/-- The port check: WRONG_PORT, or what the command answers on its own port. -/
theorem answered_onPort {p : Port} {s t : State} {run : State → State}
    (h : onPort p s run = .next t) (hrun : s.port = p → Answered s (run s)) : Answered s t := by
  by_cases hp : s.port = p
  · rw [onPort_same hp] at h
    cases h
    exact hrun hp
  · rw [onPort_other hp] at h
    cases h
    exact .error .wrongPort (by decide) (by decide) rfl

theorem answered_withUnit {x : BitVec 4} {s : State} {run : UnitId → State → State}
    (hrun : ∀ u, Answered s (run u s)) : Answered s (withUnit x s run) := by
  cases hu : unitOf x with
  | none => rw [withUnit_none hu]; exact answered_badField s
  | some u => rw [withUnit_some hu]; exact hrun u

theorem answered_startFlush {s : State} (hp : s.port = .consumer) (act : Option Mode) :
    Answered s (startFlush act s) := by
  rcases startFlush_cases act s with ⟨-, h⟩ | ⟨-, h⟩ <;> rw [h]
  · exact .ok _ _ (by rw [hp]; rfl)
  · exact .pending (by rw [hp]; rfl)

@[simp] theorem port_resetUnit (u : UnitId) (s : State) : (resetUnit u s).port = s.port :=
  (onlyUnit_resetUnit u s).port

/-- What every command answers, on either port. -/
theorem exec_answered {i : Instr} {s t : State} (h : exec i s = .next t) : Answered s t := by
  cases i <;> simp only [exec, execNop, execRbPut, execRbPspace, execRbGet, execRbSpace, execRbOcc,
    execRbOvfclr, execRbFlush, execFeed, execDatabit, execCorPeek, execStatRd, execFsmReset,
    execModeSet, execCfgWr, execCfgRd] at h
  case nop hint =>
    cases h
    exact answered_answer rfl
  case rbPut bit tag =>
    refine answered_onPort h fun _ => ?_
    split
    · exact .full rfl
    · exact answered_answer rfl
  case rbPspace => exact answered_onPort h fun _ => answered_answer rfl
  case rbGet =>
    refine answered_onPort h fun _ => ?_
    split
    · exact answered_empty s
    · exact answered_answer rfl
  case rbSpace => exact answered_onPort h fun _ => answered_answer rfl
  case rbOcc => exact answered_onPort h fun _ => answered_answer rfl
  case rbOvfclr => exact answered_onPort h fun _ => answered_answer rfl
  case rbFlush => exact answered_onPort h fun hp => answered_startFlush hp none
  case feed =>
    refine answered_onPort h fun _ => ?_
    split
    · exact answered_empty s
    · exact answered_answer (port_route _ _ _)
  case databit bit tag => exact answered_onPort h fun _ => answered_answer (port_route _ _ _)
  case corPeek unit idx =>
    refine answered_onPort h fun _ => answered_withUnit fun u => ?_
    split
    · exact answered_badField s
    · exact answered_answer rfl
  case statRd unit =>
    exact answered_onPort h fun _ => answered_withUnit fun u => answered_answer rfl
  case fsmReset unit =>
    exact answered_onPort h fun _ => answered_withUnit fun u =>
      answered_answer (port_resetUnit u s)
  case modeSet mode =>
    refine answered_onPort h fun hp => ?_
    split
    · exact answered_badField s
    · split
      · exact answered_startFlush hp _
      · exact answered_disabled s
  case cfgWr reg value =>
    refine answered_onPort h fun _ => ?_
    split
    · exact answered_badField s
    · exact answered_answer rfl
  case cfgRd reg =>
    refine answered_onPort h fun _ => ?_
    split
    · exact answered_badField s
    · exact answered_answer rfl

/-- What every command word answers outside reset, a word that is no command among them. -/
theorem runWord_answered {w : Word} {s t : State} (hr : s.rst = false)
    (h : runWord w s = .next t) : Answered s t := by
  cases hdec : decode w with
  | ok i => exact exec_answered ((runWord_of_command hr hdec).symm.trans h)
  | error e =>
    cases e with
    | illegalOp =>
      rw [runWord_of_illegalOp hr hdec] at h
      cases h
      exact .error .illegalOp (by decide) (by decide) rfl
    | reservedField op =>
      rw [runWord_of_reservedField hr hdec] at h
      cases h
      split
      · exact answered_badField s
      · exact .error .wrongPort (by decide) (by decide) rfl

@[simp] theorem portResponse_respondOn (s : State) (p : Port) (w : Word) :
    portResponse (s.respondOn p w) p = some w := by cases p <;> rfl

/-- The status of a response word stands in bits [31:24] (R118). -/
theorem status_responseWord (c : Status) (result : BitVec 24) :
    (responseWord c result).extractLsb' 24 8 = c.code := Laws.opField_append c.code result

theorem code_eq_full_iff (c : Status) : c.code = 0x06 ↔ c = .full := by cases c <;> decide

/-- A failed put counts modulo 256, and `OVF_G` is the Gray code of the new count (R144). -/
theorem ringOverflow_eq (s : State) :
    ringOverflow s = { s with rb := { s.rb with
      ovfCnt := BitVec.ofNat 8 (s.rb.ovfCnt.toNat + 1)
      ovfG := BitVec.ofNat 8 (gray ((s.rb.ovfCnt.toNat + 1) % 256)) } } := by
  have hcnt : s.rb.ovfCnt + 1 = BitVec.ofNat 8 (s.rb.ovfCnt.toNat + 1) := by
    apply BitVec.eq_of_toNat_eq; simp
  rw [ringOverflow_rb, hcnt, grayOvf, BitVec.toNat_ofNat]

/-- Settles O12: the response names which case of `Answered` holds, and each says what changed. -/
theorem errorStatusChangesNothing : Obligations.ErrorStatusChangesNothing := by
  unfold Obligations.ErrorStatusChangesNothing
  intro w x s t hr hx h
  cases runWord_answered hr h with
  | ok u result ht =>
    obtain rfl : responseWord .ok result = x := by simpa [ht] using hx
    rw [status_responseWord]
    exact ⟨fun hc => absurd hc (by decide), fun hc => absurd hc (by decide)⟩
  | error c hok hfull ht =>
    obtain rfl : responseWord c 0 = x := by simpa [ht, fail_eq] using hx
    rw [status_responseWord]
    exact ⟨fun _ => ht, fun hc => absurd ((code_eq_full_iff c).1 hc) hfull⟩
  | full ht =>
    rw [fail_eq, ringOverflow_eq] at ht
    obtain rfl : responseWord .full 0 = x := by simpa [ht] using hx
    rw [status_responseWord]
    exact ⟨fun hc => absurd hc (by decide), fun _ => ht⟩
  | pending hnone => exact absurd (hnone.symm.trans hx) (by simp)

end Sys2Proof.Machine
end

section
/-! The step of an agent the environment picks, and the synchronisers (40_ring_buffer.md R151 to
R153). -/

namespace Sys2Proof.Machine

open Sys2Proof

section
variable {s : State}

/-- Hardware with legal parameters makes its next move (00_scope.md R9). -/
theorem step_of_paramsOk (hp : paramsOk s.par = true) : step s = stepMove s := if_pos hp

/-- A move of the interleaving that names an agent is a step of that agent (00_scope.md R14). -/
theorem step_of_agentMove {a : Agent} {rest : List Move} (hp : paramsOk s.par = true)
    (hm : s.moves = .agent a :: rest) : step s = stepAgent a { s with moves := rest } := by
  rw [step_of_paramsOk hp, stepMove, hm]
end

theorem stepAgent_syncW2r (s : State) :
    stepAgent .syncW2r s = .next { s with rb := { s.rb with wptrV := s.rb.wptr } } := rfl

theorem stepAgent_syncR2w (s : State) :
    stepAgent .syncR2w s = .next { s with rb := { s.rb with rptrV := s.rb.rptr } } := rfl

theorem stepAgent_syncO2r (s : State) :
    stepAgent .syncO2r s = .next { s with rb := { s.rb with ovfV := s.rb.ovfCnt } } := rfl

/-- Settles O21: the move is a step of the synchroniser it names, and that step is the copy. -/
theorem synchronisersCopy : Obligations.SynchronisersCopy := by
  unfold Obligations.SynchronisersCopy
  intro s rest hp
  refine ⟨fun hm => ?w2r, fun hm => ?r2w, fun hm => ?o2r⟩
  case w2r => exact (step_of_agentMove hp hm).trans (stepAgent_syncW2r _)
  case r2w => exact (step_of_agentMove hp hm).trans (stepAgent_syncR2w _)
  case o2r => exact (step_of_agentMove hp hm).trans (stepAgent_syncO2r _)

end Sys2Proof.Machine
end

section
/-! The correlator's answer (41_correlator.md R184, R186). -/

namespace Sys2Proof.Machine

open Sys2Proof

section
variable {sr : BitVec 64} {t : Nat}

theorem patternMatches_iff {q : SyncPattern} : patternMatches sr t q = true ↔ errCount sr q ≤ t :=
  decide_eq_true_iff

theorem not_patternMatches_iff {q : SyncPattern} :
    ¬ patternMatches sr t q = true ↔ t < errCount sr q :=
  (not_congr patternMatches_iff).trans Nat.not_le

variable {pats : List SyncPattern}

/-- The answer i is the index of a pattern that matches, and each pattern before it has more errors than
the threshold allows (R186). -/
theorem correlate_eq_some_iff {i : Nat} : correlate sr pats t = some i ↔
    ∃ q, pats[i]? = some q ∧ errCount sr q ≤ t ∧
      ∀ j r, j < i → pats[j]? = some r → t < errCount sr r := by
  rw [correlate, List.findIdx?_eq_some_iff_getElem]
  constructor
  case mp =>
    rintro ⟨hi, hmatch, hbefore⟩
    refine ⟨pats[i], List.getElem?_eq_getElem hi, patternMatches_iff.1 hmatch, fun j r hj hr => ?_⟩
    obtain ⟨_, rfl⟩ := List.getElem?_eq_some_iff.1 hr
    exact not_patternMatches_iff.1 (hbefore j hj)
  case mpr =>
    rintro ⟨q, hq, hmatch, hbefore⟩
    obtain ⟨hi, rfl⟩ := List.getElem?_eq_some_iff.1 hq
    exact ⟨hi, patternMatches_iff.2 hmatch, fun j hj =>
      not_patternMatches_iff.2 (hbefore j _ hj (List.getElem?_eq_getElem (hj.trans hi)))⟩

/-- There is no answer when every pattern has more errors than the threshold allows (R186). -/
theorem correlate_eq_none_iff : correlate sr pats t = none ↔ ∀ q ∈ pats, t < errCount sr q := by
  simp only [correlate, List.findIdx?_eq_none_iff, ← Bool.not_eq_true, not_patternMatches_iff]
end

/-- Settles O29: the two answers of `correlate`, an index and none. -/
theorem firstMatchWins : Obligations.FirstMatchWins := by
  unfold Obligations.FirstMatchWins
  exact fun _ _ _ _ => ⟨correlate_eq_some_iff, correlate_eq_none_iff⟩

end Sys2Proof.Machine
end

section
/-! `reset(u)` (42_frame_common.md R214). -/

namespace Sys2Proof.Machine

open Sys2Proof

/-- A unit that was just reset is at its reset values, and so are P2's header registers (R214). -/
theorem resetUnit_resetUnit (u : UnitId) (s : State) : resetUnit u (resetUnit u s) = resetUnit u s := by
  cases u <;> rfl

/-- Settles O38, from what `reset(u)` does to each part of the state. -/
theorem unitResetIsIdempotent : Obligations.UnitResetIsIdempotent := by
  unfold Obligations.UnitResetIsIdempotent
  exact fun u s => ⟨unit_resetUnit u s, hdr_resetUnit u s, slot_resetUnit u s, events_resetUnit u s,
    resetUnit_resetUnit u s⟩

end Sys2Proof.Machine
end

section
/-! The window of a unit as one history of its bits: after step 2 of `unit_bit` the steps 4 to 6 either
keep the window, the data pointer and the shift register, or reset the unit, which keeps the first two
(42_frame_common.md R200, R208, R210, R214, R215). -/

namespace Sys2Proof.Machine

open Sys2Proof

/-- What a unit has received so far: the window, the position of the next bit in it, and the shift
register. -/
def UnitRegs.history (r : UnitRegs) : Memory Bool × Nat × BitVec 64 := (r.win, r.dp, r.sr)

/-- What unit u has received so far is the same in both states. -/
def KeepsHistory (u : UnitId) (s t : State) : Prop := (t.unit u).history = (s.unit u).history

/-- Unit u was reset on the way from `s`, by `reset(u)` or by `lost(u)`. LOSS is left open: the reset
keeps it, but LOST sets it and a frame emitted before the reset clears it (R214, R217, R221). -/
def ResetFrom (u : UnitId) (s t : State) : Prop :=
  ∃ loss, t.unit u = { (s.unit u).afterReset with loss := loss }

/-- A step of `unit_bit` goes on with the history kept, or skips to step 7 after a reset (R215). -/
def Flow.KeepsOrResets (u : UnitId) (s : State) : Flow → Prop
  | .goOn t => KeepsHistory u s t
  | .skip t => ResetFrom u s t

section
variable {u : UnitId} {s t x : State}

theorem keepsHistory_refl (u : UnitId) (s : State) : KeepsHistory u s s := rfl

theorem KeepsHistory.trans (h : KeepsHistory u s t) (g : KeepsHistory u t x) : KeepsHistory u s x :=
  Eq.trans g h

theorem KeepsHistory.win (h : KeepsHistory u s t) : (t.unit u).win = (s.unit u).win :=
  congrArg (·.1) h

theorem KeepsHistory.dp (h : KeepsHistory u s t) : (t.unit u).dp = (s.unit u).dp :=
  congrArg (·.2.1) h

theorem KeepsHistory.sr (h : KeepsHistory u s t) : (t.unit u).sr = (s.unit u).sr :=
  congrArg (·.2.2) h

theorem KeepsHistory.trans_reset (h : KeepsHistory u s t) (g : ResetFrom u t x) :
    ResetFrom u s x := by
  obtain ⟨loss, g⟩ := g
  exact ⟨loss, by rw [g, UnitRegs.afterReset, UnitRegs.afterReset, h.win, h.dp]⟩

theorem KeepsHistory.trans_flow {f : Flow} (h : KeepsHistory u s t) (g : f.KeepsOrResets u t) :
    f.KeepsOrResets u s := by
  cases f with
  | goOn x => exact h.trans g
  | skip x => exact h.trans_reset g

theorem ResetFrom.win (h : ResetFrom u s t) : (t.unit u).win = (s.unit u).win := by
  obtain ⟨loss, h⟩ := h; rw [h]; rfl

theorem ResetFrom.dp (h : ResetFrom u s t) : (t.unit u).dp = (s.unit u).dp := by
  obtain ⟨loss, h⟩ := h; rw [h]; rfl
end

/-! ### The operations of a frame -/

section
variable (u : UnitId) (s : State)

theorem resetFrom_resetUnit : ResetFrom u s (resetUnit u s) := ⟨_, unit_resetUnit u s⟩

theorem resetFrom_lostUnit : ResetFrom u s (lostUnit u s) := ⟨true, unit_lostUnit u s⟩

/-- Registers written to the unit that leave the window, the data pointer and the shift register. -/
theorem keepsHistory_setUnit {r : UnitRegs} (hr : r.history = (s.unit u).history) :
    KeepsHistory u s (s.setUnit u r) := by
  rw [KeepsHistory, unit_setUnit_same, hr]

theorem keepsHistory_emitFrame (sync voice : Bool) (sub : BitVec 4) (len : Nat) :
    KeepsHistory u s (emitFrame u sync voice sub len s) := by
  rw [KeepsHistory, unit_emitFrame, UnitRegs.history, UnitRegs.history]

theorem keepsHistory_emitFrame_if (c sync voice : Bool) (sub : BitVec 4) (len : Nat) :
    KeepsHistory u s (if c then emitFrame u sync voice sub len s else s) := by
  cases c
  · exact keepsHistory_refl u s
  · exact keepsHistory_emitFrame u s sync voice sub len

theorem keepsHistory_advanceFrame (period : Nat) : KeepsHistory u s (advanceFrame u period s) :=
  keepsHistory_setUnit u s (by rfl)

theorem keepsHistory_markSync : KeepsHistory u s (markSync u s) :=
  keepsHistory_setUnit u s (by rfl)

theorem keepsOrResets_lockLoss (confirmed : Bool) : (lockLoss u confirmed s).KeepsOrResets u s := by
  rcases lockLoss_cases u confirmed s with ⟨-, h⟩ | ⟨-, -, h⟩ | ⟨-, -, h⟩ <;> rw [h]
  · exact keepsHistory_setUnit u s (by rfl)
  · exact keepsHistory_setUnit u s (by rfl)
  · exact (keepsHistory_setUnit u s (by rfl)).trans_reset (resetFrom_lostUnit u _)
end

/-! ### Frame ends -/

section
variable (u : UnitId) (period : Nat) (s : State)

theorem keepsOrResets_tdmaPeriodEnd (confirmed : Bool) :
    (tdmaPeriodEnd u period confirmed s).KeepsOrResets u s := by
  have hlock := keepsOrResets_lockLoss u s confirmed
  unfold tdmaPeriodEnd
  split
  · exact keepsHistory_setUnit u s (by rfl)
  · split
    · next t hl => rwa [hl] at hlock
    · next t hl =>
      rw [hl] at hlock
      refine hlock.trans (KeepsHistory.trans ?continuation
        ((keepsHistory_setUnit u _ (by rfl)).trans (keepsHistory_advanceFrame u _ period)))
      split
      · exact (keepsHistory_setUnit u t (by rfl)).trans (keepsHistory_emitFrame u _ _ _ _ _)
      · exact keepsHistory_refl u t

/-- A frame that is emitted before its period ends. -/
theorem keepsOrResets_emitFrame_tdmaPeriodEnd (sync voice : Bool) (sub : BitVec 4) (len : Nat) :
    (tdmaPeriodEnd u period true (emitFrame u sync voice sub len s)).KeepsOrResets u s :=
  (keepsHistory_emitFrame u s sync voice sub len).trans_flow
    (keepsOrResets_tdmaPeriodEnd u period _ true)

theorem keepsOrResets_tdmaValidationFailure : (tdmaValidationFailure u s).KeepsOrResets u s := by
  unfold tdmaValidationFailure
  split
  · exact resetFrom_lostUnit u s
  · exact resetFrom_resetUnit u s

theorem keepsOrResets_tdmaDataFrame (dt : BitVec 4) :
    (tdmaDataFrame u period dt s).KeepsOrResets u s := by
  have hreset : ResetFrom u s (resetUnit u (emitFrame u true false dt s.par.fT s)) :=
    (keepsHistory_emitFrame u s _ _ _ _).trans_reset (resetFrom_resetUnit u _)
  unfold tdmaDataFrame
  split
  · exact (keepsHistory_setUnit u s (by rfl)).trans_flow
      (keepsOrResets_emitFrame_tdmaPeriodEnd u period _ _ _ _ _)
  · split
    · exact keepsOrResets_emitFrame_tdmaPeriodEnd u period s _ _ _ _
    · exact keepsOrResets_tdmaPeriodEnd u period s false
  · exact (keepsHistory_setUnit u s (by rfl)).trans_flow
      (keepsOrResets_emitFrame_tdmaPeriodEnd u period _ _ _ _ _)
  · exact hreset
  · exact hreset

theorem keepsOrResets_frameEndTdma : (frameEndTdma u period s).KeepsOrResets u s := by
  unfold frameEndTdma
  split
  · split
    · exact (keepsHistory_setUnit u s (by rfl)).trans_flow
        (keepsOrResets_emitFrame_tdmaPeriodEnd u period _ _ _ _ _)
    · split
      · exact keepsOrResets_tdmaValidationFailure u s
      · exact keepsOrResets_tdmaDataFrame u period s _
  · exact keepsOrResets_tdmaPeriodEnd u period s false
end

section
variable (e : Nat) (s : State)

theorem keepsOrResets_frameEndIdle : (frameEndIdle s).KeepsOrResets .is s := by
  unfold frameEndIdle
  refine KeepsHistory.trans ?forwarded (keepsHistory_setUnit .is _ (by rfl))
  split
  · split
    · exact keepsHistory_emitFrame .is s _ _ _ _
    · exact keepsHistory_refl .is s
  · exact keepsHistory_refl .is s

theorem keepsHistory_scheduleNextP2 : KeepsHistory .p2 s (scheduleNextP2 e s) := by
  unfold scheduleNextP2
  dsimp only
  split <;> exact rfl

theorem keepsOrResets_frameEndP2 : (frameEndP2 e s).KeepsOrResets .p2 s := by
  have hfirst := keepsHistory_emitFrame_if .p2 s s.hdr.hok s.hdr.hsy (s.p2.st == .voice) s.hdr.ft
    s.hdr.fl.toNat
  have hlock := hfirst.trans_flow (keepsOrResets_lockLoss .p2 _ s.hdr.hok)
  unfold frameEndP2
  dsimp only
  split
  · exact (keepsHistory_emitFrame .p2 s _ _ _ _).trans_reset (resetFrom_resetUnit .p2 _)
  · split
    · next t hl => rwa [hl] at hlock
    · next t hl =>
      rw [hl] at hlock
      exact hlock.trans ((keepsHistory_emitFrame_if .p2 t _ _ _ _ _).trans
        (keepsHistory_scheduleNextP2 e _))

theorem keepsOrResets_frameEndP3 : (frameEndP3 e s).KeepsOrResets .p3 s := by
  have hlock := (keepsHistory_emitFrame .p3 s s.p3.sf false 0 s.par.f3).trans_flow
    (keepsOrResets_lockLoss .p3 _ s.p3.sf)
  unfold frameEndP3
  dsimp only
  split
  · next t hl => rwa [hl] at hlock
  · next t hl =>
    rw [hl] at hlock
    exact hlock.trans rfl

theorem keepsOrResets_frameEnd (u : UnitId) : (frameEnd u e s).KeepsOrResets u s := by
  cases u
  case dx1 => exact keepsOrResets_frameEndTdma .dx1 _ s
  case dx2 => exact keepsOrResets_frameEndTdma .dx2 _ s
  case sx => exact keepsOrResets_frameEndTdma .sx _ s
  case is => exact keepsOrResets_frameEndIdle s
  case p2 => exact keepsOrResets_frameEndP2 e s
  case p3 => exact keepsOrResets_frameEndP3 e s
end

/-! ### The steps of `unit_bit` -/

section
variable (u : UnitId) (s : State)

theorem keepsOrResets_headerP2 : (headerP2 s).KeepsOrResets .p2 s := by
  have hpending : KeepsHistory .p2 s { s with hdr := { s.hdr with hdp := none } } := rfl
  unfold headerP2
  dsimp only
  split
  · split
    · exact hpending.trans_reset (resetFrom_lostUnit .p2 _)
    · exact rfl
  · exact rfl

theorem keepsOrResets_headerStep : (headerStep u s).KeepsOrResets u s := by
  rcases headerStep_cases u s with ⟨⟨rfl, -⟩, h⟩ | ⟨-, h⟩ <;> rw [h]
  · exact keepsOrResets_headerP2 s
  · exact keepsHistory_refl u s

theorem keepsOrResets_frameEndStep : (frameEndStep u s).KeepsOrResets u s := by
  rcases frameEndStep_cases u s with ⟨-, h⟩ | ⟨-, h⟩ <;> rw [h]
  · exact keepsOrResets_frameEnd _ s u
  · exact keepsHistory_refl u s

theorem keepsHistory_onSyncTdma (i : Nat) : KeepsHistory u s (onSyncTdma u i s) :=
  (keepsHistory_markSync u s).trans (keepsHistory_setUnit u _ (by rfl))

theorem keepsHistory_onSyncP2 : KeepsHistory .p2 s (onSyncP2 s) := by
  unfold onSyncP2
  dsimp only
  split <;> exact (keepsHistory_markSync .p2 s).trans rfl

theorem keepsHistory_onSyncP3 : KeepsHistory .p3 s (onSyncP3 s) := by
  unfold onSyncP3
  dsimp only
  split <;> exact (keepsHistory_markSync .p3 s).trans rfl

theorem keepsHistory_onSync (i : Nat) : KeepsHistory u s (onSync u i s) := by
  cases u
  case p2 => exact keepsHistory_onSyncP2 s
  case p3 => exact keepsHistory_onSyncP3 s
  all_goals exact keepsHistory_onSyncTdma _ s i

theorem keepsHistory_correlateStep : KeepsHistory u s (correlateStep u s) := by
  rcases correlateStep_cases u s with ⟨i, -, -, h⟩ | ⟨-, h⟩ <;> rw [h]
  · exact keepsHistory_onSync u s i
  · exact keepsHistory_refl u s

/-- Steps 4 to 6 keep the history or reset the unit. -/
theorem frameSteps_keeps_or_resets :
    KeepsHistory u s (frameSteps u s) ∨ ResetFrom u s (frameSteps u s) := by
  have hheader := keepsOrResets_headerStep u s
  unfold frameSteps
  split
  · next t h => rw [h] at hheader; exact .inr hheader
  · next t h =>
    rw [h] at hheader
    have hend := hheader.trans_flow (keepsOrResets_frameEndStep u t)
    split
    · next x h' => rw [h'] at hend; exact .inr hend
    · next x h' =>
      rw [h'] at hend
      exact .inl (hend.trans (keepsHistory_correlateStep u x))

theorem win_frameSteps : ((frameSteps u s).unit u).win = (s.unit u).win :=
  (frameSteps_keeps_or_resets u s).elim (·.win) (·.win)

theorem dp_frameSteps : ((frameSteps u s).unit u).dp = (s.unit u).dp :=
  (frameSteps_keeps_or_resets u s).elim (·.dp) (·.dp)
end

/-! ### The bit in the window and in the shift register -/

section
variable (u : UnitId) (b : Bool) (tag : Tag) (s : State)

/-- Step 7 advances the data pointer the unit had before the bit, whatever the steps before it did. -/
theorem unit_consumeBit : (consumeBit u b tag s).unit u =
    { (frameSteps u (trackSlot u tag (takeBit u b s))).unit u with
      dp := ((s.unit u).dp + 1) % winLen s.par u } := by
  have hpar : (frameSteps u (trackSlot u tag (takeBit u b s))).par = s.par :=
    (onlyUnit_trans (onlyUnit_takeBit u b s) (onlyUnit_trans (onlyUnit_trackSlot u tag _)
      (onlyUnit_frameSteps u _))).par
  rw [consumeBit, advanceDp, unit_setUnit_same, hpar, dp_frameSteps, unit_trackSlot_takeBit]

theorem dp_consumeBit :
    ((consumeBit u b tag s).unit u).dp = ((s.unit u).dp + 1) % winLen s.par u := by
  rw [unit_consumeBit]

theorem win_consumeBit : ((consumeBit u b tag s).unit u).win =
    Memory.write unwrittenBit (s.unit u).win ((s.unit u).dp % winLen s.par u) b := by
  rw [unit_consumeBit]
  exact (win_frameSteps u _).trans (by rw [unit_trackSlot_takeBit])

/-- The window after a bit: the new bit at `DP_u`, elsewhere as before (R210). -/
theorem winRead_consumeBit (hwin : Memory.wf unwrittenBit (s.unit u).win = true) (i : Nat) :
    winRead (consumeBit u b tag s) u i =
      if i % winLen s.par u = (s.unit u).dp % winLen s.par u then b else winRead s u i := by
  rw [winRead, win_consumeBit, (onlyUnit_consumeBit u b tag s).par, read_write hwin, winRead]

/-- The bit is in the shift register, or the unit is at its reset values with the window and the data
pointer kept (R180, R214). -/
theorem sr_consumeBit_or_reset :
    ((consumeBit u b tag s).unit u).sr.toNat = (2 * (s.unit u).sr.toNat + b.toNat) % 2 ^ 64 ∨
    ∃ loss, (consumeBit u b tag s).unit u = { UnitRegs.powerOn with
      win := ((consumeBit u b tag s).unit u).win,
      dp := ((s.unit u).dp + 1) % winLen s.par u, loss := loss } := by
  rcases frameSteps_keeps_or_resets u (trackSlot u tag (takeBit u b s)) with hkeep | ⟨loss, hreset⟩
  · have hsr : ((consumeBit u b tag s).unit u).sr = shiftIn (s.unit u).sr b := by
      rw [unit_consumeBit]
      exact hkeep.sr.trans (by rw [unit_trackSlot_takeBit])
    exact .inl (by rw [hsr, toNat_shiftIn])
  · exact .inr ⟨loss, by rw [unit_consumeBit, hreset]; rfl⟩
end

/-- Settles O32: a bit that is not dropped goes through steps 2 to 7, a dropped one only counts. -/
theorem windowIsOneHistory : Obligations.WindowIsOneHistory := by
  unfold Obligations.WindowIsOneHistory
  rintro u b tag s - ⟨-, -, hstored⟩
  obtain ⟨hwin, -⟩ := hstored u
  rcases unitBit_cases u b tag s with ⟨k, hk, hdrop, h⟩ | ⟨htaken, h⟩ <;> rw [h]
  · refine ⟨fun htaken => ?_, fun _ => unit_setSlot s u k _⟩
    exact absurd (htaken k hk) (BitVec.not_le.2 hdrop)
  · refine ⟨fun _ => ⟨winRead_consumeBit u b tag s hwin, dp_consumeBit u b tag s,
      sr_consumeBit_or_reset u b tag s⟩, fun ⟨k, hk, hdrop⟩ => ?_⟩
    exact absurd (htaken k hk) (BitVec.not_le.2 hdrop)

end Sys2Proof.Machine
end

section
/-! The sync match and the frame end of P3 (47_proto3.md R371, R372), over what `lockloss` does to the
counter (42_frame_common.md R213). -/

namespace Sys2Proof.Machine

open Sys2Proof

/-! ### The lock-loss counter -/

/-- A lock-loss maximum of legal parameters fits the counter. -/
theorem toNat_maxLost {p : Params} (h : paramsOk p = true) {u : UnitId} (hu : u ≠ .is) :
    (BitVec.ofNat 8 (maxLost p u)).toNat = maxLost p u :=
  (BitVec.toNat_ofNat _ 8).trans (Nat.mod_eq_of_lt (Nat.lt_succ_of_le (maxLost_range h hu).2))

theorem toNat_counter_sub_one {lc : BitVec 8} (h : 1 ≤ lc.toNat) : (lc - 1).toNat = lc.toNat - 1 :=
  BitVec.toNat_sub_of_le (BitVec.le_def.2 h)

section
variable {u : UnitId} {confirmed : Bool} {s : State}

/-- `lockloss` answers CONTINUE: after a sync, or with more than the last period left. -/
theorem lockLoss_of_counting (h : confirmed = true ∨ (s.unit u).lc - 1 ≠ 0) :
    lockLoss u confirmed s = .goOn (s.setUnit u { s.unit u with
      lc := if confirmed then BitVec.ofNat 8 (maxLost s.par u) else (s.unit u).lc - 1 }) := by
  rcases lockLoss_cases u confirmed s with ⟨hc, e⟩ | ⟨hc, -, e⟩ | ⟨hc, hl, -⟩
  · rw [e, if_pos hc]
  · rw [e, hc]; rfl
  · exact absurd hl (h.resolve_left (by simp [hc]))

/-- `lockloss` answers ENDED: the last period went by without a sync. -/
theorem lockLoss_of_expired (hc : confirmed = false) (h : (s.unit u).lc - 1 = 0) :
    lockLoss u confirmed s =
      .skip (lostUnit u (s.setUnit u { s.unit u with lc := (s.unit u).lc - 1 })) := by
  subst hc
  exact if_pos h
end

/-! ### P3 -/

section
variable (e : Nat) {s : State}

/-- `on_sync(P3, 0)` changes the registers of P3 alone, the state and the counter only from NONE
(R371). -/
theorem onSyncP3_eq (s : State) : onSyncP3 s = { s with p3 := { s.p3 with
    syp := s.p3.dp
    sf := true
    stp := (s.p3.dp + 1) % s.par.wP3
    enp := some ((s.p3.dp + s.par.f3) % s.par.wP3)
    st := if s.p3.st = .none then .data else s.p3.st
    lc := if s.p3.st = .none then BitVec.ofNat 8 s.par.maxLostP3 else s.p3.lc } } := by
  by_cases h : s.p3.st = .none
  · rw [if_pos h, if_pos h]
    exact if_pos h
  · rw [if_neg h, if_neg h]
    exact if_neg h

/-- The frame is emitted first; then CONTINUE sets up the next F3 bits and ENDED ends the frame end
(R372). -/
theorem frameEndP3_of_goOn {t : State}
    (h : lockLoss .p3 s.p3.sf (emitFrame .p3 s.p3.sf false 0 s.par.f3 s) = .goOn t) :
    frameEndP3 e s = .goOn (t.setUnit .p3 { t.unit .p3 with
      syp := e
      stp := (e + 1) % t.par.wP3
      enp := some ((e + t.par.f3) % t.par.wP3)
      sf := false }) := by
  rw [frameEndP3, h]
  rfl

theorem frameEndP3_of_skip {t : State}
    (h : lockLoss .p3 s.p3.sf (emitFrame .p3 s.p3.sf false 0 s.par.f3 s) = .skip t) :
    frameEndP3 e s = .skip t := by
  rw [frameEndP3, h]

/-- A frame end that keeps lock emits the frame and puts the next one on the F3 bits after it (R372). -/
theorem frameEndP3_of_counting (h : s.p3.sf = true ∨ s.p3.lc - 1 ≠ 0) :
    ∃ t, frameEndP3 e s = .goOn t ∧
      t.p3 = { s.p3 with
        syp := e
        stp := (e + 1) % s.par.wP3
        enp := some ((e + s.par.f3) % s.par.wP3)
        sf := false
        loss := false
        lc := if s.p3.sf then BitVec.ofNat 8 s.par.maxLostP3 else s.p3.lc - 1 } ∧
      t.events = s.events ++ [frameEvent s .p3 s.p3.sf false 0 s.par.f3] := by
  have hunit := unit_emitFrame .p3 s.p3.sf false 0 s.par.f3 s
  have hpar := (onlyUnit_emitFrame .p3 s.p3.sf false 0 s.par.f3 s).par
  have hlock := lockLoss_of_counting (u := .p3) (confirmed := s.p3.sf)
    (s := emitFrame .p3 s.p3.sf false 0 s.par.f3 s) (by rw [hunit]; exact h)
  rw [hunit, hpar] at hlock
  refine ⟨_, frameEndP3_of_goOn e hlock, ?registers, ?events⟩
  case registers =>
    rw [par_setUnit, unit_setUnit_same, hpar]
    rfl
  case events => rw [events_setUnit, events_setUnit, events_emitFrame_eq]

/-- A frame end that loses lock emits the frame before the LOST event (R372). -/
theorem frameEndP3_of_expired (hsf : s.p3.sf = false) (h : s.p3.lc - 1 = 0) :
    ∃ t, frameEndP3 e s = .skip t ∧ t.p3.st = .none ∧ t.p3.loss = true ∧
      t.events = s.events ++ [frameEvent s .p3 false false 0 s.par.f3, .lost .p3] := by
  have hunit := unit_emitFrame .p3 s.p3.sf false 0 s.par.f3 s
  have hlock := lockLoss_of_expired (u := .p3)
    (s := emitFrame .p3 s.p3.sf false 0 s.par.f3 s) hsf (by rw [hunit]; exact h)
  refine ⟨_, frameEndP3_of_skip e hlock, rfl, rfl, ?events⟩
  rw [events_lostUnit, events_setUnit, events_emitFrame_eq, hsf, List.append_assoc,
    List.singleton_append]
end

/-- Settles O53, from the next state of the sync match and the two ways a frame end goes. -/
theorem proto3SyncAndFrameEnd : Obligations.Proto3SyncAndFrameEnd := by
  unfold Obligations.Proto3SyncAndFrameEnd
  intro i e s hp
  have hmax : (BitVec.ofNat 8 s.par.maxLostP3).toNat = s.par.maxLostP3 :=
    toNat_maxLost hp (u := .p3) (by decide)
  refine ⟨?sync, fun hkept => ?counting, fun hsf hlast => ?expired⟩
  case sync =>
    rintro t rfl
    rw [onSync, onSyncP3_eq]
    refine ⟨rfl, rfl, rfl, rfl, fun hnone => ?_, fun hlocked => ?_, rfl⟩
    · exact ⟨if_pos hnone, (congrArg BitVec.toNat (if_pos hnone)).trans hmax⟩
    · exact ⟨if_neg hlocked, if_neg hlocked⟩
  case counting =>
    have hcounting : s.p3.sf = true ∨ s.p3.lc - 1 ≠ 0 := hkept.imp_right fun _ => by bv_omega
    obtain ⟨t, hend, hregs, hevents⟩ := frameEndP3_of_counting e hcounting
    refine ⟨t, hend, ?_⟩
    rw [hregs]
    refine ⟨rfl, rfl, rfl, rfl, rfl, ?_, hevents⟩
    cases hsf : s.p3.sf
    · have hleft : 2 ≤ s.p3.lc.toNat := hkept.resolve_left (by simp [hsf])
      exact toNat_counter_sub_one (Nat.le_of_succ_le hleft)
    · exact hmax
  case expired => exact frameEndP3_of_expired e hsf (by bv_omega)

end Sys2Proof.Machine
end

section
/-! Encoding and decoding as numbers (30_encoding.md R111 to R117): a word is its OP byte and its operand
bits, and each format is a sum of its fields at their weights. -/

namespace Sys2Proof.Machine

open Sys2Proof

/-- Fields put side by side: the left one has the weight of the right one's width. -/
theorem toNat_append_eq {m n : Nat} (x : BitVec m) (y : BitVec n) :
    (x ++ y).toNat = x.toNat * 2 ^ n + y.toNat := by
  rw [BitVec.toNat_append, ← Nat.shiftLeft_add_eq_or_of_lt y.isLt, Nat.shiftLeft_eq]

/-- A field of a word as a number. -/
theorem toNat_extractLsb'_eq {m : Nat} (x : BitVec m) (start len : Nat) :
    (x.extractLsb' start len).toNat = x.toNat / 2 ^ start % 2 ^ len := by
  rw [BitVec.extractLsb'_toNat, Nat.shiftRight_eq_div_pow]

/-- Bit 0 of a word as a number. -/
theorem toNat_getLsbD_zero (w : Word) : (w.getLsbD 0).toNat = w.toNat % 2 := by
  rw [BitVec.getLsbD, Nat.testBit_zero]
  rcases Nat.mod_two_eq_zero_or_one w.toNat with h | h <;> simp [h]

theorem toNat_encode (i : Instr) :
    (encode i).toNat = i.opcode.code.toNat * 2 ^ 24 + (operandBits i).toNat :=
  toNat_append_eq _ _

/-! ### Each format as a number -/

section
variable (b : Bool) (g : Tag) (x idx : BitVec 4) (mode : BitVec 3) (reg : BitVec 8) (value : BitVec 16)

theorem toNat_encode_nop (hint : BitVec 24) : (encode (.nop hint)).toNat = hint.toNat := by
  simp [toNat_encode, Instr.opcode, Opcode.code, operandBits]

theorem toNat_encode_rbPut :
    (encode (.rbPut b g)).toNat = 0x01 * 2 ^ 24 + 2 ^ 8 * g.toNat + b.toNat := by
  simp only [toNat_encode, Instr.opcode, Opcode.code, operandBits, toNat_append_eq,
    BitVec.toNat_ofBool, BitVec.ofNat_eq_ofNat, BitVec.toNat_ofNat]
  omega

theorem toNat_encode_databit :
    (encode (.databit b g)).toNat = 0x21 * 2 ^ 24 + 2 ^ 8 * g.toNat + b.toNat := by
  simp only [toNat_encode, Instr.opcode, Opcode.code, operandBits, toNat_append_eq,
    BitVec.toNat_ofBool, BitVec.ofNat_eq_ofNat, BitVec.toNat_ofNat]
  omega

theorem toNat_encode_corPeek : (encode (.corPeek x idx)).toNat =
    0x30 * 2 ^ 24 + 2 ^ 20 * x.toNat + 2 ^ 16 * idx.toNat := by
  simp only [toNat_encode, Instr.opcode, Opcode.code, operandBits, toNat_append_eq,
    BitVec.ofNat_eq_ofNat, BitVec.toNat_ofNat]
  omega

theorem toNat_encode_statRd : (encode (.statRd x)).toNat = 0x31 * 2 ^ 24 + 2 ^ 20 * x.toNat := by
  simp only [toNat_encode, Instr.opcode, Opcode.code, operandBits, toNat_append_eq,
    BitVec.ofNat_eq_ofNat, BitVec.toNat_ofNat]
  omega

theorem toNat_encode_fsmReset :
    (encode (.fsmReset x)).toNat = 0x40 * 2 ^ 24 + 2 ^ 20 * x.toNat := by
  simp only [toNat_encode, Instr.opcode, Opcode.code, operandBits, toNat_append_eq,
    BitVec.ofNat_eq_ofNat, BitVec.toNat_ofNat]
  omega

theorem toNat_encode_modeSet : (encode (.modeSet mode)).toNat = 0x41 * 2 ^ 24 + mode.toNat := by
  simp only [toNat_encode, Instr.opcode, Opcode.code, operandBits, toNat_append_eq,
    BitVec.ofNat_eq_ofNat, BitVec.toNat_ofNat]
  omega

theorem toNat_encode_cfgWr : (encode (.cfgWr reg value)).toNat =
    0x50 * 2 ^ 24 + 2 ^ 16 * reg.toNat + value.toNat := by
  simp only [toNat_encode, Instr.opcode, Opcode.code, operandBits, toNat_append_eq,
    BitVec.ofNat_eq_ofNat, BitVec.toNat_ofNat]
  omega

theorem toNat_encode_cfgRd : (encode (.cfgRd reg)).toNat = 0x51 * 2 ^ 24 + 2 ^ 16 * reg.toNat := by
  simp only [toNat_encode, Instr.opcode, Opcode.code, operandBits, toNat_append_eq,
    BitVec.ofNat_eq_ofNat, BitVec.toNat_ofNat]
  omega

/-- The words of the commands without an operand (R111). -/
theorem encode_plain :
    [Instr.rbPspace, .rbGet, .rbSpace, .rbOcc, .rbOvfclr, .rbFlush, .feed].map encode =
      [0x02000000, 0x10000000, 0x11000000, 0x12000000, 0x13000000, 0x14000000, 0x20000000] := by
  decide

/-! ### Decoding what was encoded -/

/-- A field is read back where its number stands. -/
theorem extractLsb'_eq_of_toNat {w : Word} {start len : Nat} {v : BitVec len}
    (h : w.toNat / 2 ^ start % 2 ^ len = v.toNat) : w.extractLsb' start len = v :=
  BitVec.eq_of_toNat_eq ((toNat_extractLsb'_eq w start len).trans h)

theorem getLsbD_zero_eq_of_toNat {w : Word} {c : Bool} (h : w.toNat % 2 = c.toNat) :
    w.getLsbD 0 = c := by
  have hbit := (toNat_getLsbD_zero w).trans h
  revert hbit
  cases w.getLsbD 0 <;> cases c <;> decide

/-- Format S read back: RB_PUT and DATABIT (R112). -/
theorem sampleFields_of_toNat {w : Word} {op : Nat}
    (h : w.toNat = op * 2 ^ 24 + 2 ^ 8 * g.toNat + b.toNat) :
    w.extractLsb' 16 8 = 0 ∧ w.extractLsb' 1 7 = 0 ∧ w.getLsbD 0 = b ∧ w.extractLsb' 8 8 = g := by
  have hb : b.toNat ≤ 1 := Bool.toNat_le b
  have hg := g.isLt
  refine ⟨extractLsb'_eq_of_toNat ?_, extractLsb'_eq_of_toNat ?_, getLsbD_zero_eq_of_toNat ?_,
    extractLsb'_eq_of_toNat ?_⟩ <;> (try simp only [BitVec.ofNat_eq_ofNat, BitVec.toNat_ofNat]) <;> omega

/-- An encoded command has its reserved bits 0, and its operand fields are read back. -/
theorem operands_encode (i : Instr) :
    reservedZero i.opcode (encode i) = true ∧ operands i.opcode (encode i) = i := by
  cases i <;> simp only [Instr.opcode, reservedZero, operands, Bool.and_eq_true, beq_iff_eq, true_and]
  case nop hint =>
    have h := toNat_encode_nop hint
    rw [extractLsb'_eq_of_toNat (v := hint) (by omega)]
  case rbPut b g =>
    obtain ⟨h1, h2, h3, h4⟩ := sampleFields_of_toNat b g (toNat_encode_rbPut b g)
    exact ⟨⟨h1, h2⟩, by rw [h3, h4]⟩
  case databit b g =>
    obtain ⟨h1, h2, h3, h4⟩ := sampleFields_of_toNat b g (toNat_encode_databit b g)
    exact ⟨⟨h1, h2⟩, by rw [h3, h4]⟩
  case corPeek x idx =>
    have h := toNat_encode_corPeek x idx
    rw [extractLsb'_eq_of_toNat (v := 0) (by simp; omega),
      extractLsb'_eq_of_toNat (v := x) (by omega), extractLsb'_eq_of_toNat (v := idx) (by omega)]
    exact ⟨rfl, rfl⟩
  case statRd x =>
    have h := toNat_encode_statRd x
    rw [extractLsb'_eq_of_toNat (v := 0) (by simp; omega),
      extractLsb'_eq_of_toNat (v := x) (by omega)]
    exact ⟨rfl, rfl⟩
  case fsmReset x =>
    have h := toNat_encode_fsmReset x
    rw [extractLsb'_eq_of_toNat (v := 0) (by simp; omega),
      extractLsb'_eq_of_toNat (v := x) (by omega)]
    exact ⟨rfl, rfl⟩
  case modeSet m =>
    have h := toNat_encode_modeSet m
    rw [extractLsb'_eq_of_toNat (v := 0) (by simp; omega),
      extractLsb'_eq_of_toNat (v := m) (by omega)]
    exact ⟨rfl, rfl⟩
  case cfgWr r v =>
    have h := toNat_encode_cfgWr r v
    rw [extractLsb'_eq_of_toNat (v := r) (by omega), extractLsb'_eq_of_toNat (v := v) (by omega)]
  case cfgRd r =>
    have h := toNat_encode_cfgRd r
    rw [extractLsb'_eq_of_toNat (v := 0) (by simp; omega),
      extractLsb'_eq_of_toNat (v := r) (by omega)]
    exact ⟨rfl, rfl⟩
  all_goals decide
end

theorem decode_encode (i : Instr) : decode (encode i) = .ok i := by
  obtain ⟨hzero, hoperands⟩ := operands_encode i
  rw [decode_of_opField (Laws.opByte i).1, if_pos hzero, hoperands]

/-- Settles O5: OP names the opcode, whose format is then read field by field at its weights. -/
theorem decodeOfEncode : Obligations.DecodeOfEncode := by
  unfold Obligations.DecodeOfEncode
  exact ⟨decode_encode, toNat_encode_nop,
    fun b g => ⟨toNat_encode_rbPut b g, toNat_encode_databit b g⟩, toNat_encode_corPeek,
    fun x => ⟨toNat_encode_statRd x, toNat_encode_fsmReset x⟩, toNat_encode_modeSet,
    toNat_encode_cfgWr, toNat_encode_cfgRd, encode_plain⟩

/-! ### Encoding what was decoded -/

/-- A legal word is the word of its operands: the format covers every bit that is not reserved. -/
theorem encode_operands {w : Word} {op : Opcode} (hop : opField w = op.code)
    (hzero : reservedZero op w = true) : encode (operands op w) = w := by
  have hcode : w.toNat / 2 ^ 24 % 2 ^ 8 = op.code.toNat := by
    rw [← toNat_extractLsb'_eq]; exact congrArg BitVec.toNat hop
  have hw := w.isLt
  apply BitVec.eq_of_toNat_eq
  rw [toNat_encode]
  cases op <;>
    simp only [reservedZero, Bool.and_eq_true, beq_iff_eq, ← BitVec.toNat_inj,
      toNat_extractLsb'_eq] at hzero <;>
    simp only [Opcode.code, BitVec.ofNat_eq_ofNat, BitVec.toNat_ofNat] at hcode hzero <;>
    simp only [operands, Instr.opcode, Opcode.code, operandBits, toNat_append_eq,
      toNat_extractLsb'_eq, BitVec.toNat_ofBool, toNat_getLsbD_zero, BitVec.ofNat_eq_ofNat,
      BitVec.toNat_ofNat] <;>
    omega

/-- What a decoded word is: its OP is an opcode's, its reserved bits are 0, its operands are read. -/
theorem decode_eq_ok_iff {w : Word} {i : Instr} : decode w = .ok i ↔
    opField w = i.opcode.code ∧ reservedZero i.opcode w = true ∧ operands i.opcode w = i := by
  have hopcode (op : Opcode) : (operands op w).opcode = op := by cases op <;> rfl
  constructor
  · intro h
    cases hop : Opcode.ofByte? (opField w) with
    | none => simp [decode, hop] at h
    | some op =>
      have hcode : opField w = op.code := by
        have := List.find?_some hop
        exact (beq_iff_eq.1 this).symm
      rw [decode_of_opField hcode] at h
      split at h
      · next hzero =>
        cases h
        rw [hopcode]
        exact ⟨hcode, hzero, rfl⟩
      · cases h
  · rintro ⟨hcode, hzero, hoperands⟩
    rw [decode_of_opField hcode, if_pos hzero, hoperands]

theorem encode_of_decode {w : Word} {i : Instr} (h : decode w = .ok i) : encode i = w := by
  obtain ⟨hcode, hzero, hoperands⟩ := decode_eq_ok_iff.1 h
  rw [← encode_operands hcode hzero, hoperands]

/-- The four bytes of a word, the first with the greatest weight (20_memory.md R87). -/
theorem toNat_eq_bytes (w : Word) : w.toNat =
    2 ^ 24 * (w.extractLsb' 24 8).toNat + 2 ^ 16 * (w.extractLsb' 16 8).toNat +
      2 ^ 8 * (w.extractLsb' 8 8).toNat + (w.extractLsb' 0 8).toNat := by
  have hw := w.isLt
  simp only [toNat_extractLsb'_eq]
  omega

theorem wordOfBytes_extract (w : Word) : wordOfBytes (w.extractLsb' 24 8) (w.extractLsb' 16 8)
    (w.extractLsb' 8 8) (w.extractLsb' 0 8) = w := by
  apply BitVec.eq_of_toNat_eq
  conv_rhs => rw [toNat_eq_bytes w]
  simp only [wordOfBytes, toNat_append_eq]
  omega

/-- Settles O6: decoding reads every bit its format does not reserve, and a reserved bit is 0. -/
theorem encodeOfDecode : Obligations.EncodeOfDecode := by
  unfold Obligations.EncodeOfDecode
  exact ⟨fun _ _ => encode_of_decode,
    fun w => ⟨_, _, _, _, rfl, toNat_eq_bytes w, wordOfBytes_extract w⟩⟩

/-! ### The match and mask of the table -/

/-- The bits of [23:0] that the format of an opcode reserves (R111 to R115, R127). -/
def reservesBit : Opcode → Nat → Bool
  | .nop, _ => false
  | .rbPut, i | .databit, i => decide (16 ≤ i) || decide (1 ≤ i ∧ i < 8)
  | .corPeek, i | .cfgRd, i => decide (i < 16)
  | .statRd, i | .fsmReset, i => decide (i < 20)
  | .modeSet, i => decide (3 ≤ i)
  | .cfgWr, _ => false
  | _, _ => true

theorem extractLsb'_eq_zero_iff (w : Word) (start len : Nat) :
    w.extractLsb' start len = 0 ↔ ∀ i, start ≤ i → i < start + len → w.getLsbD i = false := by
  constructor
  · intro h i hlo hhi
    have hbit := congrArg (·.getLsbD (i - start)) h
    simpa [show i - start < len by omega, show start + (i - start) = i by omega] using hbit
  · intro h
    apply BitVec.eq_of_getLsbD_eq
    intro i hi
    simp [hi, h (start + i) (by omega) (by omega)]

/-- The reserved-field check looks at the reserved bits (R124). -/
theorem reservedZero_iff (op : Opcode) (w : Word) : reservedZero op w = true ↔
    ∀ i, i < 24 → reservesBit op i = true → w.getLsbD i = false := by
  cases op <;>
    simp only [reservedZero, reservesBit, Bool.and_eq_true, Bool.or_eq_true, beq_iff_eq,
      decide_eq_true_eq, extractLsb'_eq_zero_iff] <;>
    grind

/-- A row's mask has OP and the bits its format reserves, and its base has the OP alone. -/
theorem mask_bits {row : TableRow} (h : row ∈ opcodeTable) :
    (∀ i, i < 32 → row.mask.getLsbD i = (decide (24 ≤ i) || reservesBit row.op i)) ∧
      row.base = row.op.code ++ 0#24 := by
  revert row
  decide

/-- The words that match a row are those with its OP and with no reserved bit set (R124). -/
theorem matches_row_iff {row : TableRow} (h : row ∈ opcodeTable) (w : Word) :
    w &&& row.mask = row.base ↔ opField w = row.op.code ∧ reservedZero row.op w = true := by
  obtain ⟨hmask, hbase⟩ := mask_bits h
  rw [reservedZero_iff, hbase]
  constructor
  · intro hw
    have hbit (i : Nat) (hi : i < 32) (hm : row.mask.getLsbD i = true) :
        w.getLsbD i = (row.op.code ++ 0#24).getLsbD i := by
      rw [← hw, BitVec.getLsbD_and, hm, Bool.and_true]
    refine ⟨BitVec.eq_of_getLsbD_eq fun i hi => ?_, fun i hi hres => ?_⟩
    · have := hbit (24 + i) (by omega) (by rw [hmask _ (by omega)]; simp)
      rw [BitVec.getLsbD_append] at this
      simpa [opField, hi] using this
    · have := hbit i (by omega) (by rw [hmask i (by omega), hres, Bool.or_true])
      rw [BitVec.getLsbD_append] at this
      simpa [hi] using this
  · rintro ⟨hop, hres⟩
    apply BitVec.eq_of_getLsbD_eq
    intro i hi
    rw [BitVec.getLsbD_and, hmask i hi, ← hop, BitVec.getLsbD_append]
    by_cases h24 : i < 24
    · cases hr : reservesBit row.op i <;> simp [h24, hr, hres]
    · simp [opField, h24, show 24 + (i - 24) = i by omega, show i - 24 < 8 by omega]
      omega

/-- Every opcode has its row in the table (R117). -/
theorem exists_row (op : Opcode) : ∃ row ∈ opcodeTable, row.op = op := by
  cases op <;> decide

/-- Settles O7: both sides say that the OP is the opcode's and that no reserved bit is set. -/
theorem legalWordsMatchTheTable : Obligations.LegalWordsMatchTheTable := by
  unfold Obligations.LegalWordsMatchTheTable
  refine ⟨fun w op => ⟨?_, ?_⟩, rfl⟩
  · rintro ⟨i, hdec, rfl⟩
    obtain ⟨hcode, hzero, -⟩ := decode_eq_ok_iff.1 hdec
    obtain ⟨row, hrow, hop⟩ := exists_row i.opcode
    exact ⟨row, hrow, hop, (matches_row_iff hrow w).2 (hop ▸ ⟨hcode, hzero⟩)⟩
  · rintro ⟨row, hrow, rfl, hmatch⟩
    obtain ⟨hcode, hzero⟩ := (matches_row_iff hrow w).1 hmatch
    refine ⟨operands row.op w, ?_, ?_⟩
    · rw [decode_of_opField hcode, if_pos hzero]
    · cases row.op <;> rfl

/-- Settles O8: the words are decoded as they stand. -/
theorem exampleWordsDecode : Obligations.ExampleWordsDecode := by
  unfold Obligations.ExampleWordsDecode
  decide

/-! ### The port comes before the fields (R121, R143) -/

/-- A command on the port that is not its own is answered WRONG_PORT whatever its operands. -/
theorem exec_wrongPort {i : Instr} {s : State} (hi : i.opcode ≠ .nop)
    (hport : i.opcode = .rbPut ∨ i.opcode = .rbPspace ↔ s.port = .consumer) :
    exec i s = .next (s.fail .wrongPort) := by
  cases i <;> simp only [Instr.opcode, reduceCtorEq, or_self, or_true, true_or, true_iff,
    false_iff] at hport
  case nop => exact absurd rfl hi
  case rbPut | rbPspace =>
    have hother : s.port ≠ .producer := by simp [hport]
    simp only [exec, execRbPut, execRbPspace, onPort_other hother]
  all_goals
    simp only [exec, execRbGet, execRbSpace, execRbOcc, execRbOvfclr, execRbFlush, execFeed,
      execDatabit, execCorPeek, execStatRd, execFsmReset, execModeSet, execCfgWr, execCfgRd,
      onPort_other hport]

/-- The port an opcode is not legal on, and the port it is legal on, as the table of R117 has them. -/
theorem legalOn_iff (p : Port) (op : Opcode) : legalOn p op = true ↔
    (p = .producer ∧ op ∈ [.nop, .rbPut, .rbPspace]) ∨
      (p = .consumer ∧ op ∉ [Opcode.rbPut, .rbPspace]) := by
  cases p <;> cases op <;> decide

/-- A word whose OP is assigned but not legal on the port is WRONG_PORT, with or without a reserved bit
set. -/
theorem runWord_of_wrongPort {w : Word} {s : State} {op : Opcode} (hr : s.rst = false)
    (hcode : opField w = op.code) (hport : ¬ legalOn s.port op = true) :
    runWord w s = .next (s.fail .wrongPort) := by
  have hdec := decode_of_opField hcode
  by_cases hzero : reservedZero op w = true
  · rw [if_pos hzero] at hdec
    rw [runWord_of_command hr hdec]
    have hopcode : (operands op w).opcode = op := by cases op <;> rfl
    apply exec_wrongPort <;> rw [hopcode] <;> revert hport <;>
      cases s.port <;> cases op <;> decide
  · rw [if_neg hzero] at hdec
    rw [runWord_of_reservedField hr hdec, if_neg hport]

/-- Settles O10: the port is looked at first, then the reserved bits of the row's mask. -/
theorem statusPriority : Obligations.StatusPriority := by
  unfold Obligations.StatusPriority
  refine ⟨fun w s row hr hrow hop => ?_, fun i s hi hport => exec_wrongPort hi hport⟩
  have hcode : opField w = row.op.code := by
    rw [opField, hop, (mask_bits hrow).2]
    exact Laws.opField_append _ _
  refine ⟨fun hwrong => ?_, fun hright hmask => ?_⟩
  · refine runWord_of_wrongPort hr hcode ?_
    rw [legalOn_iff]
    rcases hwrong with ⟨hp, hop⟩ | ⟨hp, hop⟩ <;> simp_all
  · have hres : ¬ reservedZero row.op w = true := fun hzero =>
      hmask ((matches_row_iff hrow w).2 ⟨hcode, hzero⟩)
    have hdec := decode_of_opField hcode
    rw [if_neg hres] at hdec
    rw [runWord_of_reservedField hr hdec, if_pos ((legalOn_iff _ _).2 hright)]
    rfl

end Sys2Proof.Machine
end

section
/-! The constraints of a parameter set (00_scope.md R9, 41_correlator.md R182, R185, R187): the check that
`step` makes is the list of constraints. -/

namespace Sys2Proof.Machine

open Sys2Proof

theorem patternListOk_iff (l : List SyncPattern) : patternListOk l = true ↔ patternListLegal l := by
  cases l with
  | nil => simp [patternListOk, patternListLegal]
  | cons q t =>
    simp only [patternListOk, patternListLegal, Bool.and_eq_true, decide_eq_true_eq, List.all_eq_true,
      beq_iff_eq]
    simp only [Config.srW]
    constructor
    · rintro ⟨⟨⟨hlen, h1⟩, h64⟩, hall⟩
      exact ⟨by simp, hlen, q.len, h1, h64, fun r hr => ⟨(hall r hr).1, by
        rw [← (hall r hr).1]; exact (hall r hr).2⟩⟩
    · rintro ⟨-, hlen, n, h1, h64, hall⟩
      obtain rfl : q.len = n := (hall q (by simp)).1
      exact ⟨⟨⟨hlen, h1⟩, h64⟩, fun r hr => ⟨(hall r hr).1, by
        rw [(hall r hr).1]; exact (hall r hr).2⟩⟩

theorem singleDataPattern_iff (l : List SyncPattern) :
    singleDataPattern l = true ↔ onePatternLegal l := by
  simp only [singleDataPattern, onePatternLegal, Bool.and_eq_true, patternListOk_iff, beq_iff_eq,
    List.length_eq_one_iff, and_assoc, and_congr_right_iff]
  intro _
  constructor
  · rintro ⟨⟨q, rfl⟩, hrole⟩
    exact ⟨q, rfl, by simpa using hrole⟩
  · rintro ⟨q, rfl, hrole⟩
    exact ⟨⟨q, rfl⟩, by simpa using hrole⟩

theorem thresholdsOk_iff (acq lock : Nat) :
    thresholdsOk acq lock = true ↔ thresholdsLegal acq lock := by
  simp only [thresholdsOk, thresholdsLegal, Bool.and_eq_true, decide_eq_true_eq]
  omega

theorem maxLostOk_iff (n : Nat) : maxLostOk n = true ↔ 1 ≤ n ∧ n ≤ 255 := by
  simp [maxLostOk]

section
variable {p : Params} {u : UnitId}

/-- SYNC_LEN_u is the length of every pattern of a legal list, and the list has a pattern (R182). -/
theorem len_eq_syncLen (h : patternListLegal (patterns p u)) :
    ∀ q ∈ patterns p u, q.len = syncLen p u := by
  obtain ⟨-, -, n, -, -, hall⟩ := h
  unfold syncLen
  cases hl : patterns p u with
  | nil => simp
  | cons r t =>
    rw [hl] at hall
    intro q hq
    exact (hall q hq).1.trans (hall r (by simp)).1.symm

theorem forall_len_iff (h : patternListLegal (patterns p u)) (P : Nat → Prop) :
    (∀ q ∈ patterns p u, P q.len) ↔ P (syncLen p u) := by
  have hlen := len_eq_syncLen h
  obtain ⟨hne, -⟩ := h
  obtain ⟨q, hq⟩ := List.exists_mem_of_length_pos (Nat.lt_of_lt_of_le Nat.zero_lt_one hne)
  exact ⟨fun hall => hlen q hq ▸ hall q hq, fun hP r hr => hlen r hr ▸ hP⟩
end

/-- The frame-type constraints over the sixteen frame types, said of the lookups that succeed. -/
theorem frameTypes_ok_iff {p : Params} (h : patternListLegal p.patP2) :
    ((List.range 16).all fun ft => frameTypeOk p (BitVec.ofNat 4 ft)) = true ↔
      ∀ ft len cl, p.frameTypes.lookup ft = some (len, cl) →
        (∀ q ∈ p.patP2, q.len + p.nidLen ≤ len) ∧ len ≤ p.wP2 ∧ len < 2 ^ 16 := by
  have hone (ft : BitVec 4) : frameTypeOk p ft = true ↔
      ∀ len cl, p.frameTypes.lookup ft = some (len, cl) →
        (∀ q ∈ p.patP2, q.len + p.nidLen ≤ len) ∧ len ≤ p.wP2 ∧ len < 2 ^ 16 := by
    have hlen (len : Nat) := forall_len_iff (p := p) (u := .p2) h (fun n => n + p.nidLen ≤ len)
    simp only [patterns] at hlen
    unfold frameTypeOk frameType
    split
    · next hl => simp [hl]
    · next len cl hl => simp [hl, hlen, and_assoc]
  simp only [List.all_eq_true, List.mem_range]
  constructor
  · intro hall ft
    have := hall ft.toNat ft.isLt
    rw [BitVec.ofNat_toNat, BitVec.setWidth_eq] at this
    exact (hone ft).1 this
  · exact fun hall ft _ => (hone _).2 (hall _)

/-- The TDMA constraints over the patterns of DX, SX and IS (R9, R203, R209). -/
theorem tdmaOk_iff {p : Params} (hdx : patternListLegal p.patDx) (hsx : patternListLegal p.patSx)
    (his : patternListLegal p.patIs) : tdmaOk p = true ↔
      (∀ q ∈ p.patDx ++ p.patSx ++ p.patIs, q.len + 2 ≤ p.fT ∧ (p.fT - q.len) % 2 = 0) ∧
      (∀ q ∈ p.patDx, ∀ r ∈ p.patSx ++ p.patIs, r.len = q.len) ∧
      (p.fT ≤ 576 ∧ p.fT ≤ p.wSx ∧ p.fT ≤ p.wIs) ∧ 1 ≤ p.periodSx ∧ p.syncEndOfs < 576 ∧
      p.stPos.Pairwise (· < ·) ∧ ∀ j ∈ p.stPos, j < p.fT := by
  have edx (P : Nat → Prop) := forall_len_iff (p := p) (u := .dx1) hdx P
  have esx (P : Nat → Prop) := forall_len_iff (p := p) (u := .sx) hsx P
  have eis (P : Nat → Prop) := forall_len_iff (p := p) (u := .is) his P
  simp only [patterns] at edx esx eis
  have hframe : (∀ q ∈ p.patDx ++ p.patSx ++ p.patIs, q.len + 2 ≤ p.fT ∧ (p.fT - q.len) % 2 = 0) ↔
      (∀ n ∈ [syncLen p .dx1, syncLen p .sx, syncLen p .is], n + 2 ≤ p.fT ∧ (p.fT - n) % 2 = 0) := by
    simp only [List.mem_append, or_imp, forall_and, List.forall_mem_cons, List.not_mem_nil, edx (· + 2 ≤ p.fT),
      edx fun n => (p.fT - n) % 2 = 0, esx (· + 2 ≤ p.fT), esx fun n => (p.fT - n) % 2 = 0,
      eis (· + 2 ≤ p.fT), eis fun n => (p.fT - n) % 2 = 0]
    tauto
  have hsync : (∀ q ∈ p.patDx, ∀ r ∈ p.patSx ++ p.patIs, r.len = q.len) ↔
      syncLen p .sx = syncLen p .dx1 ∧ syncLen p .is = syncLen p .dx1 := by
    rw [edx fun n => ∀ r ∈ p.patSx ++ p.patIs, r.len = n]
    simp only [List.mem_append, or_imp, forall_and, esx (· = syncLen p .dx1),
      eis (· = syncLen p .dx1)]
  rw [hframe, hsync]
  simp only [tdmaOk, Bool.and_eq_true, decide_eq_true_eq, beq_iff_eq, List.all_eq_true,
    List.forall_mem_cons, List.not_mem_nil]
  simp only [Config.wDx]
  constructor
  · rintro ⟨⟨⟨⟨⟨⟨⟨⟨⟨⟨h1, h2⟩, h3⟩, h4⟩, h5⟩, h6⟩, h7⟩, h8⟩, h9⟩, h10⟩, h11⟩
    rw [h1, h2]
    exact ⟨⟨⟨h3, h4⟩, ⟨h3, h4⟩, ⟨h3, h4⟩, by simp⟩, ⟨rfl, rfl⟩, ⟨h5, h6, h7⟩, h8, h9, h10, h11⟩
  · rintro ⟨⟨⟨h3, h4⟩, -⟩, ⟨h1, h2⟩, ⟨h5, h6, h7⟩, h8, h9, h10, h11⟩
    exact ⟨⟨⟨⟨⟨⟨⟨⟨⟨⟨h1, h2⟩, h3⟩, h4⟩, h5⟩, h6⟩, h7⟩, h8⟩, h9⟩, h10⟩, h11⟩

theorem correlatorOk_iff (p : Params) : correlatorOk p = true ↔
    (patternListLegal p.patDx ∧ patternListLegal p.patSx ∧ onePatternLegal p.patIs ∧
      onePatternLegal p.patP2 ∧ onePatternLegal p.patP3) ∧
    (thresholdsLegal p.tAcqDx p.tLockDx ∧ thresholdsLegal p.tAcqSx p.tLockSx ∧ p.tAcqIs ≤ 2 ∧
      thresholdsLegal p.tAcqP2 p.tLockP2 ∧ thresholdsLegal p.tAcqP3 p.tLockP3) ∧
    p.tAcqSx ≤ p.tAcqDx ∧ p.tLockSx ≤ p.tLockDx := by
  simp only [correlatorOk, Bool.and_eq_true, patternListOk_iff, singleDataPattern_iff,
    thresholdsOk_iff, decide_eq_true_eq, and_assoc]

/-- The check is the list of constraints (R9). -/
theorem paramsOk_iff (p : Params) : paramsOk p = true ↔ ParameterConstraints p := by
  simp only [paramsOk, proto2Ok, proto3Ok, Bool.and_eq_true, decide_eq_true_eq, correlatorOk_iff,
    maxLostOk_iff]
  constructor
  · rintro ⟨⟨⟨⟨⟨⟨⟨⟨haw, hpat, hthr, hsimplex⟩, hdx⟩, hsx⟩, hp2⟩, hp3⟩, htdma⟩, hnid, hft⟩, hf3⟩
    obtain ⟨patDx, patSx, ⟨patIs, -⟩, ⟨patP2, -⟩, -⟩ := id hpat
    obtain ⟨hframe, hsync, hwin, hper, hslot, hst⟩ := (tdmaOk_iff patDx patSx patIs).1 htdma
    exact ⟨haw, hpat, hthr, hsimplex, by simp [hdx, hsx, hp2, hp3], hframe, hsync, hwin, hper,
      hslot, hst, hnid, (frameTypes_ok_iff patP2).1 hft, hf3⟩
  · intro h
    obtain ⟨patDx, patSx, ⟨patIs, -⟩, ⟨patP2, -⟩, -⟩ := h.patterns
    have hmax := h.maxLost
    simp only [List.forall_mem_cons, List.not_mem_nil, false_implies, implies_true,
      and_true] at hmax
    obtain ⟨hdx, hsx, hp2, hp3⟩ := hmax
    exact ⟨⟨⟨⟨⟨⟨⟨⟨h.aw, h.patterns, h.thresholds, h.simplex⟩, hdx⟩, hsx⟩, hp2⟩, hp3⟩,
      (tdmaOk_iff patDx patSx patIs).2
        ⟨h.tdmaFrame, h.tdmaSync, h.tdmaWindows, h.period, h.slotStart, h.slotType⟩⟩,
      h.header, (frameTypes_ok_iff patP2).2 h.frames⟩, h.proto3⟩

section
variable {p : Params} (h : paramsOk p = true)
include h

theorem patternListLegal_of_paramsOk (u : UnitId) : patternListLegal (patterns p u) := by
  obtain ⟨patDx, patSx, ⟨patIs, -⟩, ⟨patP2, -⟩, patP3, -⟩ := ((paramsOk_iff p).1 h).patterns
  cases u <;> assumption

/-- The frame of a TDMA unit is its sync field with PRE_T bits before and after it, at least one of them
(00_scope.md R9, 42_frame_common.md R203). -/
theorem frame_around_sync {u : UnitId} (hu : locksTdma u ∨ u = .is) :
    2 * preT p u + syncLen p u = p.fT ∧ 1 ≤ preT p u := by
  have hlegal := patternListLegal_of_paramsOk h u
  have hmem : ∀ q ∈ patterns p u, q ∈ p.patDx ++ p.patSx ++ p.patIs := by
    rcases hu with (rfl | rfl | rfl) | rfl <;> simp +contextual [patterns]
  obtain ⟨hlen, hmod⟩ := (forall_len_iff hlegal fun n => n + 2 ≤ p.fT ∧ (p.fT - n) % 2 = 0).1
    fun q hq => ((paramsOk_iff p).1 h).tdmaFrame q (hmem q hq)
  unfold preT
  omega
end

/-! ### What a step answers -/

/-- Every agent answers (60_exceptions.md R433). -/
theorem stepAgent_next (a : Agent) (s : State) : ∃ t, stepAgent a s = .next t := by
  have hrun (w : Word) (x : State) : ∃ t, runWord w x = .next t := by
    unfold runWord
    split
    · exact ⟨_, rfl⟩
    · split
      · exact exec_next _ x
      · exact ⟨_, rfl⟩
      · exact ⟨_, rfl⟩
  cases a
  case prod =>
    rw [stepAgent, stepProd]
    split
    · exact ⟨_, rfl⟩
    · exact hrun _ _
  case cons =>
    rw [stepAgent, stepCons]
    split
    · exact ⟨_, rfl⟩
    · split
      · exact ⟨_, rfl⟩
      · exact hrun _ _
  all_goals exact ⟨_, rfl⟩

theorem step_next {s : State} (h : paramsOk s.par = true) : ∃ t, step s = .next t := by
  rw [step_of_paramsOk h]
  unfold stepMove
  split
  · exact stepAgent_next _ _
  · exact ⟨_, rfl⟩
  · exact stepAgent_next _ _

end Sys2Proof.Machine
end

section
/-! What each command does on its own port, one equation per branch, and what any command can do to the
state, said once (30_encoding.md R118 to R121, 40_ring_buffer.md, 48_control.md). -/

namespace Sys2Proof.Machine

open Sys2Proof

section
variable {s : State}

/-! ### The producer's commands -/

theorem exec_rbPut_stored (hp : s.port = .producer) (h : occW s ≠ capacity s.par) (b : Bool) (g : Tag) :
    exec (.rbPut b g) s = .next ((ringPush s ⟨b, g⟩).answer 0) := by
  simp [exec, execRbPut, onPort_same hp, isFull, h]

theorem exec_rbPut_full (hp : s.port = .producer) (h : occW s = capacity s.par) (b : Bool) (g : Tag) :
    exec (.rbPut b g) s = .next ((ringOverflow s).fail .full) := by
  simp [exec, execRbPut, onPort_same hp, isFull, h]

theorem exec_rbPspace (hp : s.port = .producer) :
    exec .rbPspace s = .next (s.answer (BitVec.ofNat 24 (capacity s.par - occW s))) := by
  simp only [exec, execRbPspace, onPort_same hp]

/-! ### The consumer's commands -/

theorem exec_rbGet_taken (hp : s.port = .consumer) (h : occR s ≠ 0) :
    exec .rbGet s = .next ((ringPop s).answer (sampleResult (ringEntry s s.rb.rptr))) := by
  simp [exec, execRbGet, onPort_same hp, isEmpty, h]

theorem exec_rbGet_empty (hp : s.port = .consumer) (h : occR s = 0) :
    exec .rbGet s = .next (s.fail .empty) := by
  simp [exec, execRbGet, onPort_same hp, isEmpty, h]

theorem exec_rbSpace (hp : s.port = .consumer) :
    exec .rbSpace s = .next (s.answer (BitVec.ofNat 24 (capacity s.par - occR s))) := by
  simp only [exec, execRbSpace, onPort_same hp]

theorem exec_rbOcc (hp : s.port = .consumer) :
    exec .rbOcc s = .next (s.answer (BitVec.ofNat 24 (occR s))) := by
  simp only [exec, execRbOcc, onPort_same hp]

theorem exec_rbOvfclr (hp : s.port = .consumer) :
    exec .rbOvfclr s = .next ({ s with rb := { s.rb with ovfAck := s.rb.ovfV } }.answer
      ((BitVec.ofBool (overflowFlag s)).setWidth 24)) := by
  simp only [exec, execRbOvfclr, onPort_same hp]

theorem exec_rbFlush (hp : s.port = .consumer) :
    exec .rbFlush s = .next (startFlush none s) := by
  simp only [exec, execRbFlush, onPort_same hp]

theorem exec_feed_taken (hp : s.port = .consumer) (h : occR s ≠ 0) :
    exec .feed s = .next ((route (ringEntry s s.rb.rptr).bit (ringEntry s s.rb.rptr).tag
      (ringPop s)).answer (routedResult (s.mode != .idle) (ringEntry s s.rb.rptr))) := by
  simp [exec, execFeed, onPort_same hp, isEmpty, h]

theorem exec_feed_empty (hp : s.port = .consumer) (h : occR s = 0) :
    exec .feed s = .next (s.fail .empty) := by
  simp [exec, execFeed, onPort_same hp, isEmpty, h]

theorem exec_databit (hp : s.port = .consumer) (b : Bool) (g : Tag) : exec (.databit b g) s =
    .next ((route b g s).answer (routedResult (s.mode != .idle) ⟨b, g⟩)) := by
  simp only [exec, execDatabit, onPort_same hp]

section
variable {x : BitVec 4} {u : UnitId}

theorem exec_corPeek {idx : BitVec 4} {q : SyncPattern} (hp : s.port = .consumer)
    (hu : unitOf x = some u) (hq : (patterns s.par u)[idx.toNat]? = some q) :
    exec (.corPeek x idx) s = .next (s.answer (peekResult s u q)) := by
  simp [exec, execCorPeek, onPort_same hp, withUnit_some hu, hq]

theorem exec_statRd (hp : s.port = .consumer) (hu : unitOf x = some u) :
    exec (.statRd x) s = .next (s.answer (statBits (s.unit u) (unitActive s u))) := by
  simp [exec, execStatRd, onPort_same hp, withUnit_some hu]

theorem exec_fsmReset (hp : s.port = .consumer) (hu : unitOf x = some u) :
    exec (.fsmReset x) s = .next ((resetUnit u s).answer 0) := by
  simp [exec, execFsmReset, onPort_same hp, withUnit_some hu]
end

section
variable {x : BitVec 3} {m : Mode}

theorem exec_modeSet_enabled (hp : s.port = .consumer) (hm : modeOf x = some m)
    (h : modeEnabled s m = true) : exec (.modeSet x) s = .next (startFlush (some m) s) := by
  simp [exec, execModeSet, onPort_same hp, hm, h]

theorem exec_modeSet_disabled (hp : s.port = .consumer) (hm : modeOf x = some m)
    (h : modeEnabled s m = false) : exec (.modeSet x) s = .next (s.fail .disabled) := by
  simp [exec, execModeSet, onPort_same hp, hm, h]
end

theorem exec_cfgWr {reg : BitVec 8} {value : BitVec 16} {c : CfgRegs} (hp : s.port = .consumer)
    (hc : cfgWrite s.cfg reg value = some c) :
    exec (.cfgWr reg value) s = .next ({ s with cfg := c }.answer 0) := by
  simp [exec, execCfgWr, onPort_same hp, hc]

theorem exec_cfgRd {reg : BitVec 8} {v : BitVec 24} (hp : s.port = .consumer)
    (hv : cfgRead s reg = some v) : exec (.cfgRd reg) s = .next (s.answer v) := by
  simp [exec, execCfgRd, onPort_same hp, hv]
end

/-! ### What a command can do -/

/-- What a command can do to the state, the response word being left open. -/
inductive Effect (s : State) : Instr → State → Prop
  /-- Nothing: a query, a NOP, or an error status. -/
  | unchanged (i : Instr) (w : Word) : Effect s i (s.respondOn s.port w)
  /-- RB_PUT with status OK. -/
  | put (x : Sample) (w : Word) (h : occW s ≠ capacity s.par) :
      Effect s (.rbPut x.bit x.tag) ((ringPush s x).respondOn s.port w)
  /-- RB_PUT with status FULL. -/
  | overflow (b : Bool) (g : Tag) (w : Word) (h : occW s = capacity s.par) :
      Effect s (.rbPut b g) ((ringOverflow s).respondOn s.port w)
  /-- RB_GET with status OK. -/
  | get (w : Word) (hp : s.port = .consumer) (h : occR s ≠ 0) :
      Effect s .rbGet ((ringPop s).respondOn s.port w)
  /-- RB_OVFCLR. -/
  | ovfclr (w : Word) :
      Effect s .rbOvfclr ({ s with rb := { s.rb with ovfAck := s.rb.ovfV } }.respondOn s.port w)
  /-- FEED with status OK. -/
  | feed (w : Word) (hp : s.port = .consumer) (h : occR s ≠ 0) :
      Effect s .feed ((route (ringEntry s s.rb.rptr).bit (ringEntry s s.rb.rptr).tag
        (ringPop s)).respondOn s.port w)
  /-- DATABIT. -/
  | databit (b : Bool) (g : Tag) (w : Word) :
      Effect s (.databit b g) ((route b g s).respondOn s.port w)
  /-- FSM_RESET of a unit. -/
  | fsmReset (x : BitVec 4) (u : UnitId) (w : Word) :
      Effect s (.fsmReset x) ((resetUnit u s).respondOn s.port w)
  /-- CFG_WR of a register. -/
  | cfgWr (reg : BitVec 8) (value : BitVec 16) (c : CfgRegs) (w : Word) :
      Effect s (.cfgWr reg value) ({ s with cfg := c }.respondOn s.port w)
  /-- RB_FLUSH, or MODE_SET to an enabled mode. -/
  | flush (i : Instr) (act : Option Mode) (hi : i.opcode = .rbFlush ∨ i.opcode = .modeSet)
      (hp : s.port = .consumer) : Effect s i (startFlush act s)

section
variable {s t : State}

theorem Effect.of_answer {i : Instr} {result : BitVec 24} (h : t = s.answer result) :
    Effect s i t := h ▸ .unchanged i _

theorem Effect.of_fail {i : Instr} {c : Status} (h : t = s.fail c) : Effect s i t :=
  h ▸ .unchanged i _

/-- The port check: on the other port nothing happens. -/
theorem effect_onPort {i : Instr} {p : Port} {run : State → State} (h : onPort p s run = .next t)
    (hrun : s.port = p → Effect s i (run s)) : Effect s i t := by
  by_cases hp : s.port = p
  · rw [onPort_same hp] at h
    cases h
    exact hrun hp
  · rw [onPort_other hp] at h
    cases h
    exact .of_fail rfl

theorem effect_withUnit {i : Instr} {x : BitVec 4} {run : UnitId → State → State}
    (hrun : ∀ u, Effect s i (run u s)) : Effect s i (withUnit x s run) := by
  cases hu : unitOf x with
  | none => exact .of_fail (withUnit_none hu)
  | some u => rw [withUnit_some hu]; exact hrun u

/-- What every command does, on either port. -/
theorem exec_effect {i : Instr} (h : exec i s = .next t) : Effect s i t := by
  cases i <;> simp only [exec, execNop, execRbPut, execRbPspace, execRbGet, execRbSpace, execRbOcc,
    execRbOvfclr, execRbFlush, execFeed, execDatabit, execCorPeek, execStatRd, execFsmReset,
    execModeSet, execCfgWr, execCfgRd] at h
  case nop hint => cases h; exact .of_answer rfl
  case rbPut b g =>
    refine effect_onPort h fun _ => ?_
    split
    · next hfull => exact .overflow b g _ (by simpa [isFull] using hfull)
    · next hroom => exact .put ⟨b, g⟩ _ (by simpa [isFull] using hroom)
  case rbGet =>
    refine effect_onPort h fun hp => ?_
    split
    · exact .of_fail rfl
    · next hocc => exact .get _ hp (by simpa [isEmpty] using hocc)
  case rbOvfclr => exact effect_onPort h fun _ => .ovfclr _
  case rbFlush => exact effect_onPort h fun hp => .flush _ _ (.inl rfl) hp
  case feed =>
    refine effect_onPort h fun hp => ?_
    split
    · exact .of_fail rfl
    · next hocc =>
      rw [answer_eq, port_route]
      exact .feed _ hp (by simpa [isEmpty] using hocc)
  case databit b g =>
    refine effect_onPort h fun hp => ?_
    rw [answer_eq, port_route]
    exact .databit b g _
  case fsmReset x =>
    refine effect_onPort h fun _ => effect_withUnit fun u => ?_
    rw [answer_eq, port_resetUnit]
    exact .fsmReset x u _
  case modeSet x =>
    refine effect_onPort h fun hp => ?_
    split
    · exact .of_fail rfl
    · split
      · exact .flush _ _ (.inr rfl) hp
      · exact .of_fail rfl
  case cfgWr reg value =>
    refine effect_onPort h fun _ => ?_
    split
    · exact .of_fail rfl
    · exact .cfgWr reg value _ _
  case cfgRd reg =>
    refine effect_onPort h fun _ => ?_
    split
    · exact .of_fail rfl
    · exact .of_answer rfl
  case corPeek x idx =>
    refine effect_onPort h fun _ => effect_withUnit fun u => ?_
    split
    · exact .of_fail rfl
    · exact .of_answer rfl
  case statRd x => exact effect_onPort h fun _ => effect_withUnit fun u => .of_answer rfl
  all_goals exact effect_onPort h fun _ => .of_answer rfl
end

/-! ### The frame of routing and of mode activation: they change units, events and draws alone -/

/-- `s` with the units, the events and the draws of `t`. -/
def State.withUnitsOf (s t : State) : State :=
  { s with
    events := t.events, draws := t.draws, dx1 := t.dx1, dx2 := t.dx2, sx := t.sx, is := t.is,
    p2 := t.p2, p3 := t.p3, slot1 := t.slot1, slot2 := t.slot2, hdr := t.hdr }

theorem withUnitsOf_trans {s t x : State} (ht : t = s.withUnitsOf t) (hx : x = t.withUnitsOf x) :
    x = s.withUnitsOf x := by
  rw [ht] at hx
  exact hx

theorem OnlyUnit.eq_withUnitsOf {u : UnitId} {s t : State} (h : OnlyUnit u s t) :
    t = s.withUnitsOf t := by
  simp [State.withUnitsOf, ← h.par, ← h.rst, ← h.moves, ← h.turn, ← h.prodIn, ← h.consIn, ← h.port,
    ← h.prodResp, ← h.consResp, ← h.mode, ← h.cfg, ← h.rb, ← h.flush]

/-- Operations on units, one after the other, stay in the units. -/
theorem foldl_eq_withUnitsOf {f : State → UnitId → State} (hf : ∀ s u, OnlyUnit u s (f s u))
    (l : List UnitId) (s : State) : l.foldl f s = s.withUnitsOf (l.foldl f s) :=
  List.foldlRecOn (motive := fun t => t = s.withUnitsOf t) l f rfl
    fun t ht u _ => withUnitsOf_trans ht (hf t u).eq_withUnitsOf

theorem route_eq_withUnitsOf (b : Bool) (g : Tag) (s : State) :
    route b g s = s.withUnitsOf (route b g s) :=
  foldl_eq_withUnitsOf (fun s u => onlyUnit_unitBit u b g s) _ s

theorem exists_activate_eq (m : Mode) (s : State) :
    ∃ x, activate m s = { s.withUnitsOf x with mode := m } :=
  ⟨_, congrArg (fun x : State => { x with mode := m })
    (foldl_eq_withUnitsOf (fun s u => onlyUnit_activateUnit u s) allUnits s)⟩

section
variable (b : Bool) (g : Tag) (s : State)

@[simp] theorem par_route : (route b g s).par = s.par := by rw [route_eq_withUnitsOf]; rfl

@[simp] theorem rst_route : (route b g s).rst = s.rst := by rw [route_eq_withUnitsOf]; rfl

@[simp] theorem moves_route : (route b g s).moves = s.moves := by rw [route_eq_withUnitsOf]; rfl

@[simp] theorem turn_route : (route b g s).turn = s.turn := by rw [route_eq_withUnitsOf]; rfl

@[simp] theorem prodIn_route : (route b g s).prodIn = s.prodIn := by rw [route_eq_withUnitsOf]; rfl

@[simp] theorem consIn_route : (route b g s).consIn = s.consIn := by rw [route_eq_withUnitsOf]; rfl

@[simp] theorem prodResp_route : (route b g s).prodResp = s.prodResp := by
  rw [route_eq_withUnitsOf]; rfl

@[simp] theorem mode_route : (route b g s).mode = s.mode := by rw [route_eq_withUnitsOf]; rfl

@[simp] theorem cfg_route : (route b g s).cfg = s.cfg := by rw [route_eq_withUnitsOf]; rfl

@[simp] theorem rb_route : (route b g s).rb = s.rb := by rw [route_eq_withUnitsOf]; rfl

@[simp] theorem flush_route : (route b g s).flush = s.flush := by rw [route_eq_withUnitsOf]; rfl
end

/-! ### The end of a flush -/

theorem finishFlush_none (total : Nat) (s : State) : finishFlush total none s =
    s.respondOn .consumer (responseWord .ok (BitVec.ofNat 24 total)) := rfl

theorem finishFlush_some (total : Nat) (m : Mode) (s : State) : finishFlush total (some m) s =
    (activate m s).respondOn .consumer (responseWord .ok (BitVec.ofNat 24 total)) := rfl

/-- The end of a flush changes nothing but the response, and the units and the mode for a MODE_SET. -/
theorem finishFlush_frame (total : Nat) (act : Option Mode) (s : State) :
    (finishFlush total act s).par = s.par ∧ (finishFlush total act s).rb = s.rb ∧
      (finishFlush total act s).flush = s.flush ∧ (finishFlush total act s).cfg = s.cfg ∧
      (finishFlush total act s).events = s.events ∧ (finishFlush total act s).consIn = s.consIn := by
  cases act with
  | none => simp [finishFlush_none]
  | some m =>
    obtain ⟨hpar, hcfg, hrb, hev, -, -, hfl, -⟩ := activate_frame m s
    have hin : (activate m s).consIn = s.consIn := by
      obtain ⟨x, hx⟩ := exists_activate_eq m s
      rw [hx]
      rfl
    simp [finishFlush_some, hpar, hcfg, hrb, hev, hfl, hin]

/-! ### No step changes the parameters (70_reset_and_hazards.md R475) -/

@[simp] theorem par_resetUnit (u : UnitId) (s : State) : (resetUnit u s).par = s.par :=
  (onlyUnit_resetUnit u s).par

theorem par_startFlush (act : Option Mode) (s : State) : (startFlush act s).par = s.par := by
  rcases startFlush_cases act s with ⟨-, h⟩ | ⟨-, h⟩ <;> rw [h]
  exact (finishFlush_frame 0 act s).1

theorem par_flushStep (job : FlushJob) (s : State) : (flushStep job s).par = s.par := by
  rcases flushStep_cases job s with ⟨-, h⟩ | ⟨-, h⟩ <;> rw [h]
  · exact (finishFlush_frame _ _ _).1
  · rfl

theorem Effect.par {s t : State} {i : Instr} (h : Effect s i t) : t.par = s.par := by
  cases h
  case flush act _ _ => exact par_startFlush act s
  case feed w _ _ => rw [par_respondOn, par_route, ringPop_rb]
  all_goals simp [ringPush, ringOverflow, ringPop]

theorem par_runWord {w : Word} {s t : State} (h : runWord w s = .next t) : t.par = s.par := by
  rcases runWord_cases h with ⟨-, rfl⟩ | ⟨-, i, -, hi⟩ | ⟨-, c, -, rfl⟩
  · rfl
  · exact (exec_effect hi).par
  · exact par_respondOn s s.port _

theorem par_stepAgent {a : Agent} {s t : State} (h : stepAgent a s = .next t) : t.par = s.par := by
  rcases stepAgent_cases h with ⟨w, ws, -, -, h⟩ | ⟨-, -, rfl⟩ | ⟨job, -, -, rfl⟩ |
    ⟨w, ws, -, -, -, h⟩ | ⟨-, -, -, rfl⟩ | ⟨-, rfl⟩ | ⟨-, rfl⟩ | ⟨-, rfl⟩
  case inr.inr.inl => exact par_flushStep job _
  all_goals first | rfl | exact (par_runWord h :)

theorem par_step {s t : State} (h : step s = .next t) : t.par = s.par := by
  obtain ⟨-, ⟨a, rest, -, h⟩ | ⟨level, rest, -, rfl⟩ | ⟨-, h⟩⟩ := step_cases h
  · exact (par_stepAgent h :)
  · rcases setRst_cases level { s with moves := rest } with ⟨-, h⟩ | ⟨-, -, h⟩ <;> rw [h]
    rfl
  · exact (par_stepAgent h :)

/-- Settles O1: the check of `step` is the list of constraints, and every agent answers. -/
theorem stepRefusesExactlyBadParameters : Obligations.StepRefusesExactlyBadParameters := by
  unfold Obligations.StepRefusesExactlyBadParameters
  refine ⟨fun s => ⟨fun hbad => ?_, fun hgood => ?_⟩, fun p => ?_⟩
  · rw [← paramsOk_iff] at hbad
    exact if_neg hbad
  · obtain ⟨t, ht⟩ := step_next ((paramsOk_iff s.par).2 hgood)
    exact ⟨t, ht, par_step ht⟩
  · refine ⟨paramsOk_iff p, rfl, rfl, rfl, rfl, fun hp u => ⟨?_, fun hu => ?_⟩,
      fun v => ⟨rfl, rfl⟩, fun x => ⟨rfl, rfl⟩⟩
    · exact len_eq_syncLen (patternListLegal_of_paramsOk hp u)
    · exact (frame_around_sync hp hu).1

/-! ### Steps that take a command word (00_scope.md R8, R14) -/

section
variable {s : State}

theorem step_of_turn (hp : paramsOk s.par = true) (hm : s.moves = []) :
    step s = stepAgent s.turn { s with turn := nextTurn s.turn } := by
  rw [step_of_paramsOk hp, stepMove, hm]

theorem stepAgent_prod_cons {w : Word} {ws : List Word} (h : s.prodIn = w :: ws) :
    stepAgent .prod s = runWord w { s with port := .producer, prodIn := ws } := by
  rw [stepAgent, stepProd, h]

theorem stepAgent_cons_cons {w : Word} {ws : List Word} (hf : s.flush = none)
    (h : s.consIn = w :: ws) :
    stepAgent .cons s = runWord w { s with port := .consumer, consIn := ws } := by
  rw [stepAgent, stepCons, hf, h]

/-- A move of PROD takes the next word of its port. -/
theorem step_prodMove {w : Word} {ws : List Word} {rest : List Move} (hp : paramsOk s.par = true)
    (hm : s.moves = .agent .prod :: rest) (hin : s.prodIn = w :: ws) :
    step s = runWord w { s with moves := rest, prodIn := ws, port := .producer } :=
  (step_of_agentMove hp hm).trans (stepAgent_prod_cons (s := { s with moves := rest }) hin)

/-- A move of CONS takes the next word of its port, outside a flush. -/
theorem step_consMove {w : Word} {ws : List Word} {rest : List Move} (hp : paramsOk s.par = true)
    (hm : s.moves = .agent .cons :: rest) (hf : s.flush = none) (hin : s.consIn = w :: ws) :
    step s = runWord w { s with moves := rest, consIn := ws, port := .consumer } :=
  (step_of_agentMove hp hm).trans (stepAgent_cons_cons (s := { s with moves := rest }) hf hin)

theorem runWord_of_rst {w : Word} (hr : s.rst = true) : runWord w s = .next s := if_pos hr
end

/-- A placed command goes to the producer port if it is a producer command, else to the consumer
port. -/
theorem placeWord_encode (i : Instr) (s : State) : placeWord (encode i) s =
    if i.opcode = .rbPut ∨ i.opcode = .rbPspace then
      { s with rst := false, moves := .agent .prod :: s.moves, prodIn := encode i :: s.prodIn }
    else
      { s with rst := false, flush := none, moves := .agent .cons :: s.moves,
               consIn := encode i :: s.consIn } := by
  have hport : ((Opcode.ofByte? (opField (encode i))).any fun op => !op.onConsumer) = true ↔
      (i.opcode = .rbPut ∨ i.opcode = .rbPspace) := by
    rw [(Laws.opByte i).2]
    cases i.opcode <;> decide
  simp only [placeWord, hport]

/-- Settles O2: a word an agent takes runs as the command it decodes to. -/
theorem stepRunsDecodedCommand : Obligations.StepRunsDecodedCommand := by
  unfold Obligations.StepRunsDecodedCommand
  intro s w ws i hp
  refine ⟨fun hr hdec => ⟨fun rest hm hin => ?_, fun rest hm hf hin => ?_, fun hm ht hin => ?_,
    fun hm ht hf hin => ?_⟩, ?_⟩
  · exact (step_prodMove hp hm hin).trans (runWord_of_command hr hdec)
  · exact (step_consMove hp hm hf hin).trans (runWord_of_command hr hdec)
  · rw [step_of_turn hp hm, ht, nextTurn, stepAgent_prod_cons (s := { s with turn := .cons }) hin]
    exact runWord_of_command hr hdec
  · rw [step_of_turn hp hm, ht, nextTurn,
      stepAgent_cons_cons (s := { s with turn := .syncW2r }) hf hin]
    exact runWord_of_command hr hdec
  · have hword : BitVec.ofNat 32 ((encode i).toNat % 2 ^ 32) = encode i := by
      rw [Nat.mod_eq_of_lt (encode i).isLt, BitVec.ofNat_toNat, BitVec.setWidth_eq]
    rw [State.withFetchWord, hword, placeWord_encode]
    split
    · refine Eq.trans (step_prodMove hp rfl rfl) ?_
      exact runWord_of_command rfl (decode_encode i)
    · refine Eq.trans (step_consMove hp rfl rfl rfl) ?_
      exact runWord_of_command rfl (decode_encode i)

/-- A move of the reset input is made at once, whatever the agents are doing. -/
theorem step_of_rstMove {s : State} {level : Bool} {rest : List Move} (hp : paramsOk s.par = true)
    (hm : s.moves = .rst level :: rest) : step s = .next (setRst level { s with moves := rest }) := by
  rw [step_of_paramsOk hp, stepMove, hm]

/-- Settles O3: the move puts the power-on values, and a word taken under `rst` is dropped. -/
theorem resetInputHoldsTheCore : Obligations.ResetInputHoldsTheCore := by
  unfold Obligations.ResetInputHoldsTheCore
  intro s rest hp
  refine ⟨fun level hm hlevel => ?_, fun w ws hr hm hin => ?_, fun w ws hr hm hf hin => ?_⟩
  · rw [step_of_rstMove hp hm]
    rcases setRst_cases level { s with moves := rest } with ⟨-, h⟩ | ⟨hlow, hr, -⟩
    · rw [h]; rfl
    · rcases hlevel with h | h
      · exact absurd (h.symm.trans hlow) (by decide)
      · exact absurd (h.symm.trans hr) (by decide)
  · exact (step_prodMove hp hm hin).trans (runWord_of_rst hr)
  · exact (step_consMove hp hm hf hin).trans (runWord_of_rst hr)

/-- Settles O4: the power-on values are those of activation, register by register. -/
theorem powerOnIsIdleActivation : Obligations.PowerOnIsIdleActivation := by
  unfold Obligations.PowerOnIsIdleActivation
  intro p s
  have hunit (u : UnitId) : (State.powerOn p).unit u = .powerOn := by cases u <;> rfl
  have hslot (k : SlotId) : (State.powerOn p).slot k = .powerOn := by cases k <;> rfl
  have hocc : modSub (2 * capacity p) 0 0 = 0 := by
    have := capacity_pos p
    simp [modSub_of_lt (m := 2 * capacity p) (a := 0) (b := 0) (by omega) (by omega)]
  refine ⟨fun u => ?_, fun k => ?_, ?_, rfl, rfl, rfl, hocc, hocc, hocc, rfl, rfl, fun reg v hv => ?_,
    rfl, rfl, rfl, rfl, hunit, hslot, rfl⟩
  · rw [hunit, (activate_atRest .idle s u).1]
  · rw [hslot]
    cases k
    · exact ((activate_atRest .idle s .dx1).2.1 .slot1 rfl).symm
    · exact ((activate_atRest .idle s .dx2).2.1 .slot2 rfl).symm
  · exact ((activate_atRest .idle s .p2).2.2 rfl).symm
  · unfold cfgRead at hv
    split at hv <;> cases hv <;> rfl

end Sys2Proof.Machine
end

section
/-! The ring-buffer invariant (10_state.md R43, 40_ring_buffer.md R155): what each transfer, each
synchroniser step and the flush do to the four pointers. -/

namespace Sys2Proof.Machine

open Sys2Proof

/-- `(a - b) mod m` of register values, as the two cases that arithmetic needs. -/
theorem modSub_cases {m a b : Nat} (ha : a < m) (hb : b < m) :
    (b ≤ a ∧ modSub m a b = a - b) ∨ (a < b ∧ modSub m a b = a + m - b) := by
  rw [modSub_of_lt ha hb]
  split <;> omega

theorem nextPtr_cases {p : Params} {x : Nat} (hx : x < 2 * capacity p) :
    (x + 1 = 2 * capacity p ∧ nextPtr p x = 0) ∨ (x + 1 < 2 * capacity p ∧ nextPtr p x = x + 1) := by
  rw [nextPtr_of_lt hx]
  split <;> omega

theorem nextPtr_lt (p : Params) (x : Nat) : nextPtr p x < 2 * capacity p :=
  Nat.mod_lt _ (Nat.mul_pos Nat.two_pos (capacity_pos p))

section
variable {s t : State}

/-- Outside the flush the invariant is about the parameters and the ring buffer alone. -/
theorem ringInvariant_congr (hp : t.par = s.par) (hr : t.rb = s.rb) (hf : t.flush = s.flush)
    (h : ringInvariant s) : ringInvariant t := by
  simpa only [ringInvariant, pointersInRange, grayInStep, pointersInOrder, flushInView, lagR, lagW,
    occR, hp, hr, hf] using h

/-- The order of the pointers gives the order of the three occupancies (R43). -/
theorem occupancies_in_order (h : ringInvariant s) :
    occR s + lagW s = occT s ∧ lagR s + occT s = occW s ∧ occW s ≤ capacity s.par := by
  obtain ⟨⟨hw, hr, hwv, hrv⟩, -, hord, -⟩ := h
  unfold pointersInOrder lagR occR lagW at hord
  unfold lagR occR occT occW lagW
  have := modSub_cases hr hrv
  have := modSub_cases hwv hr
  have := modSub_cases hw hwv
  have := modSub_cases hw hr
  have := modSub_cases hw hrv
  omega

/-! ### What moves a pointer -/

/-- A put into a buffer that is not full in the producer's view. -/
theorem ringInvariant_ringPush {x : Sample} (h : ringInvariant s) (hroom : occW s ≠ capacity s.par) :
    ringInvariant (ringPush s x) := by
  have hocc := occupancies_in_order h
  obtain ⟨⟨hw, hr, hwv, hrv⟩, ⟨-, hg, ho⟩, hord, hflush⟩ := h
  refine ⟨⟨nextPtr_lt _ _, hr, hwv, hrv⟩, ⟨rfl, hg, ho⟩, ?_, hflush⟩
  unfold occW occR occT lagW lagR at *
  unfold pointersInOrder lagR occR lagW at *
  simp only [ringPush] at *
  have := nextPtr_cases hw
  have := modSub_cases hw hwv
  have := modSub_cases hr hrv
  have := modSub_cases hwv hr
  have := modSub_cases (nextPtr_lt s.par s.rb.wptr) hwv
  omega

/-- Taking a sample in the consumer's view, where no flush has counted on it. -/
theorem ringInvariant_ringPop (h : ringInvariant s) (hocc : occR s ≠ 0) (hf : s.flush = none) :
    ringInvariant (ringPop s) := by
  obtain ⟨⟨hw, hr, hwv, hrv⟩, ⟨hg, -, ho⟩, hord, -⟩ := h
  refine ⟨⟨hw, nextPtr_lt _ _, hwv, hrv⟩, ⟨hg, rfl, ho⟩, ?_, fun job hj => ?_⟩
  · unfold pointersInOrder lagR occR lagW at *
    simp only [ringPop] at *
    have := nextPtr_cases hr
    have := modSub_cases hr hrv
    have := modSub_cases hwv hr
    have := modSub_cases (nextPtr_lt s.par s.rb.rptr) hrv
    have := modSub_cases hwv (nextPtr_lt s.par s.rb.rptr)
    omega
  · rw [ringPop_rb, hf] at hj
    cases hj

/-- Taking a sample takes one from the consumer's view. -/
theorem occR_ringPop (h : pointersInRange s) (hocc : occR s ≠ 0) :
    occR (ringPop s) = occR s - 1 := by
  obtain ⟨-, hr, hwv, -⟩ := h
  unfold occR at *
  simp only [ringPop] at *
  have := nextPtr_cases hr
  have := modSub_cases hwv hr
  have := modSub_cases hwv (nextPtr_lt s.par s.rb.rptr)
  omega

theorem ringInvariant_syncW2r (h : ringInvariant s) : ringInvariant (syncW2r s) := by
  have hocc := occupancies_in_order h
  obtain ⟨⟨hw, hr, hwv, hrv⟩, hgray, hord, hflush⟩ := h
  have hview : occR (syncW2r s) = occT s := rfl
  refine ⟨⟨hw, hr, hw, hrv⟩, hgray, ?_, fun job hj => ?_⟩
  · have hlag : lagW (syncW2r s) = 0 := by
      have := modSub_cases hw hw
      simp only [lagW, syncW2r]
      omega
    have hkeep : lagR (syncW2r s) = lagR s := rfl
    unfold pointersInOrder
    rw [hview, hlag, hkeep]
    change _ ≤ capacity s.par
    omega
  · obtain ⟨h1, h2, h3⟩ := hflush job hj
    exact ⟨h1, h2, by omega⟩

theorem ringInvariant_syncR2w (h : ringInvariant s) : ringInvariant (syncR2w s) := by
  obtain ⟨⟨hw, hr, hwv, hrv⟩, hgray, hord, hflush⟩ := h
  refine ⟨⟨hw, hr, hwv, hr⟩, hgray, ?_, hflush⟩
  have hlag : lagR (syncR2w s) = 0 := by
    have := modSub_cases hr hr
    simp only [lagR, syncR2w]
    omega
  unfold pointersInOrder at *
  rw [hlag]
  change 0 + occR s + lagW s ≤ capacity s.par
  omega

/-! ### The flush -/

/-- The end of a flush leaves the pointers, and no flush where there was none. -/
theorem ringInvariant_finishFlush {total : Nat} {act : Option Mode} (h : ringInvariant s) :
    ringInvariant (finishFlush total act s) := by
  obtain ⟨hpar, hrb, hflush, -⟩ := finishFlush_frame total act s
  exact ringInvariant_congr hpar hrb hflush h

theorem ringInvariant_startFlush {act : Option Mode} (h : ringInvariant s) :
    ringInvariant (startFlush act s) := by
  rcases startFlush_cases act s with ⟨-, e⟩ | ⟨hocc, e⟩ <;> rw [e]
  · exact ringInvariant_finishFlush h
  · obtain ⟨hrange, hgray, hord, -⟩ := h
    refine ⟨hrange, hgray, hord, fun job hj => ?_⟩
    cases hj
    exact ⟨Nat.pos_of_ne_zero hocc, Nat.le_refl _, Nat.le_refl _⟩

/-- A micro-step takes one of the samples that the flush still has in view. -/
theorem ringInvariant_flushStep {job : FlushJob} (h : ringInvariant s) (hj : s.flush = some job) :
    ringInvariant (flushStep job s) := by
  obtain ⟨hleft, htotal, hview⟩ := h.2.2.2 job hj
  have hocc : occR s ≠ 0 := by omega
  have hnone : ringInvariant { s with flush := none } :=
    ⟨h.1, h.2.1, h.2.2.1, fun job hj => by cases hj⟩
  have hpop : ringInvariant { ringPop s with flush := none } :=
    ringInvariant_ringPop hnone hocc rfl
  rcases flushStep_cases job s with ⟨-, e⟩ | ⟨hmore, e⟩ <;> rw [e]
  · exact ringInvariant_finishFlush hpop
  · refine ⟨hpop.1, hpop.2.1, hpop.2.2.1, fun job' hj' => ?_⟩
    cases hj'
    have hcount : occR { ringPop s with flush := some { job with left := job.left - 1 } } =
        occR s - 1 := occR_ringPop h.1 hocc
    rw [hcount]
    dsimp only
    omega

/-! ### Commands and steps -/

/-- Every command keeps the invariant: the consumer starts none while its flush is in progress. -/
theorem Effect.ringInvariant {i : Instr} (h : Effect s i t)
    (hidle : s.port = .consumer → s.flush = none) (hs : ringInvariant s) : ringInvariant t := by
  have hresp {x : State} {w : Word} (hx : Machine.ringInvariant x) :
      Machine.ringInvariant (x.respondOn s.port w) :=
    ringInvariant_congr (par_respondOn _ _ _) (rb_respondOn _ _ _) (flush_respondOn _ _ _) hx
  cases h
  case unchanged w => exact hresp hs
  case put x w hroom => exact hresp (ringInvariant_ringPush hs hroom)
  case overflow w hfull =>
    obtain ⟨hrange, ⟨hg, hg', -⟩, hord, hflush⟩ := hs
    exact hresp ⟨hrange, ⟨hg, hg', rfl⟩, hord, hflush⟩
  case get w hp hocc => exact hresp (ringInvariant_ringPop hs hocc (hidle hp))
  case ovfclr w =>
    obtain ⟨hrange, hgray, hord, hflush⟩ := hs
    exact hresp ⟨hrange, hgray, hord, hflush⟩
  case feed w hp hocc =>
    exact hresp (ringInvariant_congr (par_route _ _ _) (rb_route _ _ _) (flush_route _ _ _)
      (ringInvariant_ringPop hs hocc (hidle hp)))
  case databit b g w =>
    exact hresp (ringInvariant_congr (par_route _ _ _) (rb_route _ _ _) (flush_route _ _ _) hs)
  case fsmReset x u w =>
    have o := onlyUnit_resetUnit u s
    exact hresp (ringInvariant_congr o.par o.rb o.flush hs)
  case cfgWr c w => exact hresp (ringInvariant_congr (s := s) rfl rfl rfl hs)
  case flush act hi hp => exact ringInvariant_startFlush hs

theorem ringInvariant_runWord {w : Word} (h : runWord w s = .next t)
    (hidle : s.port = .consumer → s.flush = none) (hs : ringInvariant s) : ringInvariant t := by
  rcases runWord_cases h with ⟨-, rfl⟩ | ⟨-, i, -, hi⟩ | ⟨-, c, -, rfl⟩
  · exact hs
  · exact (exec_effect hi).ringInvariant hidle hs
  · exact (Effect.of_fail (i := .rbGet) rfl).ringInvariant hidle hs

theorem ringInvariant_stepAgent {a : Agent} (h : stepAgent a s = .next t) (hs : ringInvariant s) :
    ringInvariant t := by
  rcases stepAgent_cases h with ⟨w, ws, -, -, h⟩ | ⟨-, -, rfl⟩ | ⟨job, -, hj, rfl⟩ |
    ⟨w, ws, -, hf, -, h⟩ | ⟨-, -, -, rfl⟩ | ⟨-, rfl⟩ | ⟨-, rfl⟩ | ⟨-, rfl⟩
  · exact ringInvariant_runWord h (by simp) (ringInvariant_congr (s := s) rfl rfl rfl hs)
  · exact ringInvariant_congr (s := s) rfl rfl rfl hs
  · exact ringInvariant_flushStep (ringInvariant_congr (s := s) rfl rfl rfl hs) hj
  · exact ringInvariant_runWord h (fun _ => hf) (ringInvariant_congr (s := s) rfl rfl rfl hs)
  · exact ringInvariant_congr (s := s) rfl rfl rfl hs
  · exact ringInvariant_syncW2r hs
  · exact ringInvariant_syncR2w hs
  · exact ⟨hs.1, hs.2.1, hs.2.2.1, hs.2.2.2⟩

/-- The pointers of an empty buffer with nothing written, as reset leaves them. -/
theorem ringInvariant_of_powerOn (hr : s.rb = .powerOn) (hf : s.flush = none) : ringInvariant s := by
  have hcap := capacity_pos s.par
  refine ⟨?_, ?_, ?_, fun job hj => ?_⟩
  · simp only [pointersInRange, hr, RingRegs.powerOn]
    omega
  · simp only [grayInStep, hr]
    decide
  · have hzero := modSub_cases (m := 2 * capacity s.par) (a := 0) (b := 0) (by omega) (by omega)
    simp only [pointersInOrder, lagR, occR, lagW, hr, RingRegs.powerOn]
    omega
  · rw [hf] at hj
    cases hj

theorem ringInvariant_step (h : step s = .next t) (hs : ringInvariant s) : ringInvariant t := by
  obtain ⟨-, ⟨a, rest, -, h⟩ | ⟨level, rest, -, rfl⟩ | ⟨-, h⟩⟩ := step_cases h
  · exact ringInvariant_stepAgent h (ringInvariant_congr (s := s) rfl rfl rfl hs)
  · rcases setRst_cases level { s with moves := rest } with ⟨-, h⟩ | ⟨-, -, h⟩ <;> rw [h]
    · exact ringInvariant_of_powerOn rfl rfl
    · exact ringInvariant_congr (s := s) rfl rfl rfl hs
  · exact ringInvariant_stepAgent h (ringInvariant_congr (s := s) rfl rfl rfl hs)
end

/-- Settles O22: each move of a pointer stays behind the pointer in front of it. -/
theorem ringInvariantKept : Obligations.RingInvariantKept := by
  unfold Obligations.RingInvariantKept
  refine ⟨fun s t hs h => ringInvariant_step h hs, fun s hs => ?_⟩
  obtain ⟨hR, hT, hW⟩ := occupancies_in_order hs
  exact ⟨by omega, by omega, hW⟩

end Sys2Proof.Machine
end

section
/-! The ring-buffer commands, one at a time (40_ring_buffer.md R144 to R150). -/

namespace Sys2Proof.Machine

open Sys2Proof

/-! ### Result words as numbers -/

/-- A response with status OK is its result (30_encoding.md R118). -/
theorem toNat_responseWord_ok (v : BitVec 24) : (responseWord .ok v).toNat = v.toNat := by
  simp only [responseWord, Status.code, toNat_append_eq, BitVec.ofNat_eq_ofNat, BitVec.toNat_ofNat]
  omega

theorem toNat_sampleResult (x : Sample) :
    (sampleResult x).toNat = 2 ^ 16 + 2 ^ 8 * x.tag.toNat + x.bit.toNat := by
  simp only [sampleResult, toNat_append_eq, BitVec.toNat_ofBool, BitVec.toNat_ofNat]
  omega

/-- A count of entries fits the result field, since L is at most 2^23 (00_scope.md R9). -/
theorem toNat_count {p : Params} (h : paramsOk p = true) {n : Nat} (hn : n ≤ capacity p) :
    (responseWord .ok (BitVec.ofNat 24 n)).toNat = n := by
  have hcap : capacity p ≤ 2 ^ 23 :=
    Nat.pow_le_pow_right (by decide) ((paramsOk_iff p).1 h).aw.2
  rw [toNat_responseWord_ok, BitVec.toNat_ofNat]
  exact Nat.mod_eq_of_lt (by omega)

section
variable {s : State}

theorem respondOn_of_consumer (hp : s.port = .consumer) (w : Word) :
    s.respondOn s.port w = { s with consResp := some w } := congrArg (s.respondOn · w) hp

theorem respondOn_of_producer (hp : s.port = .producer) (w : Word) :
    s.respondOn s.port w = { s with prodResp := some w } := congrArg (s.respondOn · w) hp

theorem answer_of_consumer (hp : s.port = .consumer) (v : BitVec 24) :
    s.answer v = { s with consResp := some (responseWord .ok v) } := respondOn_of_consumer hp _

theorem answer_of_producer (hp : s.port = .producer) (v : BitVec 24) :
    s.answer v = { s with prodResp := some (responseWord .ok v) } := respondOn_of_producer hp _

theorem fail_of_consumer (hp : s.port = .consumer) (c : Status) :
    s.fail c = { s with consResp := some (responseWord c 0) } := respondOn_of_consumer hp _

theorem fail_of_producer (hp : s.port = .producer) (c : Status) :
    s.fail c = { s with prodResp := some (responseWord c 0) } := respondOn_of_producer hp _

/-! ### RB_PUT (R144) -/

/-- The entries after a put: the new sample at `WPTR mod L`, the others as they were. -/
theorem ringEntry_ringPush (hmem : Memory.wf Sample.unwritten s.rb.mem = true) (x : Sample) (j : Nat) :
    ringEntry (ringPush s x) j =
      if j % capacity s.par = s.rb.wptr % capacity s.par then x else ringEntry s j :=
  read_write hmem _

/-- Settles O15: the two branches of a put. -/
theorem putStoresOrCounts : Obligations.PutStoresOrCounts := by
  unfold Obligations.PutStoresOrCounts
  intro b tag s hp
  refine ⟨fun hroom hcanon => ?_, fun hfull => ?_⟩
  · have hentry := ringEntry_ringPush hcanon.1 ⟨b, tag⟩
    refine ⟨{ ringPush s ⟨b, tag⟩ with prodResp := some 0 }, ?_, (hentry _).trans (if_pos rfl),
      fun j hj => (hentry j).trans (if_neg hj), rfl⟩
    rw [exec_rbPut_stored hp hroom]
    exact congrArg _ (answer_of_producer (s := ringPush s ⟨b, tag⟩) hp 0)
  · rw [exec_rbPut_full hp hfull]
    refine congrArg _ ((fail_of_producer (s := ringOverflow s) hp _).trans ?_)
    rw [ringOverflow_eq]
    rfl

/-! ### The counts of the views (R145, R147, R148) -/

/-- Settles O16: each query answers the count of its view, which fits the result field. -/
theorem spaceQueriesAnswer : Obligations.SpaceQueriesAnswer := by
  unfold Obligations.SpaceQueriesAnswer
  refine ⟨fun m a b hm => modSub_eq_emod hm a b, fun s => ⟨rfl, rfl, rfl⟩,
    fun s hpar hW hR => ⟨fun hp => ?_, fun hp => ?_⟩⟩
  · refine ⟨_, by rw [exec_rbPspace hp, answer_of_producer hp], ?_⟩
    rw [toNat_count hpar (Nat.sub_le _ _)]
    omega
  · refine ⟨_, _, by rw [exec_rbSpace hp, answer_of_consumer hp],
      by rw [exec_rbOcc hp, answer_of_consumer hp], ?_⟩
    rw [toNat_count hpar (Nat.sub_le _ _), toNat_count hpar hR]
    omega

/-! ### RB_GET and RB_OVFCLR (R146, R149) -/

/-- Settles O17: the two branches of a get. -/
theorem getTakesOldestSample : Obligations.GetTakesOldestSample := by
  unfold Obligations.GetTakesOldestSample
  refine fun s hp => ⟨fun hocc => ?_, fun hocc => ?_⟩
  · refine ⟨responseWord .ok (sampleResult (ringEntry s s.rb.rptr)), ?_, ?_⟩
    · rw [exec_rbGet_taken hp hocc]
      exact congrArg _ (answer_of_consumer (s := ringPop s) hp _)
    · rw [toNat_responseWord_ok, toNat_sampleResult]
  · rw [exec_rbGet_empty hp hocc, fail_of_consumer hp]
    rfl

/-- The response of RB_OVFCLR: 1 for an overflow since the last one, else 0. -/
theorem responseWord_overflowFlag (s : State) :
    responseWord .ok ((BitVec.ofBool (overflowFlag s)).setWidth 24) =
      if s.rb.ovfV ≠ s.rb.ovfAck then 1 else 0 := by
  by_cases h : s.rb.ovfV = s.rb.ovfAck
  · rw [overflowFlag, bne_eq_false_iff_eq.2 h, if_neg (not_not.2 h)]
    rfl
  · rw [overflowFlag, bne_iff_ne.2 h, if_pos h]
    rfl

/-- Settles O18. -/
theorem overflowReadAndCleared : Obligations.OverflowReadAndCleared := by
  unfold Obligations.OverflowReadAndCleared
  intro s hp
  rw [exec_rbOvfclr hp, ← responseWord_overflowFlag]
  exact congrArg _ (answer_of_consumer (s := { s with rb := { s.rb with ovfAck := s.rb.ovfV } }) hp _)

/-- Settles O25: OVF_CNT counts the failed puts modulo 256, and what RB_OVFCLR compares with it is the
count it acknowledged last. -/
theorem overflowReportedOnce : Obligations.OverflowReportedOnce := by
  have hcount (n : Nat) : ∀ s, (failedPuts n s).port = s.port ∧
      (failedPuts n s).rb.ovfAck = s.rb.ovfAck ∧
      (failedPuts n s).rb.ovfCnt = s.rb.ovfCnt + BitVec.ofNat 8 n := by
    induction n with
    | zero => simp [failedPuts]
    | succ n ih =>
      intro s
      obtain ⟨h1, h2, h3⟩ := ih (ringOverflow s)
      refine ⟨h1, h2, h3.trans ?_⟩
      rw [ringOverflow_rb]
      apply BitVec.eq_of_toNat_eq
      simp
      omega
  unfold Obligations.OverflowReportedOnce
  intro n s t x hp hack ht hx
  obtain ⟨hport, hacked, hcnt⟩ := hcount n s
  have hflag : (syncO2r (failedPuts n s)).rb.ovfV ≠ (syncO2r (failedPuts n s)).rb.ovfAck ↔
      n % 256 ≠ 0 := by
    change (failedPuts n s).rb.ovfCnt ≠ (failedPuts n s).rb.ovfAck ↔ _
    rw [hacked, hcnt, hack, ne_eq, ← BitVec.toNat_inj]
    simp
    omega
  have hport' : (syncO2r (failedPuts n s)).port = .consumer := hport.trans hp
  rw [overflowReadAndCleared _ hport'] at ht
  cases ht
  rw [overflowReadAndCleared _ (by exact hport')] at hx
  cases hx
  refine ⟨congrArg some ?_, congrArg some (if_neg (by simp))⟩
  simp only [hflag]
  split <;> simp_all

/-! ### RB_FLUSH (R150) -/

theorem stepAgent_cons_flush {job : FlushJob} (hj : s.flush = some job) :
    stepAgent .cons s = .next (flushStep job { s with port := .consumer }) := by
  rw [stepAgent, stepCons, hj]

/-- Settles O19: the start of a flush, and one micro-step of it. -/
theorem flushStartsAndHoldsConsumer : Obligations.FlushStartsAndHoldsConsumer := by
  unfold Obligations.FlushStartsAndHoldsConsumer
  intro s
  refine ⟨fun hp hocc => ?_, fun hp hocc => ?_, fun job hj => ?_⟩
  · rw [exec_rbFlush hp, startFlush, if_pos hocc, finishFlush_none]
    rfl
  · rw [exec_rbFlush hp, startFlush, if_neg hocc]
  · refine ⟨_, stepAgent_cons_flush hj, ?_⟩
    rcases flushStep_cases job { s with port := .consumer } with ⟨hlast, e⟩ | ⟨hmore, e⟩ <;> rw [e]
    · obtain ⟨-, hrb, -, -, hev, hin⟩ := finishFlush_frame job.total job.activates
        { ringPop { s with port := .consumer } with flush := none }
      exact ⟨hin, hrb, hev, fun h => absurd h (by omega)⟩
    · exact ⟨rfl, rfl, rfl, fun _ => ⟨rfl, rfl, rfl⟩⟩

end

end Sys2Proof.Machine
end

section
/-! The Gray code (40_ring_buffer.md R140 to R142). -/

namespace Sys2Proof.Machine

open Sys2Proof

theorem testBit_gray (x i : Nat) : (gray x).testBit i = (x.testBit i ^^ x.testBit (i + 1)) := by
  rw [gray, Nat.testBit_xor, Nat.testBit_shiftRight, Nat.add_comm 1 i]

theorem gray_shiftRight (x : Nat) : gray x >>> 1 = gray (x >>> 1) := Nat.shiftRight_xor_distrib

theorem gray_xor (x y : Nat) : gray (x ^^^ y) = gray x ^^^ gray y := by
  apply Nat.eq_of_testBit_eq
  intro i
  simp only [testBit_gray, Nat.testBit_xor]
  cases x.testBit i <;> cases y.testBit i <;> cases x.testBit (i + 1) <;>
    cases y.testBit (i + 1) <;> rfl

section
variable {n x g : Nat}

theorem shiftRight_one_lt (h : x < 2 ^ (n + 1)) : x >>> 1 < 2 ^ n := by
  rw [Nat.shiftRight_eq_div_pow, Nat.pow_one, Nat.div_lt_iff_lt_mul Nat.two_pos]
  exact h

/-- `gray_inv` undoes `gray` (R141). -/
theorem grayInv_gray (h : x < 2 ^ n) : grayInv n (gray x) = x := by
  induction n generalizing x with
  | zero => rw [grayInv]; omega
  | succ n ih =>
    rw [grayInv, gray_shiftRight, ih (shiftRight_one_lt h), gray, Nat.xor_assoc, Nat.xor_self,
      Nat.xor_zero]

/-- `gray` undoes `gray_inv`, so the bits of `gray_inv` satisfy the equations of `gray` (R141). -/
theorem gray_grayInv (h : g < 2 ^ n) : gray (grayInv n g) = g := by
  induction n generalizing g with
  | zero => obtain rfl : g = 0 := by omega
            rfl
  | succ n ih =>
    rw [grayInv, gray_xor, ih (shiftRight_one_lt h), gray, Nat.xor_assoc, Nat.xor_self, Nat.xor_zero]

theorem grayInv_lt (h : g < 2 ^ n) : grayInv n g < 2 ^ n := by
  induction n generalizing g with
  | zero => exact Nat.zero_lt_one
  | succ n ih =>
    refine Nat.xor_lt_two_pow h ((ih (shiftRight_one_lt h)).trans ?_)
    exact Nat.pow_lt_pow_succ Nat.one_lt_two

/-- A number and its successor on n bits differ in the lowest bits, up to the lowest 0. -/
theorem exists_xor_succ_eq (h : x < 2 ^ n) :
    ∃ k, k ≤ n ∧ (0 < n → 0 < k) ∧ x ^^^ ((x + 1) % 2 ^ n) = 2 ^ k - 1 := by
  induction n generalizing x with
  | zero => exact ⟨0, Nat.le_refl 0, id, by simp; omega⟩
  | succ n ih =>
    have hpow : 2 ^ (n + 1) = 2 * 2 ^ n := Nat.pow_succ'
    have hdiv : (x ^^^ ((x + 1) % 2 ^ (n + 1))) / 2 = x / 2 ^^^ (x + 1) % 2 ^ (n + 1) / 2 :=
      Nat.xor_div_two
    have hmod : (x ^^^ ((x + 1) % 2 ^ (n + 1))) % 2 = 1 := by
      have hpar : (x + 1) % 2 ^ (n + 1) % 2 = (x + 1) % 2 :=
        Nat.mod_mod_of_dvd _ (dvd_pow_self 2 (Nat.succ_ne_zero n))
      rw [Nat.xor_mod_two_eq]
      omega
    rcases Nat.mod_two_eq_zero_or_one x with heven | hodd
    · refine ⟨1, by omega, fun _ => Nat.one_pos, ?_⟩
      have hsame : (x + 1) % 2 ^ (n + 1) / 2 = x / 2 := by
        rw [Nat.mod_eq_of_lt (by omega)]
        omega
      rw [hsame, Nat.xor_self] at hdiv
      omega
    · obtain ⟨k, hk, -, hxor⟩ := ih (x := x / 2) (by omega)
      have hnext : (x + 1) % 2 ^ (n + 1) / 2 = (x / 2 + 1) % 2 ^ n := by
        rw [hpow, Nat.mod_mul_right_div_self]
        congr 1
        omega
      rw [hnext, hxor] at hdiv
      refine ⟨k + 1, by omega, fun _ => Nat.succ_pos k, ?_⟩
      have hpos : 0 < 2 ^ k := Nat.two_pow_pos k
      have hdouble : 2 ^ (k + 1) = 2 * 2 ^ k := Nat.pow_succ'
      omega
end

theorem gray_two_pow_sub_one (k : Nat) : gray (2 ^ (k + 1) - 1) = 2 ^ k := by
  apply Nat.eq_of_testBit_eq
  intro i
  rw [testBit_gray, Nat.testBit_two_pow_sub_one, Nat.testBit_two_pow_sub_one, Nat.testBit_two_pow]
  by_cases h : k = i
  · simp [h]
  · by_cases hlt : i < k <;> simp [h] <;> omega

/-- The Gray codes of neighbours differ in exactly one bit (R142). -/
theorem countP_gray_succ {n x : Nat} (hn : 0 < n) (h : x < 2 ^ n) : ((List.range n).countP fun i =>
    (gray x).testBit i != (gray ((x + 1) % 2 ^ n)).testBit i) = 1 := by
  obtain ⟨k, hk, hpos, hxor⟩ := exists_xor_succ_eq h
  obtain ⟨j, rfl⟩ : ∃ j, k = j + 1 := Nat.exists_eq_succ_of_ne_zero (hpos hn).ne'
  have hbit (i : Nat) :
      ((gray x).testBit i != (gray ((x + 1) % 2 ^ n)).testBit i) = (i == j) := by
    rw [Bool.bne_eq_xor, ← Nat.testBit_xor, ← gray_xor, hxor, gray_two_pow_sub_one,
      Nat.testBit_two_pow]
    exact decide_eq_decide.2 eq_comm
  simp only [hbit]
  exact List.count_eq_one_of_mem List.nodup_range (List.mem_range.2 hk)

/-- Settles O14: `gray` and `gray_inv` undo each other, so the bits of either are those of the other. -/
theorem grayCode : Obligations.GrayCode := by
  unfold Obligations.GrayCode
  refine ⟨testBit_gray, fun n => ⟨fun x => grayInv_gray, fun g hg hn => ?_, fun g i hg _ => ?_,
    fun x => countP_gray_succ⟩⟩
  · have htop : (grayInv n g).testBit n = false := Nat.testBit_lt_two_pow (grayInv_lt hg)
    have hbit := testBit_gray (grayInv n g) (n - 1)
    rw [gray_grayInv hg, Nat.sub_add_cancel hn, htop, Bool.xor_false] at hbit
    exact hbit.symm
  · have hbit := testBit_gray (grayInv n g) i
    rw [gray_grayInv hg] at hbit
    rw [hbit]
    cases (grayInv n g).testBit i <;> cases (grayInv n g).testBit (i + 1) <;> rfl

end Sys2Proof.Machine
end

section
/-! The buffer as a FIFO queue, the flush to its end, and what the views tell when they have caught up
(40_ring_buffer.md R150, R154, R156, R157, R159). -/

namespace Sys2Proof.Machine

open Sys2Proof

/-! ### The queue -/

section
variable {s t : State}

/-- The queue is made of the storage, the two pointers and L. -/
theorem bufferQueue_congr (hp : t.par = s.par) (hm : t.rb.mem = s.rb.mem)
    (hw : t.rb.wptr = s.rb.wptr) (hr : t.rb.rptr = s.rb.rptr) : bufferQueue t = bufferQueue s := by
  simp only [bufferQueue, occT, ringEntry, hp, hm, hw, hr]

theorem bufferQueue_of_rb (hp : t.par = s.par) (hr : t.rb = s.rb) : bufferQueue t = bufferQueue s :=
  bufferQueue_congr hp (by rw [hr]) (by rw [hr]) (by rw [hr])

theorem length_bufferQueue (s : State) : (bufferQueue s).length = occT s := by
  simp [bufferQueue]

theorem occT_ringPush {x : Sample} (h : ringInvariant s) (hroom : occW s ≠ capacity s.par) :
    occT (ringPush s x) = occT s + 1 ∧ occT s < capacity s.par := by
  obtain ⟨-, hT, hW⟩ := occupancies_in_order h
  obtain ⟨⟨hw, hr, -, -⟩, -⟩ := h
  have hlt : occT s < capacity s.par := by omega
  refine ⟨?_, hlt⟩
  unfold occT at *
  simp only [ringPush]
  have := nextPtr_cases hw
  have := modSub_cases hw hr
  have := modSub_cases (nextPtr_lt s.par s.rb.wptr) hr
  omega

theorem occT_ringPop (h : pointersInRange s) (hocc : occT s ≠ 0) : occT (ringPop s) = occT s - 1 := by
  obtain ⟨hw, hr, -⟩ := h
  unfold occT at *
  simp only [ringPop]
  have := nextPtr_cases hr
  have := modSub_cases hw hr
  have := modSub_cases hw (nextPtr_lt s.par s.rb.rptr)
  omega

/-- The entry a put writes is the one after the last sample in the buffer. -/
theorem wptr_eq_rptr_add (h : pointersInRange s) :
    s.rb.wptr % capacity s.par = (s.rb.rptr + occT s) % capacity s.par := by
  obtain ⟨hw, hr, -⟩ := h
  unfold occT
  rcases modSub_cases hw hr with ⟨hle, e⟩ | ⟨hlt, e⟩ <;> rw [e]
  · rw [Nat.add_sub_cancel' hle]
  · rw [show s.rb.rptr + (s.rb.wptr + 2 * capacity s.par - s.rb.rptr) =
      s.rb.wptr + capacity s.par * 2 by omega, Nat.add_mul_mod_self_left]

/-- A put with room appends its sample (R157). -/
theorem bufferQueue_ringPush {x : Sample} (h : ringInvariant s) (hcanon : storageCanonical s)
    (hroom : occW s ≠ capacity s.par) : bufferQueue (ringPush s x) = bufferQueue s ++ [x] := by
  obtain ⟨hcount, hlt⟩ := occT_ringPush (x := x) h hroom
  have hentry (i : Nat) : ringEntry (ringPush s x) (s.rb.rptr + i) =
      if (s.rb.rptr + i) % capacity s.par = (s.rb.rptr + occT s) % capacity s.par then x
      else ringEntry s (s.rb.rptr + i) := by
    rw [ringEntry_ringPush hcanon.1, wptr_eq_rptr_add h.1]
  unfold bufferQueue
  rw [hcount, List.range_succ, List.map_append, List.map_singleton]
  congr 1
  · refine List.map_congr_left fun i hi => (hentry i).trans (if_neg fun heq => ?_)
    have hi : i < occT s := List.mem_range.1 hi
    have hmod := (Nat.ModEq.add_left_cancel' _ heq : i ≡ occT s [MOD capacity s.par])
    rw [Nat.ModEq, Nat.mod_eq_of_lt (hi.trans hlt), Nat.mod_eq_of_lt hlt] at hmod
    omega
  · exact congrArg (fun y => [y]) ((hentry _).trans (if_pos rfl))

/-- Taking a sample takes the oldest (R157). -/
theorem bufferQueue_ringPop (h : pointersInRange s) (hocc : occT s ≠ 0) :
    bufferQueue s = ringEntry s s.rb.rptr :: bufferQueue (ringPop s) := by
  obtain ⟨n, hn⟩ := Nat.exists_eq_succ_of_ne_zero hocc
  have hcount := occT_ringPop h hocc
  have hentry (i : Nat) : ringEntry (ringPop s) ((ringPop s).rb.rptr + i) =
      ringEntry s (s.rb.rptr + (i + 1)) := by
    change Memory.read _ s.rb.mem (((s.rb.rptr + 1) % (2 * capacity s.par) + i) % capacity s.par) = _
    rw [Nat.add_mod, Nat.mod_mod_of_dvd _ (Dvd.intro_left 2 rfl), ← Nat.add_mod, Nat.add_right_comm]
    rfl
  unfold bufferQueue
  rw [hcount, hn, List.range_succ_eq_map, List.map_cons, List.map_map]
  simp only [hentry, Nat.succ_sub_one, Nat.add_zero]
  rfl

theorem occT_ne_zero (h : ringInvariant s) (hocc : occR s ≠ 0) : occT s ≠ 0 := by
  obtain ⟨hR, -, -⟩ := occupancies_in_order h
  omega

/-- A command that is no put, get or FEED leaves the queue as it is. -/
theorem Effect.bufferQueue {i : Instr} (h : Effect s i t)
    (hi : i.opcode ∉ [Opcode.rbPut, .rbGet, .feed]) : bufferQueue t = bufferQueue s := by
  have hresp (x : State) (w : Word) :
      Machine.bufferQueue (x.respondOn s.port w) = Machine.bufferQueue x :=
    bufferQueue_of_rb (par_respondOn _ _ _) (rb_respondOn _ _ _)
  cases h
  case put | overflow | get | feed => simp [Instr.opcode] at hi
  case unchanged w => exact hresp s w
  case ovfclr w => exact (hresp _ w).trans (bufferQueue_congr rfl rfl rfl rfl)
  case databit b g w =>
    exact (hresp _ w).trans (bufferQueue_of_rb (par_route _ _ _) (rb_route _ _ _))
  case fsmReset x u w =>
    exact (hresp _ w).trans (bufferQueue_of_rb (par_resetUnit u s) (onlyUnit_resetUnit u s).rb)
  case cfgWr c w => exact (hresp _ w).trans (bufferQueue_of_rb rfl rfl)
  case flush act _ _ =>
    refine bufferQueue_of_rb (par_startFlush act s) ?_
    rcases startFlush_cases act s with ⟨-, e⟩ | ⟨-, e⟩ <;> rw [e]
    exact (finishFlush_frame 0 act s).2.1

/-- The response of a get, field by field (R146). -/
theorem responseWord_sampleResult (x : Sample) : responseWord .ok (sampleResult x) =
    0#15 ++ 1#1 ++ x.tag ++ 0#7 ++ BitVec.ofBool x.bit := by
  apply BitVec.eq_of_toNat_eq
  rw [toNat_responseWord_ok, toNat_sampleResult]
  simp only [toNat_append_eq, BitVec.toNat_ofBool, BitVec.toNat_ofNat]
  omega

/-- A micro-step of a flush removes the oldest sample (R157). -/
theorem bufferQueue_flushStep {job : FlushJob} (h : ringInvariant s) (hj : s.flush = some job) :
    bufferQueue s = ringEntry s s.rb.rptr :: bufferQueue (flushStep job s) := by
  obtain ⟨hleft, -, hview⟩ := h.2.2.2 job hj
  have hocc := occT_ne_zero h (by omega)
  rw [bufferQueue_ringPop h.1 hocc]
  refine congrArg _ (bufferQueue_of_rb (s := ringPop s) (par_flushStep job s) ?_).symm
  rcases flushStep_cases job s with ⟨-, e⟩ | ⟨-, e⟩ <;> rw [e]
  exact (finishFlush_frame _ _ _).2.1
end

/-- Settles O24: the transfers are the queue operations, and nothing else moves a pointer or writes the
storage. -/
theorem commandsActOnFifo : Obligations.CommandsActOnFifo := by
  unfold Obligations.CommandsActOnFifo
  intro s h hcanon
  refine ⟨fun hp b g => ?put, fun hp hocc i hi => ?take, fun hp hocc i t hi ht => ?none,
    fun i t hi ht => (exec_effect ht).bufferQueue hi, fun job hj => ?flush,
    bufferQueue_congr rfl rfl rfl rfl, bufferQueue_congr rfl rfl rfl rfl,
    bufferQueue_congr rfl rfl rfl rfl⟩
  case put =>
    by_cases hfull : occW s = capacity s.par
    · refine ⟨_, exec_rbPut_full hp hfull b g, ?_⟩
      rw [if_pos hfull, List.append_nil]
      exact bufferQueue_congr (par_respondOn _ _ _) (by rw [fail_eq, rb_respondOn, ringOverflow_rb])
        (by rw [fail_eq, rb_respondOn, ringOverflow_rb]) (by rw [fail_eq, rb_respondOn, ringOverflow_rb])
    · refine ⟨_, exec_rbPut_stored hp hfull b g, ?_⟩
      rw [if_neg hfull, ← bufferQueue_ringPush h hcanon hfull]
      exact bufferQueue_of_rb (par_respondOn _ _ _) (rb_respondOn _ _ _)
  case take =>
    have hpop := bufferQueue_ringPop h.1 (occT_ne_zero h hocc)
    rcases hi with rfl | rfl
    · refine ⟨_, _, exec_rbGet_taken hp hocc, hpop.trans (congrArg _ ?_), fun _ => ?_⟩
      · exact (bufferQueue_of_rb (par_respondOn _ _ _) (rb_respondOn _ _ _)).symm
      · rw [answer_of_consumer (s := ringPop s) hp, responseWord_sampleResult]
    · refine ⟨_, _, exec_feed_taken hp hocc, hpop.trans (congrArg _ ?_), fun hi => by cases hi⟩
      refine (bufferQueue_of_rb ?_ ?_).symm
      · rw [answer_eq, par_respondOn, par_route]
      · rw [answer_eq, rb_respondOn, rb_route]
  case none =>
    have hfail : t = s.fail .empty := by
      rcases hi with rfl | rfl
      · rw [exec_rbGet_empty hp hocc] at ht; cases ht; rfl
      · rw [exec_feed_empty hp hocc] at ht; cases ht; rfl
    exact hfail ▸ bufferQueue_of_rb (par_respondOn _ _ _) (rb_respondOn _ _ _)
  case flush =>
    exact ⟨_, ringEntry s s.rb.rptr, stepAgent_cons_flush hj,
      bufferQueue_flushStep (s := { s with port := .consumer })
        (ringInvariant_congr (s := s) rfl rfl rfl h) hj⟩

/-! ### The views when they have caught up -/

section
variable {s t : State}

/-- A full buffer in the producer's view is what makes a put answer FULL (R144). -/
theorem exec_rbPut_full_iff (hp : s.port = .producer) {b : Bool} {g : Tag}
    (h : exec (.rbPut b g) s = .next t) :
    t.prodResp = some 0x06000000 ↔ occW s = capacity s.par := by
  by_cases hfull : occW s = capacity s.par
  · rw [exec_rbPut_full hp hfull] at h
    cases h
    rw [fail_of_producer (s := ringOverflow s) hp]
    exact iff_of_true rfl hfull
  · rw [exec_rbPut_stored hp hfull] at h
    cases h
    rw [answer_of_producer (s := ringPush s ⟨b, g⟩) hp]
    exact iff_of_false (by simp [responseWord, Status.code]) hfull

/-- An empty buffer in the consumer's view is what makes a get answer EMPTY (R146). -/
theorem exec_rbGet_empty_iff (hp : s.port = .consumer) (h : exec .rbGet s = .next t) :
    t.consResp = some 0x05000000 ↔ occR s = 0 := by
  by_cases hocc : occR s = 0
  · rw [exec_rbGet_empty hp hocc] at h
    cases h
    rw [fail_of_consumer hp]
    exact iff_of_true rfl hocc
  · rw [exec_rbGet_taken hp hocc] at h
    cases h
    rw [answer_of_consumer (s := ringPop s) hp]
    refine iff_of_false (fun hw => ?_) hocc
    have hnat := congrArg BitVec.toNat (Option.some.inj hw)
    rw [toNat_responseWord_ok, toNat_sampleResult] at hnat
    have := (ringEntry s s.rb.rptr).tag.isLt
    have := Bool.toNat_le (ringEntry s s.rb.rptr).bit
    simp at hnat
    omega
end

/-- Settles O26: with nothing lagging, the three occupancies are one. -/
theorem caughtUpViewsTellTheTruth : Obligations.CaughtUpViewsTellTheTruth := by
  unfold Obligations.CaughtUpViewsTellTheTruth
  rintro s h ⟨hwv, hrv, -⟩
  have hR : occR s = (bufferQueue s).length := by rw [length_bufferQueue, occR, occT, hwv]
  have hW : occW s = (bufferQueue s).length := by rw [length_bufferQueue, occW, occT, hrv]
  refine ⟨⟨?_, ?_⟩, ⟨?_, ?_⟩, hR, hW⟩
  · rintro ⟨b, g, t, hp, ht, hresp⟩
    exact ⟨hp, hW ▸ (exec_rbPut_full_iff hp ht).1 hresp⟩
  · rintro ⟨hp, hfull⟩
    obtain ⟨t, ht⟩ := exec_next (.rbPut false 0) s
    exact ⟨false, 0, t, hp, ht, (exec_rbPut_full_iff hp ht).2 (hW.trans hfull)⟩
  · rintro ⟨t, hp, ht, hresp⟩
    exact ⟨hp, List.length_eq_zero_iff.1 (hR ▸ (exec_rbGet_empty_iff hp ht).1 hresp)⟩
  · rintro ⟨hp, hempty⟩
    obtain ⟨t, ht⟩ := exec_next .rbGet s
    exact ⟨t, hp, ht, (exec_rbGet_empty_iff hp ht).2 (by rw [hR, hempty]; rfl)⟩

/-! ### The flush to its end (R150, 48_control.md R395) -/

/-- What the last micro-step of a flush of n samples leaves, `s` being the state before the first. -/
def FlushDone (job : FlushJob) (n : Nat) (s t : State) : Prop :=
  t.flush = none ∧ t.rb = { s.rb with
      rptr := (s.rb.rptr + n) % (2 * capacity s.par)
      rptrG := gray ((s.rb.rptr + n) % (2 * capacity s.par)) } ∧
    t.consResp = some (0#8 ++ BitVec.ofNat 24 job.total) ∧
    t.cfg = s.cfg ∧ t.events = s.events ∧ t.consIn = s.consIn ∧
    (∀ m, job.activates = some m → t.mode = m ∧ ∀ u, atRest t u) ∧
    (job.activates = none → t.mode = s.mode ∧ (∀ u, t.unit u = s.unit u) ∧
      (∀ k, t.slot k = s.slot k) ∧ t.hdr = s.hdr)

/-- The response and the registers at rest are of the state alone. -/
theorem atRest_respondOn {s : State} {u : UnitId} (p : Port) (w : Word) (h : atRest s u) :
    atRest (s.respondOn p w) u := by
  simpa only [atRest, unit_respondOn, slot_respondOn, hdr_respondOn] using h

/-- The last micro-step. -/
theorem flushDone_flushStep {job : FlushJob} {s : State} (hlast : job.left = 1) :
    FlushDone job 1 s (flushStep job { s with port := .consumer }) := by
  rcases flushStep_cases job { s with port := .consumer } with ⟨-, e⟩ | ⟨hmore, -⟩
  · rw [e]
    obtain ⟨-, hrb, hfl, hcfg, hev, hin⟩ := finishFlush_frame job.total job.activates
      { ringPop { s with port := .consumer } with flush := none }
    refine ⟨hfl, hrb, ?_, hcfg, hev, hin, fun m hm => ?_, fun hm => ?_⟩
    · cases job.activates <;> rfl
    · rw [hm, finishFlush_some]
      exact ⟨by rw [mode_respondOn, (activate_frame m _).2.2.2.2.2.2.2],
        fun u => atRest_respondOn _ _ (activate_atRest m _ u)⟩
    · rw [hm, finishFlush_none]
      refine ⟨rfl, fun u => ?_, fun k => ?_, rfl⟩
      · rw [unit_respondOn]; cases u <;> rfl
      · rw [slot_respondOn]; cases k <;> rfl
  · omega

/-- A micro-step before the last: it advances RPTR, and the rest of the flush does what is left. -/
theorem FlushDone.of_microStep {job : FlushJob} {n : Nat} {s x : State}
    (h : FlushDone { job with left := job.left - 1 } n
      { ringPop { s with port := .consumer } with
        flush := some { job with left := job.left - 1 } } x) : FlushDone job (n + 1) s x := by
  obtain ⟨hfl, hrb, hresp, hcfg, hev, hin, hact, hkeep⟩ := h
  refine ⟨hfl, hrb.trans ?_, hresp, hcfg, hev, hin, hact, fun hm => ?_⟩
  · have hptr : (nextPtr s.par s.rb.rptr + n) % (2 * capacity s.par) =
        (s.rb.rptr + (n + 1)) % (2 * capacity s.par) := by
      rw [nextPtr, Nat.mod_add_mod, Nat.add_right_comm, Nat.add_assoc]
    rw [← hptr]
    rfl
  · obtain ⟨hmode, hunit, hslot, hhdr⟩ := hkeep hm
    refine ⟨hmode, fun u => (hunit u).trans ?_, fun k => (hslot k).trans ?_, hhdr⟩
    · cases u <;> rfl
    · cases k <;> rfl

theorem flushDone_consSteps (n : Nat) : ∀ (job : FlushJob) (s : State), s.flush = some job →
    job.left = n + 1 → FlushDone job (n + 1) s (consSteps (n + 1) s) := by
  induction n with
  | zero =>
    intro job s hj hleft
    have hstep : stepCons s = _ := stepAgent_cons_flush hj
    rw [consSteps, hstep]
    exact flushDone_flushStep hleft
  | succ n ih =>
    intro job s hj hleft
    have hstep : stepCons s = _ := stepAgent_cons_flush hj
    rw [consSteps, hstep]
    rcases flushStep_cases job { s with port := .consumer } with ⟨hlast, -⟩ | ⟨-, e⟩
    · omega
    · dsimp only
      rw [e]
      exact (ih _ _ rfl (by dsimp only; omega)).of_microStep

/-- Settles O20, by induction on the micro-steps left. -/
theorem flushRunsToItsEnd : Obligations.FlushRunsToItsEnd := by
  unfold Obligations.FlushRunsToItsEnd
  intro job s hj hleft
  obtain ⟨n, hn⟩ := Nat.exists_eq_succ_of_ne_zero (Nat.ne_of_gt hleft)
  rw [hn]
  exact flushDone_consSteps n job s hj hn

/-! ### The machine left alone (R154) -/

/-- No command and no move is waiting, and no flush is in progress. -/
def Idle (s : State) : Prop :=
  paramsOk s.par = true ∧ s.moves = [] ∧ s.prodIn = [] ∧ s.consIn = [] ∧ s.flush = none

/-- What the agent whose turn it is does in an idle machine. -/
def idleTurn (s : State) : State :=
  match s.turn with
  | .prod => { s with turn := .cons, port := .producer }
  | .cons => { s with turn := .syncW2r, port := .consumer }
  | .syncW2r => { s with turn := .syncR2w, rb := { s.rb with wptrV := s.rb.wptr } }
  | .syncR2w => { s with turn := .syncO2r, rb := { s.rb with rptrV := s.rb.rptr } }
  | .syncO2r => { s with turn := .prod, rb := { s.rb with ovfV := s.rb.ovfCnt } }

theorem step_of_idle {s : State} (h : Idle s) : step s = .next (idleTurn s) ∧ Idle (idleTurn s) := by
  obtain ⟨hp, hm, hprod, hcons, hf⟩ := h
  rw [step_of_turn hp hm]
  unfold idleTurn
  cases s.turn
  case prod =>
    exact ⟨by simp only [stepAgent, stepProd, hprod, nextTurn], hp, hm, hprod, hcons, hf⟩
  case cons =>
    exact ⟨by simp only [stepAgent, stepCons, hf, hcons, nextTurn], hp, hm, hprod, hcons, hf⟩
  all_goals exact ⟨rfl, hp, hm, hprod, hcons, hf⟩

theorem run_of_idle (n : Nat) : ∀ {s : State}, Idle s →
    Host.Core.run Sys2Proof.core n s = .next (idleTurn^[n] s) := by
  induction n with
  | zero => intro s _; rfl
  | succ n ih =>
    intro s h
    obtain ⟨hstep, hidle⟩ := step_of_idle h
    have hcore : Sys2Proof.core.step s = .next (idleTurn s) := hstep
    simp only [Host.Core.run]
    rw [hcore]
    exact ih hidle

/-- Settles O27: five turns come round to the first agent, with one step of each synchroniser among
them. -/
theorem idleMachineCatchesUp : Obligations.IdleMachineCatchesUp := by
  unfold Obligations.IdleMachineCatchesUp
  intro s hp hm hprod hcons hf
  refine ⟨idleTurn^[5] s, run_of_idle 5 ⟨hp, hm, hprod, hcons, hf⟩, ?_⟩
  obtain ⟨par, rst, moves, turn⟩ := s
  cases turn <;> exact ⟨⟨rfl, rfl, rfl⟩, rfl⟩

end Sys2Proof.Machine
end

section
/-! The consumer's control commands and the correlator's query (48_control.md, 41_correlator.md R183 to
R190). -/

namespace Sys2Proof.Machine

open Sys2Proof

/-! ### The correlator -/

/-- The errors are the inverted bits of the pattern (R183, R189). -/
theorem errCount_eq_inverted {q : SyncPattern} (hlen : q.len ≤ 64) (hval : q.value.toNat < 2 ^ q.len)
    (sr : BitVec 64) : errCount sr q =
      (List.range q.len).countP fun i => sr.getLsbD i != q.value.getLsbD i := by
  have hrange : List.range 64 = List.range q.len ++ (List.range (64 - q.len)).map (q.len + ·) := by
    rw [← List.range_add, Nat.add_sub_cancel' hlen]
  have hhigh (i : Nat) : q.value.getLsbD (q.len + i) = false :=
    Nat.testBit_lt_two_pow (hval.trans_le (Nat.pow_le_pow_right Nat.two_pos (Nat.le_add_right _ _)))
  rw [errCount_eq_countP, hrange, List.countP_append, List.countP_map]
  have hzero : (List.range (64 - q.len)).countP ((fun i =>
      (sr.getLsbD i && decide (i < q.len)) != q.value.getLsbD i) ∘ (q.len + ·)) = 0 := by
    rw [List.countP_eq_zero]
    intro i _
    simp [hhigh]
  rw [hzero, Nat.add_zero]
  refine List.countP_congr fun i hi => ?_
  rw [decide_eq_true (List.mem_range.1 hi), Bool.and_true]

/-- Only the bits of the pattern's length decide (R190). -/
theorem errCount_congr {q : SyncPattern} {a b : BitVec 64}
    (h : ∀ i, i < q.len → a.getLsbD i = b.getLsbD i) : errCount a q = errCount b q := by
  rw [errCount_eq_countP, errCount_eq_countP]
  refine List.countP_congr fun i _ => ?_
  by_cases hi : i < q.len
  · rw [h i hi]
  · simp [hi]

/-- Settles O28: the error count is the number of inverted bits, and a match is a count within T. -/
theorem correlatorBoundary : Obligations.CorrelatorBoundary := by
  unfold Obligations.CorrelatorBoundary
  refine ⟨fun q sr t k hlen hval hk => ?_, fun q a b => errCount_congr⟩
  have he : errCount sr q = k := (errCount_eq_inverted hlen hval sr).trans hk
  exact ⟨he, he ▸ patternMatches_iff⟩

theorem errCount_le (sr : BitVec 64) (q : SyncPattern) : errCount sr q ≤ 64 := by
  rw [errCount_eq_countP]
  exact List.countP_le_length.trans (by simp)

theorem toNat_peekResult (s : State) (u : UnitId) (q : SyncPattern) : (peekResult s u q).toNat =
    errCount (s.unit u).sr q +
      if errCount (s.unit u).sr q ≤ threshold s.par u (s.unit u).st then 256 else 0 := by
  have he := errCount_le (s.unit u).sr q
  simp only [peekResult, toNat_append_eq, BitVec.toNat_ofBool, BitVec.toNat_ofNat]
  by_cases h : errCount (s.unit u).sr q ≤ threshold s.par u (s.unit u).st
  · rw [if_pos h, decide_eq_true h, Bool.toNat_true]
    omega
  · rw [if_neg h, decide_eq_false h, Bool.toNat_false]
    omega

/-- Settles O30: the response, and the table of thresholds row by row. -/
theorem corPeekReadsErrorCount : Obligations.CorPeekReadsErrorCount := by
  unfold Obligations.CorPeekReadsErrorCount
  refine ⟨fun x idx u q s hp hu hq => ?_, fun p => ⟨?_, ⟨rfl, rfl, rfl⟩, rfl, ⟨rfl, rfl, rfl, rfl⟩, rfl, rfl⟩⟩
  · refine ⟨responseWord .ok (peekResult s u q), ?_, ?_⟩
    · rw [exec_corPeek hp hu hq, answer_of_consumer hp]
    · rw [toNat_responseWord_ok, toNat_peekResult]
  · rintro u (rfl | rfl) <;> exact ⟨rfl, rfl, rfl⟩

/-! ### FEED and DATABIT (48_control.md R390 to R393) -/

theorem toNat_routedResult (s : State) (x : Sample) : (routedResult (s.mode != .idle) x).toNat =
    (if s.mode = .idle then 0 else 2 ^ 17) + 2 ^ 16 + 2 ^ 8 * x.tag.toNat + x.bit.toNat := by
  simp only [routedResult, toNat_append_eq, BitVec.toNat_ofBool, BitVec.toNat_ofNat]
  by_cases h : s.mode = .idle
  · rw [if_pos h, bne_eq_false_iff_eq.2 h, Bool.toNat_false]
    omega
  · rw [if_neg h, bne_iff_ne.2 h, Bool.toNat_true]
    omega

/-- Routing is `unit_bit` of each unit of the mode, in order (R390, R392). -/
theorem route_of_mode {m : Mode} {s : State} (h : s.mode = m) (b : Bool) (g : Tag) :
    route b g s = m.active.foldl (unitBit b g) s := by rw [route, h]

/-- Settles O55: the routing by mode, and the two commands that route. -/
theorem feedAndDatabitRoute : Obligations.FeedAndDatabitRoute := by
  unfold Obligations.FeedAndDatabitRoute
  refine ⟨fun b g s => ⟨fun h => route_of_mode h b g, fun h => route_of_mode h b g,
    fun h => route_of_mode h b g, fun h => route_of_mode h b g, fun h => route_of_mode h b g,
    fun h => route_of_mode h b g⟩, rfl, fun s hp => ⟨fun b g => ?databit, ?taken, fun hocc => ?empty⟩⟩
  case databit =>
    refine ⟨responseWord .ok (routedResult (s.mode != .idle) ⟨b, g⟩), ?_, ?_⟩
    · rw [exec_databit hp]
      exact congrArg _ (answer_of_consumer ((port_route b g s).trans hp) _)
    · rw [toNat_responseWord_ok, toNat_routedResult]
  case taken =>
    rintro hocc x rfl
    refine ⟨responseWord .ok (routedResult (s.mode != .idle) (ringEntry s s.rb.rptr)), ?_, ?_⟩
    · rw [exec_feed_taken hp hocc]
      exact congrArg _ (answer_of_consumer ((port_route _ _ (ringPop s)).trans hp) _)
    · rw [toNat_responseWord_ok, toNat_routedResult]
  case empty =>
    rw [exec_feed_empty hp hocc, fail_of_consumer hp]
    rfl

/-! ### FSM_RESET and MODE_SET (R394 to R398) -/

/-- Settles O57. -/
theorem fsmResetResetsOneUnit : Obligations.FsmResetResetsOneUnit := by
  unfold Obligations.FsmResetResetsOneUnit
  intro x u s hp hu
  refine ⟨?_, onlyUnit_resetUnit u s, events_resetUnit u s⟩
  rw [exec_fsmReset hp hu]
  exact congrArg _ (answer_of_consumer ((port_resetUnit u s).trans hp) 0)

/-- The numbers of the units name them (00_scope.md R10). -/
theorem unitOf_eq_some_iff (x : BitVec 4) (u : UnitId) : unitOf x = some u ↔ x.toNat = unitCode u := by
  cases u <;> revert x <;> decide

/-- The numbers of the modes name them (10_state.md R32). -/
theorem modeOf_eq_some_iff (x : BitVec 3) (m : Mode) : modeOf x = some m ↔ x.toNat = m.code.toNat := by
  cases m <;> revert x <;> decide

theorem winRead_of_atRest {s : State} {u : UnitId} (h : atRest s u) (i : Nat) :
    winRead s u i = false := by
  rw [winRead, h.1]
  rfl

/-- Settles O58: the enable bit, then the flush that activates. -/
theorem modeSetSwitches : Obligations.ModeSetSwitches := by
  unfold Obligations.ModeSetSwitches
  intro x m s hp hm
  have hcode := (modeOf_eq_some_iff x m).1 hm
  refine ⟨fun hne hbit => ?disabled, fun hen => ?enabled⟩
  case disabled =>
    have hen : modeEnabled s m = false := by
      rw [modeEnabled, ← hcode, hbit, Bool.or_false]
      exact beq_eq_false_iff_ne.2 hne
    rw [exec_modeSet_disabled hp hm hen, fail_of_consumer hp]
    rfl
  case enabled =>
    have hen : modeEnabled s m = true := by
      rw [modeEnabled, ← hcode]
      rcases hen with h | h
      · rw [h]; rfl
      · rw [h, Bool.or_true]
    have hexec := exec_modeSet_enabled hp hm hen
    refine ⟨fun hocc => ?_, fun hocc => ?_⟩
    · rw [startFlush, if_pos hocc, finishFlush_some] at hexec
      obtain ⟨hpar, hcfg, hrb, hev, -, -, hfl, hmode⟩ := activate_frame m s
      have hresp : (activate m s).prodResp = s.prodResp := by
        obtain ⟨y, hy⟩ := exists_activate_eq m s
        rw [hy]
        rfl
      have hatRest := activate_atRest m s
      generalize activate m s = a at hexec hpar hcfg hrb hev hfl hmode hresp hatRest
      have hrest (u : UnitId) := atRest_respondOn .consumer
        (responseWord .ok (BitVec.ofNat 24 0)) (hatRest u)
      exact ⟨_, hexec, hmode, hrest, fun u i => winRead_of_atRest (hrest u) i, rfl, hrb, hcfg, hev, hfl,
        hresp, hpar⟩
    · rw [hexec, startFlush, if_neg hocc]

/-! ### The configuration registers (R399, R400, R403) -/

/-- A result word with status OK is its number. -/
theorem responseWord_ok_eq (v : BitVec 24) : responseWord .ok v = BitVec.ofNat 32 v.toNat := by
  apply BitVec.eq_of_toNat_eq
  rw [toNat_responseWord_ok, BitVec.toNat_ofNat]
  exact (Nat.mod_eq_of_lt (v.isLt.trans (by decide))).symm

/-- CFG_RD answers the register's number. -/
theorem exec_cfgRd_number {s : State} {reg : BitVec 8} {v : BitVec 24} {n : Nat}
    (hp : s.port = .consumer) (hv : cfgRead s reg = some v) (hn : v.toNat = n) :
    exec (.cfgRd reg) s = .next { s with consResp := some (BitVec.ofNat 32 n) } := by
  rw [exec_cfgRd hp hv, answer_of_consumer hp, responseWord_ok_eq, hn]

/-- What a write of register `reg` stores, register by register. -/
theorem cfgRead_cfgWrite {s : State} {reg : BitVec 8} {value : BitVec 16} {w : Nat} {c : CfgRegs}
    (hw : [4, 12, 1, 5, 16, 1][reg.toNat]? = some w) (hc : cfgWrite s.cfg reg value = some c) :
    ∃ v, cfgRead { s with cfg := c } reg = some v ∧ v.toNat = value.toNat % 2 ^ w := by
  have hlt : reg.toNat < 6 := (List.getElem?_eq_some_iff.1 hw).1
  have hflag : ((BitVec.ofBool (value.getLsbD 0)).setWidth 24).toNat = value.toNat % 2 ^ 1 := by
    rw [BitVec.toNat_setWidth, BitVec.toNat_ofBool, BitVec.getLsbD, Nat.toNat_testBit]
    omega
  have hlow {n : Nat} (hn : n ≤ 24) : ((value.setWidth n).setWidth 24).toNat = value.toNat % 2 ^ n := by
    rw [BitVec.toNat_setWidth_of_le hn, BitVec.toNat_setWidth]
  unfold cfgWrite at hc
  unfold cfgRead
  interval_cases hreg : reg.toNat <;> obtain rfl := Option.some.inj hw <;>
    obtain rfl := Option.some.inj hc <;> refine ⟨_, rfl, ?_⟩
  · exact hlow (by decide)
  · exact hlow (by decide)
  · exact hflag
  · exact hlow (by decide)
  · rw [BitVec.toNat_setWidth_of_le (by decide), Nat.mod_eq_of_lt value.isLt]
  · exact hflag

/-- A write of one register leaves what the others read. -/
theorem cfgRead_cfgWrite_other {s : State} {reg other : BitVec 8} {value : BitVec 16} {c : CfgRegs}
    (hc : cfgWrite s.cfg reg value = some c) (hne : other ≠ reg) :
    cfgRead { s with cfg := c } other = cfgRead s other := by
  have hne : other.toNat ≠ reg.toNat := fun e => hne (BitVec.eq_of_toNat_eq e)
  unfold cfgWrite at hc
  split at hc
  case h_7 => cases hc
  all_goals
    next hreg =>
      obtain rfl := Option.some.inj hc
      unfold cfgRead
      split <;> first | rfl | omega

/-- Settles O59: a write answers 0, what it stored reads back, and each register reads as its field. -/
theorem configWriteAndRead : Obligations.ConfigWriteAndRead := by
  unfold Obligations.ConfigWriteAndRead
  intro s hp answers
  have hread (reg : BitVec 8) (v : BitVec 24) (hv : cfgRead s reg = some v) : answers s reg v.toNat :=
    exec_cfgRd_number hp hv rfl
  have hwide {w : Nat} (hw : w ≤ 24) (x : BitVec w) : (x.setWidth 24).toNat = x.toNat :=
    BitVec.toNat_setWidth_of_le hw
  have hbool (b : Bool) : ((BitVec.ofBool b).setWidth 24).toNat = b.toNat := by cases b <;> rfl
  refine ⟨fun reg value w hw => ?write, ?_, ?_, ?_, ?_, ?_, ?_, ?_⟩
  case write =>
    have hlt : reg.toNat < 6 := (List.getElem?_eq_some_iff.1 hw).1
    obtain ⟨c, hc⟩ := Option.ne_none_iff_exists'.1
      (mt (cfgWrite_eq_none_iff s.cfg reg value).1 (by omega))
    obtain ⟨v, hv, hlow⟩ := cfgRead_cfgWrite hw hc
    refine ⟨{ s with cfg := c, consResp := some 0 }, ?_, rfl,
      fun other hne => cfgRead_cfgWrite_other hc hne, ?_⟩
    · rw [exec_cfgWr hp hc, answer_of_consumer (s := { s with cfg := c }) hp]
      rfl
    · exact exec_cfgRd_number (s := { s with cfg := c, consResp := some 0 }) hp hv hlow
  · exact hwide (by decide) s.cfg.cc ▸ hread 0 _ rfl
  · exact hwide (by decide) s.cfg.nid ▸ hread 1 _ rfl
  · exact hbool s.cfg.nidWild ▸ hread 2 _ rfl
  · exact hwide (by decide) s.cfg.enables ▸ hread 3 _ rfl
  · exact hwide (by decide) s.cfg.chDelay ▸ hread 4 _ rfl
  · exact hbool s.cfg.rssiEn ▸ hread 5 _ rfl
  · exact hwide (by decide) s.mode.code ▸ hread 6 _ rfl

/-! ### STAT_RD (R401) -/

theorem toNat_statBits (r : UnitRegs) (active : Bool) : (statBits r active).toNat =
    r.st.code.toNat + 4 * r.enp.isSome.toNat + 8 * r.sf.toNat + 16 * r.loss.toNat +
      32 * r.seq.toNat + 256 * r.lc.toNat + 65536 * active.toNat := by
  simp only [statBits, toNat_append_eq, BitVec.toNat_ofBool, BitVec.toNat_ofNat]
  omega

/-- Settles O60: the numbers of R10, R32 and R44, and the bits of STAT_RD. -/
theorem statusRead : Obligations.StatusRead := by
  unfold Obligations.StatusRead
  refine ⟨unitOf_eq_some_iff, rfl, modeOf_eq_some_iff, rfl, rfl, fun x u s hp hu => ?_⟩
  refine ⟨responseWord .ok (statBits (s.unit u) (unitActive s u)), ?_, ?_⟩
  · rw [exec_statRd hp hu, answer_of_consumer hp]
  · have hactive : (unitActive s u).toNat = if u ∈ s.mode.active then 1 else 0 := by
      rw [unitActive, List.contains_eq_mem]
      by_cases h : u ∈ s.mode.active <;> simp [h]
    rw [toNat_responseWord_ok, toNat_statBits, hactive]

end Sys2Proof.Machine
end

section
/-! What a unit does in one bit, as one equation per operation: the unit's registers become `r` and the
events `es` are appended, a signal level being drawn for each FRAME among them (42_frame_common.md R219,
R220, R227). The emission of a frame and the lock-loss counter are settled here. -/

namespace Sys2Proof.Machine

open Sys2Proof

/-- Whether an event is a FRAME, for which a signal level is drawn (R220). -/
def Event.isFrame : Event → Bool
  | .frame _ _ => true
  | .lost _ => false

/-- The registers of unit u become `r`, and unit u emits `es`. -/
def State.act (s : State) (u : UnitId) (r : UnitRegs) (es : List Event) : State :=
  { s with
    events := s.events ++ es
    draws := s.draws + if s.cfg.rssiEn then es.countP Event.isFrame else 0 }.setUnit u r

section
variable (s : State) (u : UnitId) (r : UnitRegs) (es : List Event)

@[simp] theorem unit_act : (s.act u r es).unit u = r := unit_setUnit_same _ u r

@[simp] theorem events_act : (s.act u r es).events = s.events ++ es := events_setUnit _ u r

@[simp] theorem draws_act : (s.act u r es).draws =
    s.draws + if s.cfg.rssiEn then es.countP Event.isFrame else 0 := draws_setUnit _ u r

@[simp] theorem slot_act (k : SlotId) : (s.act u r es).slot k = s.slot k := by
  rw [State.act, slot_setUnit]
  cases k <;> rfl

@[simp] theorem hdr_act : (s.act u r es).hdr = s.hdr := hdr_setUnit _ u r

@[simp] theorem par_act : (s.act u r es).par = s.par := par_setUnit _ u r

@[simp] theorem cfg_act : (s.act u r es).cfg = s.cfg := cfg_setUnit _ u r

/-- What a unit does in two operations, as one. -/
@[simp] theorem act_act (r' : UnitRegs) (es' : List Event) :
    (s.act u r es).act u r' es' = s.act u r' (es ++ es') := by
  have hdraws : s.draws + (if s.cfg.rssiEn then es.countP Event.isFrame else 0) +
      (if s.cfg.rssiEn then es'.countP Event.isFrame else 0) =
      s.draws + if s.cfg.rssiEn then (es ++ es').countP Event.isFrame else 0 := by
    cases s.cfg.rssiEn <;> simp [Nat.add_assoc]
  rw [State.act, State.act, State.act, ← hdraws, ← List.append_assoc]
  cases u <;> rfl

theorem setUnit_eq_act : s.setUnit u r = s.act u r [] := by
  rw [State.act, List.append_nil, List.countP_nil, ite_self, Nat.add_zero]

/-- A register write before the unit acts is lost. -/
@[simp] theorem act_setUnit (r' : UnitRegs) : (s.setUnit u r').act u r es = s.act u r es := by
  rw [setUnit_eq_act, act_act, List.nil_append]

@[simp] theorem setUnit_act (r' : UnitRegs) : (s.act u r es).setUnit u r' = s.act u r' es := by
  rw [setUnit_eq_act, act_act, List.append_nil]

/-- An emission: the event, with LOSS cleared (R219, R221). -/
theorem emitFrame_eq_act (sync voice : Bool) (sub : BitVec 4) (len : Nat) :
    emitFrame u sync voice sub len s =
      s.act u { s.unit u with loss := false } [frameEvent s u sync voice sub len] := by
  unfold emitFrame frameEvent State.act
  cases h : s.cfg.rssiEn <;> cases u <;> simp [State.emit, State.setUnit, State.unit, Event.isFrame]

/-- `reset(u)` emits nothing (R214). -/
theorem resetUnit_eq_act : resetUnit u s =
    ({ s with hdr := if u = .p2 then .powerOn else s.hdr } : State).act u (s.unit u).afterReset [] := by
  rw [← setUnit_eq_act]
  cases u <;> rfl

/-- `lost(u)`: one LOST event, LOSS set and the unit reset (R217). -/
theorem lostUnit_eq_act : lostUnit u s =
    ({ s with hdr := if u = .p2 then .powerOn else s.hdr } : State).act u
      { (s.unit u).afterReset with loss := true } [.lost u] := by
  have hdraws : s.draws = s.draws + if s.cfg.rssiEn then [Event.lost u].countP Event.isFrame else 0 :=
    (ite_self 0).symm ▸ rfl
  rw [State.act, ← hdraws]
  cases u <;> rfl

theorem lostUnit_of_ne_p2 (hu : u ≠ .p2) :
    lostUnit u s = s.act u { (s.unit u).afterReset with loss := true } [.lost u] := by
  rw [lostUnit_eq_act, if_neg hu]

/-- What the lock-loss counter held no longer matters once the unit is lost. -/
theorem lostUnit_setUnit_lc (c : BitVec 8) :
    lostUnit u (s.setUnit u { s.unit u with lc := c }) = lostUnit u s := by
  cases u <;> rfl
end

/-! ### The emission of a frame (R206, R207, R219) -/

theorem getLsbD_byteOf (f : Nat → Bool) {n : Nat} (hn : n < 8) : (byteOf f).getLsbD n = f n := by
  simp only [byteOf, BitVec.getLsbD_append, BitVec.getLsbD_ofBool]
  interval_cases n <;> rfl

/-- Frame bit j stands in byte j div 8 at bit 7 - (j mod 8); beyond the frame stand zeros (R207). -/
theorem getElem?_packBits (f : Nat → Bool) {len j : Nat} (hj : j < 8 * ((len + 7) / 8)) :
    ∃ byte, (packBits f len)[j / 8]? = some byte ∧
      byte.getLsbD (7 - j % 8) = if j < len then f j else false := by
  have hbyte : j / 8 < (len + 7) / 8 := by omega
  have hbit : 8 * (j / 8) + 7 - (7 - j % 8) = j := by omega
  refine ⟨_, by rw [packBits, List.getElem?_map, List.getElem?_range hbyte, Option.map_some], ?_⟩
  rw [getLsbD_byteOf _ (by omega), hbit]
  by_cases h : j < len <;> simp [h]

theorem length_packFrame (s : State) (u : UnitId) (len : Nat) :
    (packFrame s u len).length = (len + 7) / 8 := by
  rw [packFrame, packBits, List.length_map, List.length_range]

/-- The two bytes of a signal level, as numbers (20_memory.md R86). -/
theorem rssiBytes_spec (v : BitVec 16) : ∃ high low : Byte, rssiBytes v = [high, low] ∧
    high.toNat = v.toNat / 256 ∧ low.toNat = v.toNat % 256 := by
  have hv := v.isLt
  refine ⟨_, _, rfl, ?_, ?_⟩
  · rw [toNat_extractLsb'_eq]
    omega
  · rw [toNat_extractLsb'_eq]
    omega

/-- Settles O31: the bits of the packing, the control byte, and what an emission does. -/
theorem payloadPacking : Obligations.PayloadPacking := by
  unfold Obligations.PayloadPacking
  refine ⟨fun s u j => rfl, fun s u len => ⟨length_packFrame s u len, fun j hj => ?_⟩,
    toNat_controlByte, ?emission⟩
  · exact getElem?_packBits (frameBit s u) hj
  case emission =>
    rintro s t u sync voice sub len rfl
    obtain ⟨high, low, hbytes, hhigh, hlow⟩ := rssiBytes_spec (Config.rssiDraw s.draws)
    have hdraws := draws_emitFrame u sync voice sub len s
    refine ⟨events_emitFrame_eq u sync voice sub len s, unit_emitFrame u sync voice sub len s,
      onlyUnit_emitFrame u sync voice sub len s, hdr_emitFrame u sync voice sub len s,
      slot_emitFrame u sync voice sub len s, ?_, high, low, hhigh, hlow, ?_⟩
    · rw [hdraws]
      cases s.cfg.rssiEn <;> rfl
    · rw [← hbytes]
      rfl

/-! ### The lock-loss counter (R213, R217) -/

/-- Settles O39, from the two ways `lockloss` ends. -/
theorem lockLossCounting : Obligations.LockLossCounting := by
  unfold Obligations.LockLossCounting
  intro u s hp hu hlc
  refine ⟨?confirmed, fun htwo => ?counting, fun hone => ?expired⟩
  case confirmed =>
    refine ⟨_, lockLoss_of_counting (.inl rfl), ?_, events_setUnit s u _⟩
    rw [unit_setUnit_same]
    exact toNat_maxLost hp hu
  case counting =>
    refine ⟨_, lockLoss_of_counting (.inr (by bv_omega)), ?_, events_setUnit s u _⟩
    rw [unit_setUnit_same]
    exact toNat_counter_sub_one hlc
  case expired =>
    have hlast : (s.unit u).lc - 1 = 0 := by bv_omega
    refine ⟨lostUnit u s, ?_, events_lostUnit u s, ?_⟩
    · rw [lockLoss_of_expired rfl hlast, lostUnit_setUnit_lc]
    · rw [unit_lostUnit]
      exact ⟨rfl, rfl, rfl, rfl, rfl⟩

end Sys2Proof.Machine
end

section
/-! The TDMA units (43_tdma_duplex.md, 44_tdma_simplex.md, 45_tdma_idle.md): the sync match, the end of a
frame period, and every branch of `frame_end`, each as one equation. -/

namespace Sys2Proof.Machine

open Sys2Proof

/-- The frame positions one frame period on in a window of `w` bits, and SF 0 (R212, R256). -/
def UnitRegs.onePeriodOn (r : UnitRegs) (w period : Nat) : UnitRegs :=
  { r with
    syp := (r.syp + period) % w
    stp := (r.stp + period) % w
    enp := r.enp.map fun e => (e + period) % w
    sf := false }

/-- The superframe number after SEQ: 1 to 5, then 1 again (R259). -/
def nextSeq (seq : BitVec 3) : Nat := seq.toNat % 5 + 1

theorem nextSeq_le (seq : BitVec 3) : nextSeq seq ≤ 5 := Nat.succ_le_of_lt (Nat.mod_lt _ (by decide))

theorem toNat_nextSeq (seq : BitVec 3) : (BitVec.ofNat 3 (nextSeq seq)).toNat = nextSeq seq := by
  have := nextSeq_le seq
  rw [BitVec.toNat_ofNat, Nat.mod_eq_of_lt (by omega)]

/-- The superframe number in the SUB field of the control byte. -/
theorem setWidth_nextSeq (seq : BitVec 3) :
    (BitVec.ofNat 3 (nextSeq seq)).setWidth 4 = BitVec.ofNat 4 (nextSeq seq) := by
  have := nextSeq_le seq
  apply BitVec.eq_of_toNat_eq
  rw [BitVec.toNat_setWidth, toNat_nextSeq, BitVec.toNat_ofNat]

/-- A register write that leaves the window, the start position and LOSS leaves the frame (R206, R222). -/
theorem frameEvent_setUnit {s : State} {u : UnitId} {r : UnitRegs} (hwin : r.win = (s.unit u).win)
    (hstp : r.stp = (s.unit u).stp) (hloss : r.loss = (s.unit u).loss) (sync voice : Bool)
    (sub : BitVec 4) (len : Nat) :
    frameEvent (s.setUnit u r) u sync voice sub len = frameEvent s u sync voice sub len := by
  apply frameEvent_congr <;> simp [hwin, hstp, hloss]

/-! ### The end of a frame period (R256) -/

section
variable {u : UnitId} {period : Nat} {confirmed : Bool} {s : State} {c : BitVec 8}

/-- A unit still in NONE drops the frame position. -/
theorem tdmaPeriodEnd_of_none (hst : (s.unit u).st = .none) : tdmaPeriodEnd u period confirmed s =
    .goOn (s.act u { s.unit u with enp := none, sf := false } []) := by
  rw [tdmaPeriodEnd, if_pos hst, setUnit_eq_act]

/-- A missed period that brings the counter to 0 loses lock. -/
theorem tdmaPeriodEnd_of_expired (hst : (s.unit u).st ≠ .none) (hlc : (s.unit u).lc - 1 = 0) :
    tdmaPeriodEnd u period false s = .skip (lostUnit u s) := by
  rw [tdmaPeriodEnd, if_neg hst, lockLoss_of_expired rfl hlc, lostUnit_setUnit_lc]

/-- Lock kept without a continuation frame: the counter and the positions change, nothing is emitted. -/
theorem tdmaPeriodEnd_of_quiet (hst : (s.unit u).st ≠ .none)
    (hlock : lockLoss u confirmed s = .goOn (s.setUnit u { s.unit u with lc := c }))
    (hquiet : ¬ ((s.unit u).st = .voice ∧ (s.unit u).sf = false)) :
    tdmaPeriodEnd u period confirmed s =
      .goOn (s.act u { (s.unit u).onePeriodOn (winLen s.par u) period with lc := c } []) := by
  have hcont : ¬ ((decide ((s.unit u).st = .voice) && !(s.unit u).sf) = true) := by simpa using hquiet
  rw [tdmaPeriodEnd, if_neg hst, hlock]
  simp only [unit_setUnit_same]
  rw [if_neg hcont]
  simp only [advanceFrame, setUnit_setUnit, unit_setUnit_same, par_setUnit]
  rw [setUnit_eq_act]
  rfl

/-- A sync frame reloads the counter. -/
theorem tdmaPeriodEnd_of_confirmed (hst : (s.unit u).st ≠ .none) (hsf : (s.unit u).sf = true) :
    tdmaPeriodEnd u period true s =
      .goOn (s.act u { (s.unit u).onePeriodOn (winLen s.par u) period with
        lc := BitVec.ofNat 8 (maxLost s.par u) } []) :=
  tdmaPeriodEnd_of_quiet hst (lockLoss_of_counting (.inl rfl)) (by simp [hsf])

/-- A missed period that is counted, with no continuation frame. -/
theorem tdmaPeriodEnd_of_counted (hst : (s.unit u).st ≠ .none) (hlc : (s.unit u).lc - 1 ≠ 0)
    (hquiet : ¬ ((s.unit u).st = .voice ∧ (s.unit u).sf = false)) :
    tdmaPeriodEnd u period false s =
      .goOn (s.act u { (s.unit u).onePeriodOn (winLen s.par u) period with
        lc := (s.unit u).lc - 1 } []) :=
  tdmaPeriodEnd_of_quiet hst (lockLoss_of_counting (.inr hlc)) hquiet

/-- In VOICE a period without a sync is numbered and continued. -/
theorem tdmaPeriodEnd_of_continued (hst : (s.unit u).st = .voice) (hsf : (s.unit u).sf = false)
    (hlc : (s.unit u).lc - 1 ≠ 0) : tdmaPeriodEnd u period false s =
      .goOn (s.act u { (s.unit u).onePeriodOn (winLen s.par u) period with
        lc := (s.unit u).lc - 1
        seq := BitVec.ofNat 3 (nextSeq (s.unit u).seq)
        loss := false }
        [frameEvent s u false true (BitVec.ofNat 4 (nextSeq (s.unit u).seq)) s.par.fT]) := by
  rw [tdmaPeriodEnd, if_neg (by simp [hst]), lockLoss_of_counting (.inr hlc)]
  simp only [unit_setUnit_same]
  rw [if_pos (by simp [hst, hsf])]
  simp only [emitFrame_eq_act, advanceFrame, setUnit_setUnit, unit_setUnit_same, par_setUnit,
    par_act, unit_act, act_setUnit, setUnit_act]
  rw [frameEvent_setUnit, ← nextSeq, setWidth_nextSeq] <;> rfl
end

/-! ### The branches of `frame_end_TDMA` (R256, R257) -/

section
variable {u : UnitId} {period : Nat} {s : State} {dt : BitVec 4}

/-- A frame without a sync is the end of its period. -/
theorem frameEndTdma_of_missed (hsf : (s.unit u).sf = false) :
    frameEndTdma u period s = tdmaPeriodEnd u period false s := if_neg (by simp [hsf])

theorem frameEndTdma_of_voice (hsf : (s.unit u).sf = true) (hsk : (s.unit u).sk = .voice) :
    frameEndTdma u period s =
      let x := s.setUnit u { s.unit u with st := .voice, seq := 0 }
      tdmaPeriodEnd u period true (emitFrame u true true 0 x.par.fT x) := by
  rw [frameEndTdma, if_pos hsf, hsk]

/-- A data sync frame that is not accepted fails the validation. -/
theorem frameEndTdma_of_rejected (hsf : (s.unit u).sf = true) (hsk : (s.unit u).sk = .data)
    (hdt : acceptedDataType s u = none) : frameEndTdma u period s = tdmaValidationFailure u s := by
  rw [frameEndTdma, if_pos hsf, hsk]
  simp only [hdt]

theorem frameEndTdma_of_data (hsf : (s.unit u).sf = true) (hsk : (s.unit u).sk = .data)
    (hdt : acceptedDataType s u = some dt) : frameEndTdma u period s = tdmaDataFrame u period dt s := by
  rw [frameEndTdma, if_pos hsf, hsk]
  simp only [hdt]

theorem acceptedDataType_eq_some_iff :
    acceptedDataType s u = some dt ↔ slotTypeDecode s.par (slotTypeField s u) = some (s.cfg.cc, dt) := by
  unfold acceptedDataType
  split
  · next h => simp [h]
  · next cc x h =>
    rw [h]
    by_cases hcc : cc = s.cfg.cc <;> simp [hcc]

/-- A sync frame that puts the unit in state `st`: the frame is emitted and lock confirmed. -/
def confirmedFrame (u : UnitId) (period : Nat) (voice : Bool) (sub : BitVec 4) (st : AcqState)
    (seq : BitVec 3) (s : State) : State :=
  s.act u { (s.unit u).onePeriodOn (winLen s.par u) period with
    st := st, seq := seq, lc := BitVec.ofNat 8 (maxLost s.par u), loss := false }
    [frameEvent s u true voice sub s.par.fT]

/-- The end of the period of a frame that was emitted after the unit's state was set. -/
theorem tdmaPeriodEnd_emitFrame (hsf : (s.unit u).sf = true) {st : AcqState} (hst : st ≠ .none)
    (voice : Bool) (sub : BitVec 4) (seq : BitVec 3) :
    tdmaPeriodEnd u period true (emitFrame u true voice sub s.par.fT
        (s.setUnit u { s.unit u with st := st, seq := seq })) =
      .goOn (confirmedFrame u period voice sub st seq s) := by
  rw [emitFrame_eq_act, frameEvent_setUnit, act_setUnit, unit_setUnit_same,
    tdmaPeriodEnd_of_confirmed (by simpa using hst) (by simpa using hsf), act_act, unit_act, par_act]
    <;> rfl

theorem frameEndTdma_voice_eq (hsf : (s.unit u).sf = true) (hsk : (s.unit u).sk = .voice) :
    frameEndTdma u period s = .goOn (confirmedFrame u period true 0 .voice 0 s) := by
  rw [frameEndTdma_of_voice hsf hsk]
  simp only [par_setUnit]
  exact tdmaPeriodEnd_emitFrame hsf (by decide) true 0 0

/-- HEADER enters DATA, and a continuation stays there (R257). -/
theorem tdmaDataFrame_of_data (hsf : (s.unit u).sf = true) (hclass : classOf s.par dt = .header ∨
      classOf s.par dt = .cont ∧ (s.unit u).st = .data) :
    tdmaDataFrame u period dt s =
      .goOn (confirmedFrame u period false dt .data (s.unit u).seq s) := by
  have hperiod := tdmaPeriodEnd_emitFrame (period := period) hsf (st := .data) (by decide) false dt
    (s.unit u).seq
  rw [← hperiod, tdmaDataFrame]
  rcases hclass with h | ⟨h, hst⟩
  · simp only [h, par_setUnit]
  · have hsame : s.setUnit u { s.unit u with st := .data, seq := (s.unit u).seq } = s := by
      rw [← hst]
      exact setUnit_unit s u
    rw [h, hsame]
    exact if_pos hst

theorem tdmaDataFrame_of_vhdr (hsf : (s.unit u).sf = true) (hclass : classOf s.par dt = .vhdr) :
    tdmaDataFrame u period dt s = .goOn (confirmedFrame u period false dt .voice 0 s) := by
  rw [← tdmaPeriodEnd_emitFrame hsf (by decide), tdmaDataFrame, hclass]
  simp only [par_setUnit]

/-- TLC and OTHER emit the frame and end the reception. -/
theorem tdmaDataFrame_of_ending (hclass : classOf s.par dt = .tlc ∨ classOf s.par dt = .other) :
    tdmaDataFrame u period dt s = .skip (resetUnit u (emitFrame u true false dt s.par.fT s)) := by
  rcases hclass with h | h <;> rw [tdmaDataFrame, h]

/-- A continuation outside DATA counts as a missed period. -/
theorem tdmaDataFrame_of_cont (hclass : classOf s.par dt = .cont) (hst : (s.unit u).st ≠ .data) :
    tdmaDataFrame u period dt s = tdmaPeriodEnd u period false s := by
  rw [tdmaDataFrame, hclass]
  exact if_neg hst
end

end Sys2Proof.Machine
end

section
/-! The sync match and the frame ends of the TDMA units, settled from the equations of their branches
(43_tdma_duplex.md R254 to R262, 44_tdma_simplex.md R295, 45_tdma_idle.md R312, R313). -/

namespace Sys2Proof.Machine

open Sys2Proof

theorem ne_p2_of_locksTdma {u : UnitId} (hu : locksTdma u) : u ≠ .p2 := by
  rcases hu with rfl | rfl | rfl <;> decide

theorem ne_is_of_locksTdma {u : UnitId} (hu : locksTdma u) : u ≠ .is := by
  rcases hu with rfl | rfl | rfl <;> decide

/-- The frame end of a locking TDMA unit, with its own frame period (R256, R294). -/
theorem frameEnd_of_locksTdma {u : UnitId} (hu : locksTdma u) (e : Nat) (s : State) :
    frameEnd u e s = frameEndTdma u (tdmaPeriod s.par u) s := by
  rcases hu with rfl | rfl | rfl <;> rfl

/-! ### The sync match (R203, R254) -/

/-- `on_sync` of a TDMA unit changes positions and the two sync registers, and emits nothing. -/
theorem onSyncTdma_eq (u : UnitId) (i : Nat) (s : State) :
    onSyncTdma u i s = s.setUnit u { s.unit u with
      syp := (s.unit u).dp
      sf := true
      sk := patternRole s.par u i
      stp := modSub (winLen s.par u) ((s.unit u).dp + 1) (syncLen s.par u + preT s.par u)
      enp := some (((s.unit u).dp + preT s.par u) % winLen s.par u) } := by
  simp only [onSyncTdma, markSync, unit_setUnit_same, par_setUnit, setUnit_setUnit]

theorem onSync_of_tdma {u : UnitId} (hu : locksTdma u ∨ u = .is) (i : Nat) (s : State) :
    onSync u i s = onSyncTdma u i s := by
  rcases hu with (rfl | rfl | rfl) | rfl <;> rfl

theorem patternRole_eq {p : Params} {u : UnitId} {i : Nat} {q : SyncPattern}
    (h : (patterns p u)[i]? = some q) : patternRole p u i = q.role := by
  rw [patternRole, h]

/-- The TDMA frame fits the unit's window (00_scope.md R9). -/
theorem fT_le_winLen {p : Params} (hp : paramsOk p = true) {u : UnitId}
    (hu : locksTdma u ∨ u = .is) : p.fT ≤ winLen p u := by
  obtain ⟨hdx, hsx, his⟩ := ((paramsOk_iff p).1 hp).tdmaWindows
  rcases hu with (rfl | rfl | rfl) | rfl
  · exact hdx
  · exact hdx
  · exact hsx
  · exact his

/-- The last of the n bits that start `m` bits before position `d + 1` lies n - 1 - m bits after `d`. -/
theorem modSub_add_mod {w d m n : Nat} (hmn : m + 1 ≤ n) (hn : n ≤ w) :
    (modSub w (d + 1) m + (n - 1)) % w = (d + (n - 1 - m + 1)) % w := by
  have hm : m % w = m := Nat.mod_eq_of_lt (by omega)
  unfold modSub
  rw [hm, Nat.mod_add_mod, Nat.add_assoc, Nat.mod_add_mod]
  have hsum : d + 1 + (w - m + (n - 1)) = d + (n - 1 - m + 1) + w := by omega
  rw [hsum, Nat.add_mod_right]

/-- Settles O45: the positions are those of the sync match, and PRE_T on both sides of the sync field
make up the frame. -/
theorem tdmaSyncPositionsFrame : Obligations.TdmaSyncPositionsFrame := by
  unfold Obligations.TdmaSyncPositionsFrame
  intro u i q s hp hu hq hdp
  obtain ⟨hframe, hpre⟩ := frame_around_sync hp hu
  have hfit := fT_le_winLen hp hu
  have hmod := modSub_add_mod (m := preT s.par u + syncLen s.par u) (n := s.par.fT)
    (d := (s.unit u).dp) (by omega) hfit
  have hlast : s.par.fT - 1 - (preT s.par u + syncLen s.par u) + 1 = preT s.par u := by omega
  rw [hlast] at hmod
  dsimp only
  rw [onSync_of_tdma hu, onSyncTdma_eq, unit_setUnit_same, events_setUnit]
  refine ⟨rfl, rfl, patternRole_eq hq, rfl, rfl, ?_, ?_, rfl⟩
  · exact congrArg (modSub _ _) (Nat.add_comm _ _)
  · rw [Nat.add_comm (syncLen s.par u), hmod]

/-! ### The slot-type field (R85, R255) -/

theorem slotTypeField_lt (s : State) (u : UnitId) : slotTypeField s u < 2 ^ s.par.stPos.length := by
  have h := fieldValue_lt (s.par.stPos.map (frameBit s u))
  rwa [List.length_map] at h

theorem testBit_slotTypeField {s : State} (u : UnitId) {k j : Nat} (h : s.par.stPos[k]? = some j) :
    (slotTypeField s u).testBit (s.par.stPos.length - 1 - k) = frameBit s u j := by
  have hbit := testBit_fieldValue (l := s.par.stPos.map (frameBit s u)) (k := k)
    (b := frameBit s u j) (by rw [List.getElem?_map, h, Option.map_some])
  rwa [List.length_map] at hbit

/-! ### Sync frames (R256, R257, R261) -/

section
variable {u : UnitId} {s t : State}

/-- A unit whose registers are those of one period on has moved one period on. -/
theorem movedOnePeriod_of_unit {st : AcqState} {lc : BitVec 8} {loss : Bool} {seq : BitVec 3}
    (h : t.unit u = { (s.unit u).onePeriodOn (winLen s.par u) (tdmaPeriod s.par u) with
      st := st, lc := lc, loss := loss, seq := seq }) : movedOnePeriod u s t := by
  unfold movedOnePeriod
  rw [h]
  exact ⟨rfl, rfl, rfl, rfl, rfl, rfl, rfl, rfl⟩

/-- What every confirmed sync frame does. -/
theorem confirmedFrame_spec (hp : paramsOk s.par = true) (hu : locksTdma u) (voice : Bool)
    (sub : BitVec 4) (st : AcqState) (seq : BitVec 3)
    (ht : t = confirmedFrame u (tdmaPeriod s.par u) voice sub st seq s) :
    (t.unit u).st = st ∧ (t.unit u).seq = seq ∧ (t.unit u).lc.toNat = maxLost s.par u ∧
      (t.unit u).sf = false ∧ movedOnePeriod u s t ∧ (t.unit u).loss = false ∧
      t.events = s.events ++ [frameEvent s u true voice sub s.par.fT] := by
  subst ht
  have hunit := unit_act s u { (s.unit u).onePeriodOn (winLen s.par u) (tdmaPeriod s.par u) with
    st := st, seq := seq, lc := BitVec.ofNat 8 (maxLost s.par u), loss := false }
    [frameEvent s u true voice sub s.par.fT]
  refine ⟨by rw [confirmedFrame, hunit], by rw [confirmedFrame, hunit], ?_,
    by rw [confirmedFrame, hunit]; rfl, movedOnePeriod_of_unit hunit, by rw [confirmedFrame, hunit],
    events_act s u _ _⟩
  rw [confirmedFrame, hunit]
  exact toNat_maxLost hp (ne_is_of_locksTdma hu)

/-- What the loss of lock does. -/
theorem lostUnit_spec (u : UnitId) (s : State) : ((lostUnit u s).unit u).st = .none ∧
    ((lostUnit u s).unit u).enp = none ∧ ((lostUnit u s).unit u).loss = true ∧
    (lostUnit u s).events = s.events ++ [.lost u] := by
  rw [unit_lostUnit]
  exact ⟨rfl, rfl, rfl, events_lostUnit u s⟩

theorem counter_sub_one_ne_zero {lc : BitVec 8} (h : 2 ≤ lc.toNat) : lc - 1 ≠ 0 := by bv_omega

theorem counter_sub_one_eq_zero {lc : BitVec 8} (h : lc.toNat = 1) : lc - 1 = 0 := by bv_omega

/-- What a missed period does that is only counted. -/
theorem counted_spec {period : Nat} (hperiod : period = tdmaPeriod s.par u)
    (hlc : 2 ≤ (s.unit u).lc.toNat)
    (ht : t = s.act u { (s.unit u).onePeriodOn (winLen s.par u) period with
      lc := (s.unit u).lc - 1 } []) :
    (t.unit u).st = (s.unit u).st ∧ (t.unit u).lc.toNat = (s.unit u).lc.toNat - 1 ∧
      (t.unit u).seq = (s.unit u).seq ∧ movedOnePeriod u s t ∧
      (t.unit u).loss = (s.unit u).loss ∧ t.events = s.events := by
  subst hperiod ht
  refine ⟨by rw [unit_act]; rfl, ?_, by rw [unit_act]; rfl, movedOnePeriod_of_unit (unit_act _ _ _ _),
    by rw [unit_act]; rfl, by rw [events_act, List.append_nil]⟩
  rw [unit_act]
  exact toNat_counter_sub_one (Nat.le_of_succ_le hlc)

/-- Settles O46: a voice sync frame is confirmed, a data sync frame that is not accepted resets. -/
theorem syncFrameAcceptedOrRejected : Obligations.SyncFrameAcceptedOrRejected := by
  unfold Obligations.SyncFrameAcceptedOrRejected
  refine ⟨fun u e s hp hu hsf => ⟨fun hsk => ?voice, fun hsk hdecode => ?rejected⟩,
    fun u s => ⟨slotTypeField_lt s u, fun k j => testBit_slotTypeField u⟩⟩
  case voice =>
    rw [frameEnd_of_locksTdma hu, frameEndTdma_voice_eq hsf hsk]
    exact ⟨_, rfl, confirmedFrame_spec hp hu true 0 .voice 0 rfl⟩
  case rejected =>
    have hdt : acceptedDataType s u = none :=
      Option.eq_none_iff_forall_ne_some.2 fun dt h => hdecode dt (acceptedDataType_eq_some_iff.1 h)
    rw [frameEnd_of_locksTdma hu, frameEndTdma_of_rejected hsf hsk hdt, tdmaValidationFailure]
    obtain ⟨hst, henp, hloss, hevents⟩ := lostUnit_spec u s
    by_cases hnone : (s.unit u).st = .none
    · rw [if_neg (not_not.2 hnone)]
      refine ⟨_, rfl, ?_, ?_, fun _ => ⟨events_resetUnit u s, ?_⟩, fun h => absurd hnone h⟩ <;>
        rw [unit_resetUnit] <;> rfl
    · rw [if_pos hnone]
      exact ⟨_, rfl, hst, henp, fun h => absurd h hnone, fun _ => ⟨hevents, hloss⟩⟩

/-- Settles O47, class by class. -/
theorem dataSyncFrameClasses : Obligations.DataSyncFrameClasses := by
  unfold Obligations.DataSyncFrameClasses
  intro u e dt s hp hu hsf hsk hdecode
  dsimp only
  have hend : frameEnd u e s = tdmaDataFrame u (tdmaPeriod s.par u) dt s := by
    rw [frameEnd_of_locksTdma hu,
      frameEndTdma_of_data hsf hsk (acceptedDataType_eq_some_iff.2 hdecode)]
  have hdata (hclass : classOf s.par dt = .header ∨
      classOf s.par dt = .cont ∧ (s.unit u).st = .data) : ∃ t, frameEnd u e s = .goOn t ∧
      (t.unit u).st = .data ∧ (t.unit u).lc.toNat = maxLost s.par u ∧
      (t.unit u).seq = (s.unit u).seq ∧ movedOnePeriod u s t ∧ (t.unit u).loss = false ∧
      t.events = s.events ++ [frameEvent s u true false dt s.par.fT] := by
    obtain ⟨hst, hseq, hlc, -, hmoved, hloss, hevents⟩ :=
      confirmedFrame_spec hp hu false dt .data (s.unit u).seq rfl
    exact ⟨_, hend.trans (tdmaDataFrame_of_data hsf hclass), hst, hlc, hseq, hmoved, hloss, hevents⟩
  have hcont (hclass : classOf s.par dt = .cont) (hst : (s.unit u).st ≠ .data) :
      frameEnd u e s = tdmaPeriodEnd u (tdmaPeriod s.par u) false s :=
    hend.trans (tdmaDataFrame_of_cont hclass hst)
  refine ⟨fun h => hdata (.inl h), fun h => ?vhdr, fun h => ?ending, fun h hst => hdata (.inr ⟨h, hst⟩),
    fun h hst => ?dropped, fun h hst hlc => ?counted, fun h hst hlc => ?expired⟩
  case vhdr =>
    obtain ⟨hst, hseq, hlc, -, hmoved, hloss, hevents⟩ :=
      confirmedFrame_spec hp hu false dt .voice 0 rfl
    exact ⟨_, hend.trans (tdmaDataFrame_of_vhdr hsf h), hst, hseq, hlc, hmoved, hloss, hevents⟩
  case ending =>
    refine ⟨_, hend.trans (tdmaDataFrame_of_ending h), ?_, ?_, ?_, ?_⟩
    · rw [unit_resetUnit]; rfl
    · rw [unit_resetUnit]; rfl
    · rw [unit_resetUnit, unit_emitFrame]; rfl
    · rw [events_resetUnit, events_emitFrame_eq]
  case dropped =>
    refine ⟨_, (hcont h (by simp [hst])).trans (tdmaPeriodEnd_of_none hst), ?_⟩
    rw [unit_act, events_act, List.append_nil]
    exact ⟨hst, rfl, rfl, rfl, rfl⟩
  case counted =>
    obtain ⟨hst', hspec⟩ := counted_spec (u := u) (s := s) rfl hlc rfl
    exact ⟨_, (hcont h (by simp [hst])).trans (tdmaPeriodEnd_of_counted (by simp [hst])
      (counter_sub_one_ne_zero hlc) (by simp [hsf])), hst'.trans hst, hspec⟩
  case expired =>
    exact ⟨_, (hcont h (by simp [hst])).trans (tdmaPeriodEnd_of_expired (by simp [hst])
      (counter_sub_one_eq_zero hlc)), lostUnit_spec u s⟩

/-! ### Frame periods without a sync (R259, R262) -/

/-- A period without a sync is the end of a missed period. -/
theorem frameEnd_of_missed (hu : locksTdma u) (hsf : (s.unit u).sf = false) (e : Nat) :
    frameEnd u e s = tdmaPeriodEnd u (tdmaPeriod s.par u) false s := by
  rw [frameEnd_of_locksTdma hu, frameEndTdma_of_missed hsf]

/-- In VOICE a period without a sync stays there and emits a continuation frame. -/
theorem frameEnd_of_continued (hu : locksTdma u) (hsf : (s.unit u).sf = false)
    (hst : (s.unit u).st = .voice) (hlc : 2 ≤ (s.unit u).lc.toNat) (e : Nat) :
    ∃ t, frameEnd u e s = .goOn t ∧ (t.unit u).st = .voice ∧
      (t.unit u).lc.toNat = (s.unit u).lc.toNat - 1 ∧
      (t.unit u).seq.toNat = nextSeq (s.unit u).seq ∧ movedOnePeriod u s t ∧
      (t.unit u).loss = false ∧ t.events = s.events ++
        [frameEvent s u false true (BitVec.ofNat 4 (nextSeq (s.unit u).seq)) s.par.fT] := by
  refine ⟨_, (frameEnd_of_missed hu hsf e).trans
    (tdmaPeriodEnd_of_continued hst hsf (counter_sub_one_ne_zero hlc)), ?_, ?_, ?_,
    movedOnePeriod_of_unit (unit_act _ _ _ _), ?_, events_act s u _ _⟩
  · rw [unit_act]; exact hst
  · rw [unit_act]; exact toNat_counter_sub_one (Nat.le_of_succ_le hlc)
  · rw [unit_act]; exact toNat_nextSeq _
  · rw [unit_act]

/-- The period without a sync that brings the counter to 0 loses lock. -/
theorem frameEnd_of_expired (hu : locksTdma u) (hsf : (s.unit u).sf = false)
    (hst : (s.unit u).st ≠ .none) (hlc : (s.unit u).lc.toNat = 1) (e : Nat) :
    frameEnd u e s = .skip (lostUnit u s) :=
  (frameEnd_of_missed hu hsf e).trans (tdmaPeriodEnd_of_expired hst (counter_sub_one_eq_zero hlc))

/-- A frame of a unit without LOSS: its control byte, and what follows it. -/
theorem frameEvent_of_clear (hloss : (s.unit u).loss = false) {sync voice : Bool} {sub : BitVec 4}
    {len : Nat} : frameEvent s u sync voice sub len = .frame u
      (controlByte s.cfg.rssiEn sync voice false sub :: (packFrame s u len ++
        if s.cfg.rssiEn then rssiBytes (Config.rssiDraw s.draws) else [])) := by
  rw [frameEvent, framePayload, hloss]
  rfl

/-- The timeout of VOICE from any superframe number: each period but the last is continued (R262). -/
theorem framePeriods_of_voice (hu : locksTdma u) (m : Nat) : ∀ s : State, (s.unit u).st = .voice →
    (s.unit u).sf = false → (s.unit u).loss = false → (s.unit u).lc.toNat = m + 1 →
    ((framePeriods u (m + 1) s).unit u).st = .none ∧
      ((framePeriods u (m + 1) s).unit u).loss = true ∧
      ∃ fs : List Event, fs.length = m ∧
        (framePeriods u (m + 1) s).events = s.events ++ fs ++ [.lost u] ∧
        ∀ i, i < m → ∃ bytes, fs[i]? = some (.frame u (controlByte s.cfg.rssiEn false true false
          (BitVec.ofNat 4 (((s.unit u).seq.toNat + i) % 5 + 1)) :: bytes)) := by
  induction m with
  | zero =>
    intro s hst hsf _ hlc
    rw [framePeriods, frameEnd_of_expired hu hsf (by simp [hst]) hlc]
    obtain ⟨hst', -, hloss, hevents⟩ := lostUnit_spec u s
    exact ⟨hst', hloss, [], rfl, by rw [List.append_nil]; exact hevents, fun i hi => absurd hi (by omega)⟩
  | succ m ih =>
    intro s hst hsf hloss hlc
    obtain ⟨t, hend, hst', hlc', hseq', hmoved, hloss', hevents⟩ :=
      frameEnd_of_continued hu hsf hst (by omega) (((s.unit u).enp).getD 0)
    have hframe := onlyUnit_frameEnd u (((s.unit u).enp).getD 0) s
    rw [hend] at hframe
    have hcfg : t.cfg = s.cfg := hframe.cfg
    obtain ⟨-, -, -, hsf', -⟩ := hmoved
    obtain ⟨hnone, hlost, fs, hlen, hfs, hnumbers⟩ := ih t hst' hsf' hloss' (by omega)
    rw [framePeriods, hend]
    refine ⟨hnone, hlost, frameEvent s u false true (BitVec.ofNat 4 (nextSeq (s.unit u).seq)) s.par.fT
      :: fs, congrArg (· + 1) hlen, ?_, fun i hi => ?_⟩
    · rw [Flow.state, hfs, hevents, List.append_assoc, List.append_assoc, List.append_assoc]
      rfl
    · match i with
      | 0 =>
        exact ⟨_, by rw [List.getElem?_cons_zero, frameEvent_of_clear hloss]; rfl⟩
      | i + 1 =>
        obtain ⟨bytes, hbytes⟩ := hnumbers i (by omega)
        have hnext : (nextSeq (s.unit u).seq + i) % 5 = ((s.unit u).seq.toNat + (i + 1)) % 5 := by
          unfold nextSeq
          omega
        rw [hseq', hnext, hcfg] at hbytes
        exact ⟨bytes, by rw [List.getElem?_cons_succ, hbytes]⟩
end

/-- Settles O48: the three ends of a missed period, and the timeout by induction on the periods left. -/
theorem voiceLockTimeout : Obligations.VoiceLockTimeout := by
  unfold Obligations.VoiceLockTimeout
  refine ⟨fun u e s hu hsf => ⟨fun hst hlc => frameEnd_of_continued hu hsf hst hlc e,
    fun hst hlc => ?data, fun hst hlc => ?expired⟩, fun u m s hu hst hsf hseq hloss hlc => ?timeout⟩
  case data =>
    obtain ⟨hst', hspec⟩ := counted_spec (u := u) (s := s) rfl hlc rfl
    exact ⟨_, (frameEnd_of_missed hu hsf e).trans (tdmaPeriodEnd_of_counted (by simp [hst])
      (counter_sub_one_ne_zero hlc) (by simp [hst])), hst'.trans hst, hspec⟩
  case expired =>
    have hne : (s.unit u).st ≠ .none := by rcases hst with h | h <;> simp [h]
    exact ⟨_, frameEnd_of_expired hu hsf hne hlc e, lostUnit_spec u s⟩
  case timeout =>
    have h := framePeriods_of_voice hu m s hst hsf hloss hlc
    have hzero : (s.unit u).seq.toNat = 0 := congrArg BitVec.toNat hseq
    simp only [hzero, Nat.zero_add] at h
    exact h

/-! ### The idle scanner (R313) -/

/-- The scanner's frame end: the frame of the one data type is emitted, and the position dropped. -/
theorem frameEndIdle_of_forwarded {s : State}
    (h : acceptedDataType s .is = some s.par.idleFwdDt) : frameEndIdle s =
      .goOn (s.act .is { s.unit .is with loss := false, enp := none, sf := false }
        [frameEvent s .is true false s.par.idleFwdDt s.par.fT]) := by
  unfold frameEndIdle
  rw [h]
  simp only [if_true, emitFrame_eq_act, unit_act, setUnit_act]

theorem frameEndIdle_of_other {s : State} (h : acceptedDataType s .is ≠ some s.par.idleFwdDt) :
    frameEndIdle s = .goOn (s.act .is { s.unit .is with enp := none, sf := false } []) := by
  unfold frameEndIdle
  rw [← setUnit_eq_act]
  split
  · next dt hdt =>
    rw [if_neg (fun e => h (hdt.trans (congrArg some e)))]
  · rfl

/-- Settles O49, by whether the frame is forwarded. -/
theorem idleScannerForwards : Obligations.IdleScannerForwards := by
  unfold Obligations.IdleScannerForwards
  intro e s
  rw [frameEnd]
  by_cases h : acceptedDataType s .is = some s.par.idleFwdDt
  · exact ⟨_, frameEndIdle_of_forwarded h, rfl, rfl, rfl, fun _ => rfl,
      fun hne => absurd (acceptedDataType_eq_some_iff.1 h) hne⟩
  · exact ⟨_, frameEndIdle_of_other h, rfl, rfl, rfl,
      fun he => absurd (acceptedDataType_eq_some_iff.2 he) h,
      fun _ => List.append_nil s.events⟩

end Sys2Proof.Machine
end

section
/-! The second and the third protocol (46_proto2.md, 47_proto3.md): the sync match, the header and every
way a frame end goes, each as one equation. -/

namespace Sys2Proof.Machine

open Sys2Proof

/-! ### The sync match of P2 (R332) -/

/-- `on_sync(P2, 0)` marks the sync and the header after it, and leaves NONE. -/
theorem onSyncP2_eq (s : State) : onSyncP2 s =
    ({ s with hdr := { s.hdr with
        hdp := some ((s.p2.dp + s.par.nidLen) % s.par.wP2), hsy := true } } : State).setUnit .p2
      { s.p2 with
        syp := s.p2.dp, sf := true, st := if s.p2.st = .none then .sync else s.p2.st } := by
  by_cases h : s.p2.st = .none
  · rw [if_pos h]
    exact if_pos h
  · rw [if_neg h]
    exact if_neg h

/-- Settles O50. -/
theorem proto2SyncSchedulesHeader : Obligations.Proto2SyncSchedulesHeader := by
  unfold Obligations.Proto2SyncSchedulesHeader
  intro i s
  dsimp only
  rw [onSync, onSyncP2_eq]
  exact ⟨rfl, rfl, rfl, rfl, rfl, rfl, rfl⟩

/-! ### The header of P2 (R333 to R337) -/

theorem headerField_lt (s : State) : headerField s < 2 ^ s.par.nidLen := by
  have h := fieldValue_lt ((List.range s.par.nidLen).map fun k => winRead s .p2 (s.p2.syp + 1 + k))
  rwa [List.length_map, List.length_range] at h

theorem testBit_headerField {s : State} {k : Nat} (hk : k < s.par.nidLen) :
    (headerField s).testBit (s.par.nidLen - 1 - k) = winRead s .p2 (s.p2.syp + 1 + k) := by
  have h := testBit_fieldValue
    (l := (List.range s.par.nidLen).map fun k => winRead s .p2 (s.p2.syp + 1 + k)) (k := k)
    (b := winRead s .p2 (s.p2.syp + 1 + k))
    (by rw [List.getElem?_map, List.getElem?_range hk, Option.map_some])
  rwa [List.length_map, List.length_range] at h

/-- A header is valid when it decodes, its network id passes and its frame type has a length (R334). -/
theorem validHeader_eq_some_iff {s : State} {ft : BitVec 4} {len : Nat} {cl : FClass} :
    validHeader s = some (ft, len, cl) ↔ ∃ nid, nidDecode s.par (headerField s) = some (nid, ft) ∧
      (s.cfg.nidWild = true ∨ nid = s.cfg.nid) ∧ frameType s.par ft = some (len, cl) := by
  unfold validHeader
  split
  · next h => simp [h]
  · next nid ft' h =>
    rw [h]
    by_cases hnid : s.cfg.nidWild = true ∨ nid = s.cfg.nid
    · rw [if_pos (by simpa using hnid)]
      cases hft : frameType s.par ft' <;> grind
    · rw [if_neg (by simpa using hnid)]
      grind

section
variable {s : State}

/-- The registers of P2 after a valid header of class `cl` and length `fl` (R334). -/
def validatedP2 (s : State) (fl : BitVec 16) (cl : FClass) : UnitRegs :=
  let stp := modSub s.par.wP2 (s.p2.syp + 1) (syncLen s.par .p2)
  { s.p2 with
    stp := stp
    enp := some (modSub s.par.wP2 (stp + fl.toNat) 1)
    st := stateAfterHeader s.p2.st cl
    lc := if s.p2.st = .sync then BitVec.ofNat 8 s.par.maxLostP2 else s.p2.lc }

theorem headerP2_of_valid {ft : BitVec 4} {len : Nat} {cl : FClass}
    (h : validHeader s = some (ft, len, cl)) : headerP2 s =
      .goOn (({ s with hdr := { s.hdr with
          hdp := none, ft := ft, fl := BitVec.ofNat 16 len, cl := cl, hok := true } } : State).setUnit
        .p2 (validatedP2 s (BitVec.ofNat 16 len) cl)) := by
  have hx : validHeader { s with hdr := { s.hdr with hdp := none } } = some (ft, len, cl) := h
  rw [headerP2]
  simp only [hx]
  rfl

/-- An invalid header after a sync match loses P2 (R336). -/
theorem headerP2_of_invalid_sync (h : validHeader s = none) (hsy : s.hdr.hsy = true) :
    headerP2 s = .skip (lostUnit .p2 s) := by
  have hx : validHeader { s with hdr := { s.hdr with hdp := none } } = none := h
  rw [headerP2]
  simp only [hx]
  exact if_pos hsy

/-- An invalid blind header is only dropped (R337). -/
theorem headerP2_of_invalid_blind (h : validHeader s = none) (hsy : s.hdr.hsy = false) :
    headerP2 s = .goOn { s with hdr := { s.hdr with hdp := none, hok := false } } := by
  have hx : validHeader { s with hdr := { s.hdr with hdp := none } } = none := h
  rw [headerP2]
  simp only [hx]
  exact if_neg (by simp [hsy])
end

/-- The last of n bits from position `a`. -/
theorem modSub_one {w a n : Nat} (hw : 1 ≤ w) (hn : 1 ≤ n) : modSub w (a + n) 1 = (a + (n - 1)) % w := by
  unfold modSub
  rcases Nat.lt_or_eq_of_le hw with h | rfl
  · rw [Nat.mod_eq_of_lt h, Nat.mod_add_mod]
    have hsum : a + n + (w - 1) = a + (n - 1) + w := by omega
    rw [hsum, Nat.add_mod_right]
  · omega

/-- A frame type of legal parameters has a length of at least 1 that fits FL_P2 (00_scope.md R9). -/
theorem frameType_length {p : Params} (hp : paramsOk p = true) {ft : BitVec 4} {len : Nat}
    {cl : FClass} (h : frameType p ft = some (len, cl)) : 1 ≤ len ∧ len < 2 ^ 16 := by
  have hc := (paramsOk_iff p).1 hp
  obtain ⟨-, -, -, ⟨-, q, hq, -⟩, -⟩ := hc.patterns
  obtain ⟨hlen, -, hfit⟩ := hc.frames ft len cl h
  have hnid := hc.header.1
  have := hlen q (by simp [hq])
  exact ⟨by omega, hfit⟩

/-- Settles O51, by whether the header is valid and how it was scheduled. -/
theorem proto2HeaderOutcomes : Obligations.Proto2HeaderOutcomes := by
  unfold Obligations.Proto2HeaderOutcomes
  refine ⟨fun s => ⟨headerField_lt s, fun k => testBit_headerField⟩, fun s hp =>
    ⟨fun nid ft len cl hdecode hnid hft => ?valid, fun hinvalid => ?invalid⟩⟩
  case valid =>
    obtain ⟨hpos, hfit⟩ := frameType_length hp hft
    have hlen : (BitVec.ofNat 16 len).toNat = len :=
      (BitVec.toNat_ofNat _ _).trans (Nat.mod_eq_of_lt hfit)
    refine ⟨_, headerP2_of_valid (validHeader_eq_some_iff.2 ⟨nid, hdecode, hnid, hft⟩), rfl, rfl, hlen,
      rfl, rfl, rfl, rfl, ?enp, fun hsync => ⟨?lc, ?st⟩, fun hsync => ⟨if_neg hsync, if_neg hsync⟩⟩
    case enp =>
      refine congrArg some ?_
      rw [hlen]
      exact modSub_one ((paramsOk_iff s.par).1 hp).header.2 hpos
    case lc => exact (congrArg BitVec.toNat (if_pos hsync)).trans (toNat_maxLost hp (u := .p2) (by decide))
    case st =>
      refine (if_pos hsync).trans ?_
      cases cl <;> rfl
  case invalid =>
    have hnone : validHeader s = none := by
      refine Option.eq_none_iff_forall_ne_some.2 fun ⟨ft, len, cl⟩ h => ?_
      obtain ⟨nid, hdecode, hnid, hft⟩ := validHeader_eq_some_iff.1 h
      rw [hinvalid nid ft hdecode hnid] at hft
      cases hft
    exact ⟨fun hsy => ⟨_, headerP2_of_invalid_sync hnone hsy, rfl, rfl, rfl, rfl⟩,
      fun hsy => ⟨_, headerP2_of_invalid_blind hnone hsy, rfl, rfl, rfl⟩⟩

/-! ### The frame end of P2 (R338 to R341) -/

section
variable {s : State} {e : Nat}

/-- A terminator is emitted and ends the reception. -/
theorem frameEndP2_of_term (hok : s.hdr.hok = true) (hcl : s.hdr.cl = .term) : frameEndP2 e s =
    .skip (resetUnit .p2 (emitFrame .p2 s.hdr.hsy false s.hdr.ft s.hdr.fl.toNat s)) :=
  if_pos (by simp [hok, hcl])

/-- What is left of a frame end after its first emission. -/
theorem frameEndP2_of_not_term (h : ¬ (s.hdr.hok = true ∧ s.hdr.cl = .term)) : frameEndP2 e s =
    match lockLoss .p2 s.hdr.hok (if s.hdr.hok then
        emitFrame .p2 s.hdr.hsy (s.p2.st == .voice) s.hdr.ft s.hdr.fl.toNat s else s) with
    | .skip t => .skip t
    | .goOn t => .goOn (scheduleNextP2 e (if !t.hdr.hok && t.p2.st = .voice then
        emitFrame .p2 false true t.hdr.ft s.hdr.fl.toNat t else t)) :=
  if_neg (by simpa using h)

/-- A validated frame is emitted and reloads the counter. -/
theorem frameEndP2_of_validated (hok : s.hdr.hok = true) (hcl : s.hdr.cl ≠ .term) : frameEndP2 e s =
    .goOn (scheduleNextP2 e (s.act .p2
      { s.p2 with lc := BitVec.ofNat 8 s.par.maxLostP2, loss := false }
      [frameEvent s .p2 s.hdr.hsy (s.p2.st == .voice) s.hdr.ft s.hdr.fl.toNat])) := by
  rw [frameEndP2_of_not_term (by simp [hcl]), hok, if_pos rfl, emitFrame_eq_act,
    lockLoss_of_counting (.inl rfl), unit_act, setUnit_act, par_act]
  simp only [hdr_act, hok, Bool.not_true, Bool.false_and, if_true]
  rfl

/-- A frame without a valid header counts as missed, and is emitted in VOICE only. -/
theorem frameEndP2_of_missed (hok : s.hdr.hok = false) (hlc : s.p2.lc - 1 ≠ 0) : frameEndP2 e s =
    .goOn (scheduleNextP2 e (if s.p2.st = .voice then
      s.act .p2 { s.p2 with lc := s.p2.lc - 1, loss := false }
        [frameEvent s .p2 false true s.hdr.ft s.hdr.fl.toNat]
      else s.act .p2 { s.p2 with lc := s.p2.lc - 1 } [])) := by
  have hlock := lockLoss_of_counting (u := .p2) (confirmed := false) (s := s) (.inr hlc)
  rw [frameEndP2_of_not_term (by simp [hok]), hok, if_neg (by simp), hlock]
  by_cases hst : s.p2.st = .voice
  · have hcond : (!(s.setUnit .p2 { s.unit .p2 with lc := s.p2.lc - 1 }).hdr.hok &&
        decide ((s.setUnit .p2 { s.unit .p2 with lc := s.p2.lc - 1 }).p2.st = .voice)) = true := by
      rw [hdr_setUnit, hok]
      exact decide_eq_true hst
    rw [if_pos hst]
    refine (congrArg (fun x => Flow.goOn (scheduleNextP2 e x)) (if_pos hcond)).trans ?_
    rw [emitFrame_eq_act, act_setUnit, frameEvent_setUnit, unit_setUnit_same, hdr_setUnit] <;> rfl
  · have hcond : ¬ (!(s.setUnit .p2 { s.unit .p2 with lc := s.p2.lc - 1 }).hdr.hok &&
        decide ((s.setUnit .p2 { s.unit .p2 with lc := s.p2.lc - 1 }).p2.st = .voice)) = true := by
      rw [hdr_setUnit, hok]
      exact fun h => hst (of_decide_eq_true h)
    rw [if_neg hst, ← setUnit_eq_act]
    exact congrArg (fun x => Flow.goOn (scheduleNextP2 e x)) (if_neg hcond)

/-- The missed frame that brings the counter to 0 loses P2. -/
theorem frameEndP2_of_lost (hok : s.hdr.hok = false) (hlc : s.p2.lc - 1 = 0) :
    frameEndP2 e s = .skip (lostUnit .p2 s) := by
  have hlock := lockLoss_of_expired (u := .p2) (s := s) rfl hlc
  rw [frameEndP2_of_not_term (by simp [hok]), hok, if_neg (by simp), hlock, lostUnit_setUnit_lc]

/-- The positions of the next frame after the end position `e` (R338). -/
def nextFrameP2 (e : Nat) (s : State) : UnitRegs :=
  { s.p2 with
    stp := (e + 1) % s.par.wP2, enp := some ((e + s.hdr.fl.toNat) % s.par.wP2), sf := false }

/-- In DATA with no header pending the next frame's header is validated blind. -/
theorem scheduleNextP2_of_blind (hst : s.p2.st = .data) (hhdp : s.hdr.hdp = none) :
    scheduleNextP2 e s =
      ({ s with hdr := { s.hdr with
          hok := false
          hdp := some (((e + syncLen s.par .p2) % s.par.wP2 + s.par.nidLen) % s.par.wP2)
          hsy := false } } : State).setUnit .p2
        { nextFrameP2 e s with syp := (e + syncLen s.par .p2) % s.par.wP2 } :=
  if_pos (by simp [hst, hhdp])

theorem scheduleNextP2_of_pending (h : s.p2.st ≠ .data ∨ s.hdr.hdp ≠ none) :
    scheduleNextP2 e s =
      ({ s with hdr := { s.hdr with hok := false } } : State).setUnit .p2 (nextFrameP2 e s) :=
  if_neg (by
    simp only [Bool.and_eq_true, decide_eq_true_eq, Option.isNone_iff_eq_none, not_and]
    exact fun hst => h.resolve_left (not_not.2 hst))

/-- What the schedule of the next frame leaves, with and without a blind header. -/
theorem scheduleNextP2_spec (e : Nat) (s : State) : (scheduleNextP2 e s).p2 =
      { nextFrameP2 e s with syp := (scheduleNextP2 e s).p2.syp } ∧
    (scheduleNextP2 e s).hdr.hok = false ∧ (scheduleNextP2 e s).events = s.events := by
  by_cases h : s.p2.st = .data ∧ s.hdr.hdp = none
  · rw [scheduleNextP2_of_blind h.1 h.2]
    exact ⟨rfl, rfl, rfl⟩
  · rw [scheduleNextP2_of_pending (Decidable.or_iff_not_imp_left.2 fun hst hhdp =>
      h ⟨not_not.1 hst, hhdp⟩)]
    exact ⟨rfl, rfl, rfl⟩

/-- A frame end that keeps lock changes the counter and LOSS, and schedules the next frame. -/
theorem frameEndP2_of_goOn {t : State} (h : frameEndP2 e s = .goOn t) : ∃ lc loss es,
    t = scheduleNextP2 e (s.act .p2 { s.p2 with lc := lc, loss := loss } es) := by
  cases hok : s.hdr.hok
  · by_cases hlc : s.p2.lc - 1 = 0
    · rw [frameEndP2_of_lost hok hlc] at h
      cases h
    · rw [frameEndP2_of_missed hok hlc] at h
      obtain rfl := Flow.goOn.inj h
      split
      · exact ⟨_, _, _, rfl⟩
      · exact ⟨_, s.p2.loss, _, rfl⟩
  · by_cases hcl : s.hdr.cl = .term
    · rw [frameEndP2_of_term hok hcl] at h
      cases h
    · rw [frameEndP2_of_validated hok hcl] at h
      exact ⟨_, _, _, (Flow.goOn.inj h).symm⟩
end

/-- Settles O52, branch by branch. -/
theorem proto2FrameEnds : Obligations.Proto2FrameEnds := by
  unfold Obligations.Proto2FrameEnds
  intro e s hp
  refine ⟨fun hok hcl => ?term, fun hok hcl => ?validated, fun hok hlc => ?missed, fun hok hlc => ?lost,
    fun t ht => ?kept⟩
  case term =>
    refine ⟨_, frameEndP2_of_term hok hcl, rfl, ?_⟩
    rw [events_resetUnit, events_emitFrame_eq]
  case validated =>
    refine ⟨_, frameEndP2_of_validated hok hcl, ?_⟩
    obtain ⟨hregs, hclear, hevents⟩ := scheduleNextP2_spec e (s.act .p2
      { s.p2 with lc := BitVec.ofNat 8 s.par.maxLostP2, loss := false }
      [frameEvent s .p2 s.hdr.hsy (s.p2.st == .voice) s.hdr.ft s.hdr.fl.toNat])
    rw [hclear, hevents, hregs]
    exact ⟨rfl, toNat_maxLost hp (u := .p2) (by decide), rfl, rfl, rfl, rfl⟩
  case missed =>
    refine ⟨_, frameEndP2_of_missed hok (counter_sub_one_ne_zero hlc), ?_⟩
    have hcount := toNat_counter_sub_one (Nat.le_of_succ_le hlc)
    by_cases hst : s.p2.st = .voice
    · rw [if_pos hst, if_pos hst]
      obtain ⟨hregs, -, hevents⟩ := scheduleNextP2_spec e (s.act .p2
        { s.p2 with lc := s.p2.lc - 1, loss := false }
        [frameEvent s .p2 false true s.hdr.ft s.hdr.fl.toNat])
      rw [hevents, hregs]
      exact ⟨rfl, hcount, rfl, rfl, rfl⟩
    · rw [if_neg hst, if_neg hst]
      obtain ⟨hregs, -, hevents⟩ := scheduleNextP2_spec e (s.act .p2
        { s.p2 with lc := s.p2.lc - 1 } [])
      rw [hevents, hregs]
      exact ⟨rfl, hcount, rfl, rfl, rfl⟩
  case lost =>
    exact ⟨_, frameEndP2_of_lost hok (counter_sub_one_eq_zero hlc), rfl, rfl, rfl⟩
  case kept =>
    obtain ⟨lc, loss, es, rfl⟩ := frameEndP2_of_goOn ht
    refine ⟨?_, fun hst hhdp => ?_, fun hpending => ?_⟩
    · rw [(scheduleNextP2_spec e _).1]
      rfl
    · rw [scheduleNextP2_of_blind (s := s.act .p2 { s.p2 with lc := lc, loss := loss } es) hst hhdp]
      exact ⟨rfl, rfl⟩
    · rw [scheduleNextP2_of_pending (s := s.act .p2 { s.p2 with lc := lc, loss := loss } es) hpending]
      exact ⟨rfl, rfl⟩

/-! ### The frame end of P3 (R372, R376) -/

section
variable {s : State} (e : Nat)

/-- A frame end that keeps P3 locked, as one equation. -/
theorem frameEndP3_eq_of_counting (h : s.p3.sf = true ∨ s.p3.lc - 1 ≠ 0) : frameEndP3 e s =
    .goOn (s.act .p3 { s.p3 with
        syp := e
        stp := (e + 1) % s.par.wP3
        enp := some ((e + s.par.f3) % s.par.wP3)
        sf := false
        loss := false
        lc := if s.p3.sf then BitVec.ofNat 8 s.par.maxLostP3 else s.p3.lc - 1 }
      [frameEvent s .p3 s.p3.sf false 0 s.par.f3]) := by
  have hlock := lockLoss_of_counting (u := .p3) (confirmed := s.p3.sf)
    (s := emitFrame .p3 s.p3.sf false 0 s.par.f3 s) (by rw [emitFrame_eq_act, unit_act]; exact h)
  rw [frameEndP3_of_goOn e hlock, emitFrame_eq_act]
  simp only [unit_act, par_act, setUnit_act]
  rfl

/-- A frame end that loses P3, as one equation. -/
theorem frameEndP3_eq_of_expired (hsf : s.p3.sf = false) (h : s.p3.lc - 1 = 0) : frameEndP3 e s =
    .skip (s.act .p3 { s.p3.afterReset with loss := true }
      [frameEvent s .p3 false false 0 s.par.f3, .lost .p3]) := by
  have hlock := lockLoss_of_expired (u := .p3)
    (s := emitFrame .p3 s.p3.sf false 0 s.par.f3 s) hsf
    (by rw [emitFrame_eq_act, unit_act]; exact h)
  rw [frameEndP3_of_skip e hlock, lostUnit_setUnit_lc, lostUnit_of_ne_p2 _ _ (by decide),
    emitFrame_eq_act, act_act, unit_act, hsf]
  rfl
end

/-- The timeout of P3: a frame each period, and after the last one LOST (R376). -/
theorem framePeriods_of_p3 (m : Nat) : ∀ s : State, s.p3.sf = false → s.p3.loss = false →
    s.p3.lc.toNat = m + 1 →
    (framePeriods .p3 (m + 1) s).p3.st = .none ∧ ∃ fs : List Event, fs.length = m + 1 ∧
      (framePeriods .p3 (m + 1) s).events = s.events ++ fs ++ [.lost .p3] ∧
      ∀ i, i ≤ m → ∃ bytes, fs[i]? = some (.frame .p3
        (controlByte s.cfg.rssiEn false false false 0 :: bytes)) := by
  induction m with
  | zero =>
    intro s hsf hloss hlc
    have hend : frameEnd .p3 ((s.unit .p3).enp.getD 0) s = _ :=
      frameEndP3_eq_of_expired _ hsf (counter_sub_one_eq_zero hlc)
    rw [framePeriods, hend]
    refine ⟨rfl, [frameEvent s .p3 false false 0 s.par.f3], rfl, ?_, fun i hi => ?_⟩
    · rw [List.append_assoc]
      exact events_act s .p3 _ _
    · obtain rfl : i = 0 := Nat.le_zero.1 hi
      exact ⟨_, by rw [List.getElem?_cons_zero, frameEvent_of_clear (u := .p3) hloss]⟩
  | succ m ih =>
    intro s hsf hloss hlc
    have hend : frameEnd .p3 ((s.unit .p3).enp.getD 0) s = _ :=
      frameEndP3_eq_of_counting _ (.inr (counter_sub_one_ne_zero (by omega)))
    rw [hsf] at hend
    rw [framePeriods, hend]
    generalize ht : s.act .p3 _ _ = t
    obtain ⟨hnone, fs, hlen, hfs, hframes⟩ := ih t (by rw [← ht]; rfl) (by rw [← ht]; rfl)
      (by rw [← ht]; exact (toNat_counter_sub_one (by omega)).trans (by omega))
    have hcfg : t.cfg = s.cfg := by rw [← ht, cfg_act]
    refine ⟨hnone, frameEvent s .p3 false false 0 s.par.f3 :: fs, congrArg (· + 1) hlen, ?_,
      fun i hi => ?_⟩
    · rw [Flow.state, hfs, ← ht, events_act]
      simp
    · match i with
      | 0 => exact ⟨_, by rw [List.getElem?_cons_zero, frameEvent_of_clear (u := .p3) hloss]⟩
      | i + 1 =>
        obtain ⟨bytes, hbytes⟩ := hframes i (by omega)
        exact ⟨bytes, by rw [List.getElem?_cons_succ, hbytes, hcfg]⟩

/-- Settles O54, by induction on the periods left. -/
theorem proto3LockTimeout : Obligations.Proto3LockTimeout := framePeriods_of_p3

end Sys2Proof.Machine
end

section
/-! What one bit of a unit amounts to: the ways a frame end goes, the events of `unit_bit` with LOSS and
the draws that follow them, and the order of its steps (42_frame_common.md R200, R215, R221, R437). -/

namespace Sys2Proof.Machine

open Sys2Proof

/-! ### The ways a frame end goes, said once -/

/-- The ways a frame end of a locking TDMA unit goes (R256, R257). -/
inductive TdmaFrameEnd (u : UnitId) (period : Nat) (s : State) : Flow → Prop
  /-- A sync frame is emitted, the unit being in VOICE or in DATA after it. -/
  | confirmed (voice : Bool) (sub : BitVec 4) (st : AcqState) (seq : BitVec 3)
      (hst : st = .voice ∧ seq = 0 ∨ st = .data ∧ seq = (s.unit u).seq) :
      TdmaFrameEnd u period s (.goOn (confirmedFrame u period voice sub st seq s))
  /-- In NONE the frame position is dropped. -/
  | dropped (hst : (s.unit u).st = .none) :
      TdmaFrameEnd u period s (.goOn (s.act u { s.unit u with enp := none, sf := false } []))
  /-- A missed period is counted. -/
  | counted (hlc : (s.unit u).lc - 1 ≠ 0) :
      TdmaFrameEnd u period s (.goOn (s.act u { (s.unit u).onePeriodOn (winLen s.par u) period with
        lc := (s.unit u).lc - 1 } []))
  /-- A missed period in VOICE is counted, numbered and continued. -/
  | continued (hlc : (s.unit u).lc - 1 ≠ 0) :
      TdmaFrameEnd u period s (.goOn (s.act u { (s.unit u).onePeriodOn (winLen s.par u) period with
        lc := (s.unit u).lc - 1, seq := BitVec.ofNat 3 (nextSeq (s.unit u).seq), loss := false }
        [frameEvent s u false true (BitVec.ofNat 4 (nextSeq (s.unit u).seq)) s.par.fT]))
  /-- A rejected frame resets a unit in NONE. -/
  | rejected : TdmaFrameEnd u period s (.skip (resetUnit u s))
  /-- A frame that ends the reception is emitted, and resets. -/
  | ended (dt : BitVec 4) : TdmaFrameEnd u period s
      (.skip (resetUnit u (emitFrame u true false dt s.par.fT s)))
  /-- Lock is lost. -/
  | lost : TdmaFrameEnd u period s (.skip (lostUnit u s))

section
variable (u : UnitId) (period : Nat) (s : State)

/-- The end of a missed period. -/
theorem tdmaPeriodEnd_missed_cases : TdmaFrameEnd u period s (tdmaPeriodEnd u period false s) := by
  by_cases hnone : (s.unit u).st = .none
  · rw [tdmaPeriodEnd_of_none hnone]
    exact .dropped hnone
  · by_cases hlc : (s.unit u).lc - 1 = 0
    · rw [tdmaPeriodEnd_of_expired hnone hlc]
      exact .lost
    · by_cases hcont : (s.unit u).st = .voice ∧ (s.unit u).sf = false
      · rw [tdmaPeriodEnd_of_continued hcont.1 hcont.2 hlc]
        exact .continued hlc
      · rw [tdmaPeriodEnd_of_counted hnone hlc hcont]
        exact .counted hlc

theorem tdmaDataFrame_cases (hsf : (s.unit u).sf = true) (dt : BitVec 4) :
    TdmaFrameEnd u period s (tdmaDataFrame u period dt s) := by
  cases hclass : classOf s.par dt
  case header =>
    rw [tdmaDataFrame_of_data hsf (.inl hclass)]
    exact .confirmed _ _ _ _ (.inr ⟨rfl, rfl⟩)
  case cont =>
    by_cases hst : (s.unit u).st = .data
    · rw [tdmaDataFrame_of_data hsf (.inr ⟨hclass, hst⟩)]
      exact .confirmed _ _ _ _ (.inr ⟨rfl, rfl⟩)
    · rw [tdmaDataFrame_of_cont hclass hst]
      exact tdmaPeriodEnd_missed_cases u period s
  case vhdr =>
    rw [tdmaDataFrame_of_vhdr hsf hclass]
    exact .confirmed _ _ _ _ (.inl ⟨rfl, rfl⟩)
  case tlc =>
    rw [tdmaDataFrame_of_ending (.inl hclass)]
    exact .ended dt
  case other =>
    rw [tdmaDataFrame_of_ending (.inr hclass)]
    exact .ended dt

theorem frameEndTdma_cases : TdmaFrameEnd u period s (frameEndTdma u period s) := by
  cases hsf : (s.unit u).sf
  · rw [frameEndTdma_of_missed hsf]
    exact tdmaPeriodEnd_missed_cases u period s
  · cases hsk : (s.unit u).sk
    · cases hdt : acceptedDataType s u with
      | none =>
        rw [frameEndTdma_of_rejected hsf hsk hdt, tdmaValidationFailure]
        split
        · exact .lost
        · exact .rejected
      | some dt =>
        rw [frameEndTdma_of_data hsf hsk hdt]
        exact tdmaDataFrame_cases u period s hsf dt
    · rw [frameEndTdma_voice_eq hsf hsk]
      exact .confirmed _ _ _ _ (.inl ⟨rfl, rfl⟩)
end

/-- The ways a frame end of P2 at end position `e` goes (R338 to R341). -/
inductive P2FrameEnd (e : Nat) (s : State) : Flow → Prop
  /-- A terminator is emitted and resets. -/
  | ended : P2FrameEnd e s
      (.skip (resetUnit .p2 (emitFrame .p2 s.hdr.hsy false s.hdr.ft s.hdr.fl.toNat s)))
  /-- A validated frame is emitted and reloads the counter. -/
  | validated (hok : s.hdr.hok = true) : P2FrameEnd e s (.goOn (scheduleNextP2 e (s.act .p2
      { s.p2 with lc := BitVec.ofNat 8 s.par.maxLostP2, loss := false }
      [frameEvent s .p2 s.hdr.hsy (s.p2.st == .voice) s.hdr.ft s.hdr.fl.toNat])))
  /-- A missed frame in VOICE is emitted. -/
  | continued (hlc : s.p2.lc - 1 ≠ 0) : P2FrameEnd e s (.goOn (scheduleNextP2 e (s.act .p2
      { s.p2 with lc := s.p2.lc - 1, loss := false }
      [frameEvent s .p2 false true s.hdr.ft s.hdr.fl.toNat])))
  /-- Any other missed frame is only counted. -/
  | missed (hlc : s.p2.lc - 1 ≠ 0) : P2FrameEnd e s (.goOn (scheduleNextP2 e (s.act .p2
      { s.p2 with lc := s.p2.lc - 1 } [])))
  /-- Lock is lost. -/
  | lost : P2FrameEnd e s (.skip (lostUnit .p2 s))

theorem frameEndP2_cases (e : Nat) (s : State) : P2FrameEnd e s (frameEndP2 e s) := by
  cases hok : s.hdr.hok
  · by_cases hlc : s.p2.lc - 1 = 0
    · rw [frameEndP2_of_lost hok hlc]
      exact .lost
    · rw [frameEndP2_of_missed hok hlc]
      split
      · exact .continued hlc
      · exact .missed hlc
  · by_cases hcl : s.hdr.cl = .term
    · rw [frameEndP2_of_term hok hcl]
      exact .ended
    · rw [frameEndP2_of_validated hok hcl]
      exact .validated hok

/-! ### The events of one bit (R220, R221, R437) -/

/-- LOSS after a unit's events: set by LOST, cleared by FRAME (R221). -/
def lossAfter (u : UnitId) (loss : Bool) (es : List Event) : Bool :=
  match es.getLast? with
  | none => loss
  | some e => e == .lost u

theorem lossAfter_append (u : UnitId) (loss : Bool) (es es' : List Event) :
    lossAfter u loss (es ++ es') = lossAfter u (lossAfter u loss es) es' := by
  unfold lossAfter
  rw [List.getLast?_append]
  cases es'.getLast? <;> rfl

/-- On the way from `s` to `t` unit u emits `es`; LOSS and the draws follow the events, and the slot
timing stays. -/
structure Emits (u : UnitId) (s t : State) (es : List Event) : Prop where
  events : t.events = s.events ++ es
  draws : t.draws = s.draws + if s.cfg.rssiEn then es.countP Event.isFrame else 0
  loss : (t.unit u).loss = lossAfter u (s.unit u).loss es
  slots : ∀ k, t.slot k = s.slot k
  cfg : t.cfg = s.cfg

section
variable {u : UnitId} {s t x : State} {es es' : List Event}

/-- Nothing that matters to the events happens. -/
theorem emits_nil (hevents : t.events = s.events) (hdraws : t.draws = s.draws)
    (hloss : (t.unit u).loss = (s.unit u).loss) (hslots : ∀ k, t.slot k = s.slot k)
    (hcfg : t.cfg = s.cfg) : Emits u s t [] :=
  ⟨by rw [hevents, List.append_nil], by rw [hdraws, List.countP_nil, ite_self, Nat.add_zero], hloss,
    hslots, hcfg⟩

theorem emits_refl (u : UnitId) (s : State) : Emits u s s [] := emits_nil rfl rfl rfl (fun _ => rfl) rfl

theorem Emits.trans (h : Emits u s t es) (g : Emits u t x es') : Emits u s x (es ++ es') where
  events := by rw [g.events, h.events, List.append_assoc]
  draws := by
    rw [g.draws, h.draws, h.cfg]
    cases s.cfg.rssiEn <;> simp [Nat.add_assoc]
  loss := by rw [g.loss, h.loss, lossAfter_append]
  slots k := (g.slots k).trans (h.slots k)
  cfg := g.cfg.trans h.cfg

theorem Emits.trans_nil (h : Emits u s t []) (g : Emits u t x es) : Emits u s x es := h.trans g

theorem Emits.then_nil (h : Emits u s t es) (g : Emits u t x []) : Emits u s x es :=
  List.append_nil es ▸ h.trans g

theorem emits_act {r : UnitRegs} (h : r.loss = lossAfter u (s.unit u).loss es) :
    Emits u s (s.act u r es) es :=
  ⟨events_act s u r es, draws_act s u r es, by rw [unit_act, h], slot_act s u r es, cfg_act s u r es⟩

theorem emits_setUnit {r : UnitRegs} (h : r.loss = (s.unit u).loss) : Emits u s (s.setUnit u r) [] :=
  setUnit_eq_act s u r ▸ emits_act h

/-- The header registers of P2 are not among what the events depend on. -/
theorem emits_hdr (h : HdrRegs) : Emits u s { s with hdr := h } [] :=
  emits_nil rfl rfl (by cases u <;> rfl) (fun k => by cases k <;> rfl) rfl

theorem lossAfter_frame (loss : Bool) (v : UnitId) (bytes : List Byte) :
    lossAfter u loss [.frame v bytes] = false := rfl

theorem lossAfter_lost (loss : Bool) : lossAfter u loss [.lost u] = true := beq_self_eq_true _

variable (u s)

theorem emits_emitFrame (sync voice : Bool) (sub : BitVec 4) (len : Nat) :
    Emits u s (emitFrame u sync voice sub len s) [frameEvent s u sync voice sub len] := by
  rw [emitFrame_eq_act]
  exact emits_act (lossAfter_frame _ _ _).symm

theorem emits_resetUnit : Emits u s (resetUnit u s) [] := by
  rw [resetUnit_eq_act]
  exact (emits_hdr _).trans_nil (emits_act (by cases u <;> rfl))

theorem emits_lostUnit : Emits u s (lostUnit u s) [.lost u] := by
  rw [lostUnit_eq_act]
  exact (emits_hdr _).trans_nil (emits_act (lossAfter_lost _).symm)
end

/-- The events one bit can have: none, one, or for P3 a FRAME and a LOST (R437). -/
def BitEvents (u : UnitId) (es : List Event) : Prop :=
  es = [] ∨ es = [.lost u] ∨ (∃ bytes, es = [.frame u bytes]) ∨
    (u = .p3 ∧ ∃ bytes, es = [.frame u bytes, .lost u])

theorem bitEvents_frameEvent (s : State) (u : UnitId) (sync voice : Bool) (sub : BitVec 4) (len : Nat) :
    BitEvents u [frameEvent s u sync voice sub len] := .inr (.inr (.inl ⟨_, rfl⟩))

section
variable (s : State)

theorem TdmaFrameEnd.emits {s : State} {u : UnitId} {period : Nat} {f : Flow}
    (h : TdmaFrameEnd u period s f) : ∃ es, BitEvents u es ∧ Emits u s f.state es := by
  cases h with
  | confirmed => exact ⟨_, bitEvents_frameEvent _ _ _ _ _ _, emits_act (lossAfter_frame _ _ _).symm⟩
  | dropped => exact ⟨_, .inl rfl, emits_act rfl⟩
  | counted => exact ⟨_, .inl rfl, emits_act rfl⟩
  | continued => exact ⟨_, bitEvents_frameEvent _ _ _ _ _ _, emits_act (lossAfter_frame _ _ _).symm⟩
  | rejected => exact ⟨_, .inl rfl, emits_resetUnit u s⟩
  | ended => exact ⟨_, bitEvents_frameEvent _ _ _ _ _ _,
      (emits_emitFrame u s _ _ _ _).then_nil (emits_resetUnit u _)⟩
  | lost => exact ⟨_, .inr (.inl rfl), emits_lostUnit u s⟩

theorem emits_frameEndIdle :
    ∃ es, BitEvents .is es ∧ Emits .is s (frameEndIdle s).state es := by
  by_cases h : acceptedDataType s .is = some s.par.idleFwdDt
  · rw [frameEndIdle_of_forwarded h]
    exact ⟨_, bitEvents_frameEvent _ _ _ _ _ _, emits_act (lossAfter_frame _ _ _).symm⟩
  · rw [frameEndIdle_of_other h]
    exact ⟨_, .inl rfl, emits_act rfl⟩

theorem emits_scheduleNextP2 (e : Nat) : Emits .p2 s (scheduleNextP2 e s) [] := by
  obtain ⟨hregs, -, hevents⟩ := scheduleNextP2_spec e s
  have hframe := onlyUnit_scheduleNextP2 e s
  refine emits_nil hevents ?_ (congrArg UnitRegs.loss hregs :) (fun k => hframe.slots k (by simp [slotOf]))
    hframe.cfg
  unfold scheduleNextP2
  dsimp only
  split <;> rfl

theorem P2FrameEnd.emits {s : State} {e : Nat} {f : Flow} (h : P2FrameEnd e s f) :
    ∃ es, BitEvents .p2 es ∧ Emits .p2 s f.state es := by
  cases h with
  | ended => exact ⟨_, bitEvents_frameEvent _ _ _ _ _ _,
      (emits_emitFrame .p2 s _ _ _ _).then_nil (emits_resetUnit .p2 _)⟩
  | validated => exact ⟨_, bitEvents_frameEvent _ _ _ _ _ _,
      (emits_act (lossAfter_frame _ _ _).symm).then_nil (emits_scheduleNextP2 _ e)⟩
  | continued => exact ⟨_, bitEvents_frameEvent _ _ _ _ _ _,
      (emits_act (lossAfter_frame _ _ _).symm).then_nil (emits_scheduleNextP2 _ e)⟩
  | missed => exact ⟨_, .inl rfl, (emits_act (u := .p2) (r := { s.p2 with lc := s.p2.lc - 1 })
      rfl).then_nil (emits_scheduleNextP2 _ e)⟩
  | lost => exact ⟨_, .inr (.inl rfl), emits_lostUnit .p2 s⟩

theorem emits_frameEndP3 (e : Nat) :
    ∃ es, BitEvents .p3 es ∧ Emits .p3 s (frameEndP3 e s).state es := by
  by_cases h : s.p3.sf = true ∨ s.p3.lc - 1 ≠ 0
  · rw [frameEndP3_eq_of_counting e h]
    exact ⟨_, bitEvents_frameEvent _ _ _ _ _ _, emits_act (lossAfter_frame _ _ _).symm⟩
  · rw [not_or, not_not, Bool.not_eq_true] at h
    rw [frameEndP3_eq_of_expired e h.1 h.2]
    exact ⟨_, .inr (.inr (.inr ⟨rfl, _, rfl⟩)), emits_act (beq_self_eq_true (Event.lost .p3)).symm⟩

theorem emits_frameEnd (u : UnitId) (e : Nat) :
    ∃ es, BitEvents u es ∧ Emits u s (frameEnd u e s).state es := by
  cases u
  case is => exact emits_frameEndIdle s
  case p2 => exact (frameEndP2_cases e s).emits
  case p3 => exact emits_frameEndP3 s e
  all_goals exact (frameEndTdma_cases _ _ s).emits

/-- A header step emits nothing, or LOST where it resets. -/
theorem emits_headerStep (u : UnitId) :
    Emits u s (headerStep u s).state [] ∧ (∃ t, headerStep u s = .goOn t) ∨
      Emits u s (headerStep u s).state [.lost u] ∧ ∃ t, headerStep u s = .skip t := by
  rcases headerStep_cases u s with ⟨⟨rfl, -⟩, h⟩ | ⟨-, h⟩ <;> rw [h]
  · cases hvalid : validHeader s with
    | none =>
      cases hsy : s.hdr.hsy
      · rw [headerP2_of_invalid_blind hvalid hsy]
        exact .inl ⟨emits_hdr _, _, rfl⟩
      · rw [headerP2_of_invalid_sync hvalid hsy]
        exact .inr ⟨emits_lostUnit .p2 s, _, rfl⟩
    | some header =>
      rw [headerP2_of_valid hvalid]
      exact .inl ⟨(emits_hdr _).trans_nil (emits_setUnit rfl), _, rfl⟩
  · exact .inl ⟨emits_refl u s, _, rfl⟩

theorem emits_frameEndStep (u : UnitId) :
    ∃ es, BitEvents u es ∧ Emits u s (frameEndStep u s).state es := by
  rcases frameEndStep_cases u s with ⟨-, h⟩ | ⟨-, h⟩ <;> rw [h]
  · exact emits_frameEnd s u _
  · exact ⟨_, .inl rfl, emits_refl u s⟩

theorem emits_onSync (u : UnitId) (i : Nat) : Emits u s (onSync u i s) [] := by
  cases u
  case p2 =>
    rw [onSync, onSyncP2_eq]
    exact (emits_hdr _).trans_nil (emits_setUnit rfl)
  case p3 =>
    have h : onSyncP3 s = s.setUnit .p3 (onSyncP3 s).p3 := by rw [onSyncP3_eq]; rfl
    rw [onSync, h]
    exact emits_setUnit (by rw [onSyncP3_eq]; rfl)
  all_goals
    rw [onSync, onSyncTdma_eq]
    exact emits_setUnit rfl

theorem emits_correlateStep (u : UnitId) : Emits u s (correlateStep u s) [] := by
  rcases correlateStep_cases u s with ⟨i, -, -, h⟩ | ⟨-, h⟩ <;> rw [h]
  · exact emits_onSync s u i
  · exact emits_refl u s
end

/-! ### The order of the steps (R200, R215) -/

section
variable {u : UnitId} {s x y z : State}

/-- A header step that resets skips the frame end and the correlation. -/
theorem frameSteps_of_header_skip (h : headerStep u x = .skip y) : frameSteps u x = y := by
  rw [frameSteps, h]

/-- A frame end that resets skips the correlation. -/
theorem frameSteps_of_frameEnd_skip (h : headerStep u x = .goOn y) (g : frameEndStep u y = .skip z) :
    frameSteps u x = z := by
  rw [frameSteps, h]
  simp only [g]

theorem frameSteps_of_goOn (h : headerStep u x = .goOn y) (g : frameEndStep u y = .goOn z) :
    frameSteps u x = correlateStep u z := by
  rw [frameSteps, h]
  simp only [g]

theorem emits_frameSteps (u : UnitId) (x : State) :
    ∃ es, BitEvents u es ∧ Emits u x (frameSteps u x) es := by
  rcases emits_headerStep x u with ⟨hheader, y, h⟩ | ⟨hheader, y, h⟩ <;> rw [h] at hheader
  · obtain ⟨es, hes, hend⟩ := emits_frameEndStep y u
    refine ⟨es, hes, hheader.trans_nil ?_⟩
    cases g : frameEndStep u y with
    | skip z => rw [frameSteps_of_frameEnd_skip h g]; rwa [g] at hend
    | goOn z =>
      rw [frameSteps_of_goOn h g]
      rw [g] at hend
      exact hend.then_nil (emits_correlateStep z u)
  · exact ⟨_, .inr (.inl rfl), frameSteps_of_header_skip h ▸ hheader⟩

/-! ### What steps 2 and 3 leave -/

variable (u s) (b : Bool) (tag : Tag)

theorem onlyUnit_received : OnlyUnit u s (trackSlot u tag (takeBit u b s)) :=
  onlyUnit_trans (onlyUnit_takeBit u b s) (onlyUnit_trackSlot u tag _)

theorem takeBit_eq : takeBit u b s = s.setUnit u { s.unit u with
    win := Memory.write unwrittenBit (s.unit u).win ((s.unit u).dp % winLen s.par u) b
    sr := shiftIn (s.unit u).sr b } := by
  rw [takeBit, winWrite, unit_setUnit_same, setUnit_setUnit]

theorem trackSlot_frame (x : State) : (trackSlot u tag x).hdr = x.hdr ∧
    (trackSlot u tag x).events = x.events ∧ (trackSlot u tag x).draws = x.draws := by
  unfold trackSlot
  split
  · exact ⟨hdr_setSlot _ _ _, events_setSlot _ _ _, draws_setSlot _ _ _⟩
  · exact ⟨rfl, rfl, rfl⟩

theorem received_frame : (trackSlot u tag (takeBit u b s)).hdr = s.hdr ∧
    (trackSlot u tag (takeBit u b s)).events = s.events ∧
    (trackSlot u tag (takeBit u b s)).draws = s.draws := by
  obtain ⟨hhdr, hevents, hdraws⟩ := trackSlot_frame u tag (takeBit u b s)
  rw [hhdr, hevents, hdraws, takeBit_eq]
  exact ⟨hdr_setUnit _ _ _, events_setUnit _ _ _, draws_setUnit _ _ _⟩

/-- The slot timing of a duplex unit after a bit (R252). -/
def trackedSlot (k : SlotId) (tag : Tag) (dp : Nat) (s : State) : SlotRegs :=
  { s.slot k with
    exp := if tag = Config.tagSlot k ∧ (s.slot k).pis = false then
        some ((dp + s.par.syncEndOfs) % 576)
      else (s.slot k).exp
    pis := tag == Config.tagSlot k }

theorem slot_received {k : SlotId} (hk : slotOf u = some k) :
    (trackSlot u tag (takeBit u b s)).slot k = trackedSlot k tag (s.unit u).dp s := by
  rw [takeBit_eq, trackSlot, hk]
  simp only [tagTrack, slot_setSlot_same, slot_setUnit, unit_setUnit_same, par_setUnit]
  have hcond : ((tag == Config.tagSlot k && !(s.slot k).pis) = true) ↔
      (tag = Config.tagSlot k ∧ (s.slot k).pis = false) := by simp
  simp only [hcond]
  rfl

end

end Sys2Proof.Machine
end

section
/-! `unit_bit` as a whole: the order of its steps, its frame, its events, and what a routed bit changes
(42_frame_common.md R200, R227, R437; 43_tdma_duplex.md R251 to R253; 48_control.md R390, R392). -/

namespace Sys2Proof.Machine

open Sys2Proof

/-! ### A bit that is not dropped -/

section
variable {u : UnitId} {s : State} (b : Bool) (tag : Tag)

theorem unitBit_of_taken (h : ∀ k, slotOf u = some k → s.cfg.chDelay ≤ (s.slot k).dly) :
    unitBit b tag s u = consumeBit u b tag s := by
  rcases unitBit_cases u b tag s with ⟨k, hk, hdrop, -⟩ | ⟨-, e⟩
  · exact absurd (h k hk) (BitVec.not_le.2 hdrop)
  · exact e

theorem unitBit_of_dropped {k : SlotId} (hk : slotOf u = some k)
    (h : (s.slot k).dly < s.cfg.chDelay) :
    unitBit b tag s u = s.setSlot k { s.slot k with dly := (s.slot k).dly + 1 } := by
  unfold unitBit
  rw [hk]
  exact if_pos h

theorem consumeBit_eq : consumeBit u b tag s =
    dpAdvanced u (frameSteps u (trackSlot u tag (takeBit u b s))) := rfl
end

/-- Steps 4 and 5 leave the data pointer and the shift register where they go on. -/
theorem headerStep_goOn {u : UnitId} {x y : State} (h : headerStep u x = .goOn y) :
    (y.unit u).sr = (x.unit u).sr ∧ (y.unit u).dp = (x.unit u).dp := by
  rcases headerStep_cases u x with ⟨⟨rfl, -⟩, e⟩ | ⟨-, e⟩
  · exact headerP2_goOn (e.symm.trans h)
  · obtain rfl := Flow.goOn.inj (e.symm.trans h)
    exact ⟨rfl, rfl⟩

theorem frameEndStep_goOn {u : UnitId} {y z : State} (h : frameEndStep u y = .goOn z) :
    (z.unit u).sr = (y.unit u).sr ∧ (z.unit u).dp = (y.unit u).dp := by
  rcases frameEndStep_cases u y with ⟨-, e⟩ | ⟨-, e⟩
  · exact frameEnd_goOn (e.symm.trans h)
  · obtain rfl := Flow.goOn.inj (e.symm.trans h)
    exact ⟨rfl, rfl⟩

/-- Step 4 in the terms of the header that is due (R200). -/
theorem headerStep_eq_goOn {u : UnitId} {x y : State}
    (h : if headerDue u x then headerP2 x = .goOn y else y = x) : headerStep u x = .goOn y := by
  rcases headerStep_cases u x with ⟨hdue, e⟩ | ⟨hdue, e⟩ <;> rw [e]
  · rwa [if_pos hdue] at h
  · rw [if_neg hdue] at h
    rw [h]

theorem frameEndStep_eq_goOn {u : UnitId} {y z : State}
    (h : if (y.unit u).enp = some (y.unit u).dp then frameEnd u (y.unit u).dp y = .goOn z else z = y) :
    frameEndStep u y = .goOn z := by
  rcases frameEndStep_cases u y with ⟨hend, e⟩ | ⟨hend, e⟩ <;> rw [e]
  · rwa [if_pos hend] at h
  · rw [if_neg hend] at h
    rw [h]

theorem par_of_headerStep {u : UnitId} {x y : State} (h : headerStep u x = .goOn y) :
    y.par = x.par := by
  have hframe := (onlyUnit_headerStep u x).par
  rwa [h] at hframe

theorem par_of_frameEndStep {u : UnitId} {y z : State} (h : frameEndStep u y = .goOn z) :
    z.par = y.par := by
  have hframe := (onlyUnit_frameEndStep u y).par
  rwa [h] at hframe

theorem correlateStep_of_some {u : UnitId} {z : State} {i : Nat} (hgate : gateAllows u z)
    (h : correlate (z.unit u).sr (patterns z.par u) (threshold z.par u (z.unit u).st) = some i) :
    correlateStep u z = onSync u i z := by
  rcases correlateStep_cases u z with ⟨j, -, hj, e⟩ | ⟨hnone, -⟩
  · rw [e, Option.some.inj (hj.symm.trans h)]
  · rw [hnone hgate] at h
    cases h

theorem correlateStep_of_none {u : UnitId} {z : State} (h : gateAllows u z →
    correlate (z.unit u).sr (patterns z.par u) (threshold z.par u (z.unit u).st) = none) :
    correlateStep u z = z := by
  rcases correlateStep_cases u z with ⟨j, hgate, hj, -⟩ | ⟨-, e⟩
  · rw [h hgate] at hj
    cases hj
  · exact e

/-- Settles O33: steps 2 and 3, then each of steps 4 to 6 by what the ones before it answered. -/
theorem unitBitRunsItsSteps : Obligations.UnitBitRunsItsSteps := by
  unfold Obligations.UnitBitRunsItsSteps
  intro u b tag s htaken
  rw [unitBit_of_taken b tag htaken, consumeBit_eq]
  obtain ⟨hhdr, hevents, hdraws⟩ := received_frame u s b tag
  have hunit := unit_trackSlot_takeBit u b tag s
  have honly := onlyUnit_received u s b tag
  have hslot (k : SlotId) (hk : slotOf u = some k) := slot_received u s b tag hk
  generalize trackSlot u tag (takeBit u b s) = x at *
  rw [shiftIn_eq] at hunit
  have hdp : (x.unit u).dp = (s.unit u).dp := by rw [hunit]
  have hdue : headerDue u x ↔ headerDue u s := by
    refine and_congr_right fun hu => ?_
    subst hu
    rw [hhdr]
    exact iff_of_eq (congrArg (fun d => s.hdr.hdp = some d) hdp)
  refine ⟨x, honly, hhdr, hevents, hdraws, hunit, hslot, fun h y hy => ?header, fun y hy => ?_⟩
  case header =>
    rw [frameSteps_of_header_skip (y := y)]
    rcases headerStep_cases u x with ⟨-, e⟩ | ⟨hnot, -⟩
    · exact e.trans hy
    · exact absurd (hdue.2 h) hnot
  have hheader : headerStep u x = .goOn y := headerStep_eq_goOn (by simpa only [hdue] using hy)
  have hydp : (y.unit u).dp = (s.unit u).dp := (headerStep_goOn hheader).2.trans hdp
  refine ⟨fun henp z hz => ?frameEnd, fun z hz => ?_⟩
  case frameEnd =>
    rw [frameSteps_of_frameEnd_skip (z := z) hheader]
    rcases frameEndStep_cases u y with ⟨-, e⟩ | ⟨hnot, -⟩
    · exact e.trans (hydp ▸ hz)
    · exact absurd (hydp ▸ henp) hnot
  have hend : frameEndStep u y = .goOn z := frameEndStep_eq_goOn (by simpa only [hydp] using hz)
  have hpar : z.par = s.par :=
    ((par_of_frameEndStep hend).trans (par_of_headerStep hheader)).trans honly.par
  rw [frameSteps_of_goOn hheader hend, ← hpar]
  refine ⟨?_, fun i hgate hi => ?_, fun hnone => ?_⟩
  · rw [(frameEndStep_goOn hend).1, (headerStep_goOn hheader).1, hunit]
  · rw [correlateStep_of_some hgate hi]
  · rw [correlateStep_of_none hnone]

/-! ### The events of one bit -/

/-- What one bit emits (R437). -/
theorem unitBit_emits (u : UnitId) (b : Bool) (tag : Tag) (s : State) : ∃ es, BitEvents u es ∧
    (unitBit b tag s u).events = s.events ++ es ∧
    (unitBit b tag s u).draws = s.draws + (if s.cfg.rssiEn then es.countP Event.isFrame else 0) ∧
    ((unitBit b tag s u).unit u).loss = lossAfter u (s.unit u).loss es := by
  rcases unitBit_cases u b tag s with ⟨k, hk, -, h⟩ | ⟨-, h⟩ <;> rw [h]
  · exact ⟨[], .inl rfl, by rw [events_setSlot, List.append_nil], by rw [draws_setSlot]; simp,
      by rw [unit_setSlot]; rfl⟩
  · obtain ⟨-, hevents, hdraws⟩ := received_frame u s b tag
    have hunit := unit_trackSlot_takeBit u b tag s
    have hcfg := (onlyUnit_received u s b tag).cfg
    obtain ⟨es, hes, he⟩ := emits_frameSteps u (trackSlot u tag (takeBit u b s))
    refine ⟨es, hes, ?_, ?_, ?_⟩
    · rw [consumeBit_eq, dpAdvanced, events_setUnit, he.events, hevents]
    · rw [consumeBit_eq, dpAdvanced, draws_setUnit, he.draws, hdraws, hcfg]
    · rw [consumeBit_eq, dpAdvanced, unit_setUnit_same]
      exact he.loss.trans (by rw [hunit])

/-- Settles O36: the events of a bit, with LOSS and the draws that follow them. -/
theorem eventsOfOneBit : Obligations.EventsOfOneBit := by
  unfold Obligations.EventsOfOneBit
  intro u b tag s
  obtain ⟨es, hes, hevents, hdraws, hloss⟩ := unitBit_emits u b tag s
  refine ⟨es, hevents, hes, fun hnil => ?_, fun hne => ?_, ?_⟩
  · rw [hloss, hnil]
    rfl
  · rw [hloss, lossAfter, List.getLast?_eq_getLast_of_ne_nil hne]
    simp
  · rw [hdraws]
    rcases hes with rfl | rfl | ⟨bytes, rfl⟩ | ⟨-, bytes, rfl⟩ <;> cases s.cfg.rssiEn <;>
      simp [Event.isFrame, List.countP_cons]

/-- The events of a unit's bit are appended. -/
theorem events_unitBit (u : UnitId) (b : Bool) (tag : Tag) (s : State) :
    s.events <+: (unitBit b tag s u).events := by
  obtain ⟨es, -, hevents, -⟩ := unitBit_emits u b tag s
  exact ⟨es, hevents.symm⟩

/-- Settles O34. -/
theorem unitBitStaysInItsUnit : Obligations.UnitBitStaysInItsUnit := by
  unfold Obligations.UnitBitStaysInItsUnit
  exact fun u b tag s => ⟨onlyUnit_unitBit u b tag s, events_unitBit u b tag s⟩

/-! ### The duplex timeslots (R250 to R253) -/

/-- Steps 4 to 7 leave the slot timing. -/
theorem slot_consumeBit {u : UnitId} {k : SlotId} (hk : slotOf u = some k) (b : Bool) (tag : Tag)
    (s : State) : (consumeBit u b tag s).slot k = trackedSlot k tag (s.unit u).dp s := by
  obtain ⟨es, -, he⟩ := emits_frameSteps u (trackSlot u tag (takeBit u b s))
  rw [consumeBit_eq, dpAdvanced, slot_setUnit, he.slots, slot_received u s b tag hk]

/-- Settles O43. -/
theorem channelDelayAndTagTracking : Obligations.ChannelDelayAndTagTracking := by
  unfold Obligations.ChannelDelayAndTagTracking
  refine ⟨rfl, rfl, fun u k b tag s hk => ⟨fun hdrop => ?dropped, fun htaken => ?taken⟩⟩
  case dropped =>
    rw [unitBit_of_dropped b tag hk hdrop]
    refine ⟨rfl, ?_⟩
    rw [slot_setSlot_same]
    bv_omega
  case taken =>
    rw [unitBit_of_taken b tag fun j hj => Option.some.inj (hk.symm.trans hj) ▸ htaken]
    exact slot_consumeBit hk b tag s

/-- Settles O44: no header, no frame end, and the gate is closed. -/
theorem gateBlocksAcquisition : Obligations.GateBlocksAcquisition := by
  unfold Obligations.GateBlocksAcquisition
  intro u k b tag s hk hst henp htaken hslot haway
  rw [unitBit_of_taken b tag fun j hj => Option.some.inj (hk.symm.trans hj) ▸ htaken, consumeBit_eq]
  obtain ⟨-, hevents, -⟩ := received_frame u s b tag
  have hunit := unit_trackSlot_takeBit u b tag s
  have hexp : ((trackSlot u tag (takeBit u b s)).slot k).exp = (s.slot k).exp := by
    rw [slot_received u s b tag hk]
    exact if_neg hslot
  generalize trackSlot u tag (takeBit u b s) = x at *
  have hheader : headerStep u x = .goOn x := by
    refine headerStep_eq_goOn ?_
    rw [if_neg]
    rintro ⟨rfl, -⟩
    cases hk
  have hend : frameEndStep u x = .goOn x := by
    refine frameEndStep_eq_goOn ?_
    rw [if_neg]
    rw [hunit, henp]
    exact Option.some_ne_none _ ∘ Eq.symm
  have hgate : ¬ gateAllows u x := by
    intro h
    obtain ⟨e, he, hnear⟩ := h k hk (by rw [hunit]; exact hst)
    rw [hexp] at he
    have hdp : (x.unit u).dp = (s.unit u).dp := by rw [hunit]
    rw [hdp] at hnear
    exact absurd hnear (Nat.not_le.2 (haway e he))
  rw [frameSteps_of_goOn hheader hend, correlateStep_of_none fun h => absurd h hgate, dpAdvanced,
    unit_setUnit_same, events_setUnit, hunit]
  exact ⟨hst, henp, hevents⟩

end Sys2Proof.Machine
end

section
/-! What a command or a step changes in the units: a routed bit, a reset, an activation, or nothing
(48_control.md R390 to R398, 42_frame_common.md R225, 10_state.md R55). -/

namespace Sys2Proof.Machine

open Sys2Proof

/-! ### Units that a step leaves alone -/

/-- Unit u holds what it held: its registers, its slot timing, and P2's header registers. -/
structure KeepsUnit (u : UnitId) (s t : State) : Prop where
  unit : t.unit u = s.unit u
  slots : ∀ k, slotOf u = some k → t.slot k = s.slot k
  hdr : u = .p2 → t.hdr = s.hdr

section
variable {u v : UnitId} {s t x : State}

theorem keepsUnit_refl (u : UnitId) (s : State) : KeepsUnit u s s := ⟨rfl, fun _ _ => rfl, fun _ => rfl⟩

theorem KeepsUnit.trans (h : KeepsUnit u s t) (g : KeepsUnit u t x) : KeepsUnit u s x :=
  ⟨g.unit.trans h.unit, fun k hk => (g.slots k hk).trans (h.slots k hk),
    fun hu => (g.hdr hu).trans (h.hdr hu)⟩

/-- Each timeslot belongs to one unit (R250). -/
theorem eq_of_slotOf {k : SlotId} (hu : slotOf u = some k) (hv : slotOf v = some k) : u = v := by
  cases u <;> cases v <;> cases k <;> simp [slotOf] at hu hv ⊢

theorem OnlyUnit.keepsUnit (h : OnlyUnit u s t) (hv : v ≠ u) : KeepsUnit v s t where
  unit := h.other v hv
  slots k hk := h.slots k fun hu => hv (eq_of_slotOf hk hu)
  hdr hp := h.hdr fun hu => hv (hp.trans hu.symm)

theorem KeepsUnit.atRest (h : KeepsUnit u s t) (hs : atRest s u) : atRest t u := by
  obtain ⟨hunit, hslots, hhdr⟩ := hs
  exact ⟨h.unit.trans hunit, fun k hk => (h.slots k hk).trans (hslots k hk),
    fun hu => (h.hdr hu).trans (hhdr hu)⟩
end

/-! ### Routing -/

section
variable (b : Bool) (g : Tag) (s : State)

/-- A routed bit leaves the units that are not active (R392). -/
theorem keepsUnit_route {v : UnitId} (hv : v ∉ s.mode.active) : KeepsUnit v s (route b g s) := by
  refine List.foldlRecOn (motive := fun x => KeepsUnit v s x) s.mode.active (unitBit b g)
    (keepsUnit_refl v s) fun x hx u hu => hx.trans ?_
  exact (onlyUnit_unitBit u b g x).keepsUnit fun h => hv (h ▸ hu)

/-- A routed bit only appends events (R225). -/
theorem events_route : s.events <+: (route b g s).events :=
  List.foldlRecOn (motive := fun x => s.events <+: x.events) s.mode.active (unitBit b g)
    ⟨[], List.append_nil _⟩ fun x hx u _ => hx.trans (events_unitBit u b g x)

theorem route_of_idle (h : s.mode = .idle) : route b g s = s := route_of_mode h b g
end

/-- What FEED and DATABIT do: nothing but a response, or a routed bit, of a sample taken or given. -/
theorem routing_cases {i : Instr} {s t : State} (hi : i = .feed ∨ ∃ b g, i = .databit b g)
    (hp : s.port = .consumer) (h : exec i s = .next t) :
    (i = .feed ∧ ∃ w, t = { s with consResp := some w }) ∨
    (i = .feed ∧ ∃ b g w, t = { route b g (ringPop s) with consResp := some w }) ∨
    ∃ b g w, t = { route b g s with consResp := some w } := by
  rcases hi with rfl | ⟨b, g, rfl⟩
  · by_cases hocc : occR s = 0
    · rw [exec_feed_empty hp hocc, fail_of_consumer hp] at h
      cases h
      exact .inl ⟨rfl, _, rfl⟩
    · rw [exec_feed_taken hp hocc] at h
      cases h
      exact .inr (.inl ⟨rfl, _, _, _,
        answer_of_consumer ((port_route _ _ (ringPop s)).trans hp) _⟩)
  · rw [exec_databit hp] at h
    cases h
    exact .inr (.inr ⟨b, g, _, answer_of_consumer ((port_route b g s).trans hp) _⟩)

/-- The frame of a routed bit with its response, from a state `x` that differs in the ring buffer. -/
theorem routed_frame (b : Bool) (g : Tag) (x : State) (w : Word) {t : State}
    (ht : t = { route b g x with consResp := some w }) :
    (∀ u, u ∉ x.mode.active → t.unit u = x.unit u ∧
      (∀ k, slotOf u = some k → t.slot k = x.slot k) ∧ (u = .p2 → t.hdr = x.hdr)) ∧
    t.rb = x.rb ∧ t.cfg = x.cfg ∧ t.mode = x.mode ∧
    t.par = x.par ∧ t.rst = x.rst ∧ t.moves = x.moves ∧ t.turn = x.turn ∧ t.port = x.port ∧
    t.prodIn = x.prodIn ∧ t.consIn = x.consIn ∧ t.prodResp = x.prodResp ∧ t.flush = x.flush ∧
    x.events <+: t.events ∧ (x.mode = .idle → t.events = x.events) := by
  subst ht
  refine ⟨fun u hu => ?_, rb_route b g x, cfg_route b g x, mode_route b g x, par_route b g x,
    rst_route b g x, moves_route b g x, turn_route b g x, port_route b g x, prodIn_route b g x,
    consIn_route b g x, prodResp_route b g x, flush_route b g x, events_route b g x,
    fun hm => (congrArg State.events (route_of_idle b g x hm) :)⟩
  have hkeeps := keepsUnit_route b g x hu
  exact ⟨by cases u <;> exact hkeeps.unit, fun k hk => by cases k <;> exact hkeeps.slots _ hk, hkeeps.hdr⟩

/-- Settles O56. -/
theorem routedBitFrame : Obligations.RoutedBitFrame := by
  unfold Obligations.RoutedBitFrame
  intro i s t hi hp h
  rcases routing_cases hi hp h with ⟨rfl, w, ht⟩ | ⟨rfl, b, g, w, ht⟩ | ⟨b, g, w, ht⟩
  · subst ht
    exact ⟨fun u _ => ⟨by cases u <;> rfl, fun k _ => by cases k <;> rfl, fun _ => rfl⟩, rfl,
      fun _ => rfl, rfl, rfl, rfl, rfl, rfl, rfl, rfl, rfl, rfl, rfl, rfl, ⟨[], List.append_nil _⟩,
      fun _ => rfl⟩
  · obtain ⟨hunits, hrb, hrest⟩ := routed_frame b g (ringPop s) w ht
    refine ⟨fun u hu => ?_, ?_, fun ⟨b, g, hi⟩ => (by cases hi), hrest⟩
    · obtain ⟨hunit, hslots, hhdr⟩ := hunits u hu
      exact ⟨hunit.trans (by cases u <;> rfl), fun k hk => (hslots k hk).trans (by cases k <;> rfl), hhdr⟩
    · rw [hrb]
      rfl
  · obtain ⟨hunits, hrb, hrest⟩ := routed_frame b g s w ht
    refine ⟨hunits, ?_, fun _ => hrb, hrest⟩
    rw [hrb]

/-! ### What a step does to the units -/

/-- Two states with the same parameters, mode, units and events. -/
structure UnitsAgree (s t : State) : Prop where
  par : t.par = s.par
  mode : t.mode = s.mode
  events : t.events = s.events
  keeps : ∀ u, KeepsUnit u s t

/-- What a step that is no move of `rst` does to the units. -/
inductive UnitsChange (s t : State) : Prop
  /-- Nothing. -/
  | none (h : UnitsAgree s t)
  /-- A bit is routed to the active units. -/
  | routed (b : Bool) (g : Tag) (x : State) (hx : UnitsAgree s x) (h : UnitsAgree (route b g x) t)
  /-- One unit is reset. -/
  | reset (u : UnitId) (x : State) (hx : UnitsAgree s x) (h : UnitsAgree (resetUnit u x) t)
  /-- A mode is activated. -/
  | activated (m : Mode) (x : State) (hx : UnitsAgree s x) (h : UnitsAgree (activate m x) t)

section
variable {s t x : State}

/-- States that differ in other fields only. -/
theorem unitsAgree_of_eq (hpar : t.par = s.par) (hmode : t.mode = s.mode)
    (hevents : t.events = s.events) (hunits : ∀ u, t.unit u = s.unit u)
    (hslots : ∀ k, t.slot k = s.slot k) (hhdr : t.hdr = s.hdr) : UnitsAgree s t :=
  ⟨hpar, hmode, hevents, fun u => ⟨hunits u, fun k _ => hslots k, fun _ => hhdr⟩⟩

theorem UnitsAgree.trans (h : UnitsAgree s t) (g : UnitsAgree t x) : UnitsAgree s x :=
  ⟨g.par.trans h.par, g.mode.trans h.mode, g.events.trans h.events,
    fun u => (h.keeps u).trans (g.keeps u)⟩

/-- A response is no change of the units. -/
theorem UnitsAgree.respondOn {p : Port} {w : Word} (h : UnitsAgree s x) :
    UnitsAgree s (x.respondOn p w) :=
  h.trans (unitsAgree_of_eq (par_respondOn x p w) (mode_respondOn x p w) (events_respondOn x p w)
    (fun u => unit_respondOn x u p w) (fun k => slot_respondOn x k p w) (hdr_respondOn x p w))

theorem unitsAgree_refl (s : State) : UnitsAgree s s := ⟨rfl, rfl, rfl, fun u => keepsUnit_refl u s⟩

/-- Two states that list the same units, slot timing and header registers. -/
theorem unitsAgree_of_regs (h : (s.par, s.mode, s.events, s.dx1, s.dx2, s.sx, s.is, s.p2, s.p3,
    s.slot1, s.slot2, s.hdr) = (t.par, t.mode, t.events, t.dx1, t.dx2, t.sx, t.is, t.p2, t.p3,
    t.slot1, t.slot2, t.hdr)) : UnitsAgree s t := by
  simp only [Prod.mk.injEq] at h
  obtain ⟨hpar, hmode, hev, h1, h2, h3, h4, h5, h6, h7, h8, h9⟩ := h
  exact unitsAgree_of_eq hpar.symm hmode.symm hev.symm
    (fun u => by cases u <;> simp [State.unit, *]) (fun k => by cases k <;> simp [State.slot, *]) h9.symm

theorem UnitsChange.of_agree (g : UnitsChange x t) (h : UnitsAgree s x) : UnitsChange s t := by
  cases g with
  | none g => exact .none (h.trans g)
  | routed b g y hy ht => exact .routed b g y (h.trans hy) ht
  | reset u y hy ht => exact .reset u y (h.trans hy) ht
  | activated m y hy ht => exact .activated m y (h.trans hy) ht

theorem unitsChange_finishFlush (total : Nat) (act : Option Mode) (s : State) :
    UnitsChange s (finishFlush total act s) := by
  cases act with
  | none =>
    rw [finishFlush_none]
    exact .none (unitsAgree_refl s).respondOn
  | some m =>
    rw [finishFlush_some]
    exact .activated m s (unitsAgree_refl s) (unitsAgree_refl _).respondOn

theorem unitsChange_flushStep (job : FlushJob) (s : State) : UnitsChange s (flushStep job s) := by
  rcases flushStep_cases job s with ⟨-, h⟩ | ⟨-, h⟩ <;> rw [h]
  · exact (unitsChange_finishFlush _ _ _).of_agree (unitsAgree_of_regs rfl)
  · exact .none (unitsAgree_of_regs rfl)

theorem Effect.unitsChange {i : Instr} (h : Effect s i t) : UnitsChange s t := by
  cases h
  case feed w _ _ => exact .routed _ _ (ringPop s) (unitsAgree_of_regs rfl) (unitsAgree_refl _).respondOn
  case databit b g w => exact .routed b g s (unitsAgree_refl s) (unitsAgree_refl _).respondOn
  case fsmReset x u w => exact .reset u s (unitsAgree_refl s) (unitsAgree_refl _).respondOn
  case flush act _ _ =>
    rcases startFlush_cases act s with ⟨-, e⟩ | ⟨-, e⟩ <;> rw [e]
    · exact unitsChange_finishFlush 0 act s
    · exact .none (unitsAgree_of_regs rfl)
  all_goals exact .none (UnitsAgree.respondOn (unitsAgree_of_regs rfl))

theorem unitsChange_runWord {w : Word} (h : runWord w s = .next t) : UnitsChange s t := by
  rcases runWord_cases h with ⟨-, rfl⟩ | ⟨-, i, -, hi⟩ | ⟨-, c, -, rfl⟩
  · exact .none (unitsAgree_refl _)
  · exact (exec_effect hi).unitsChange
  · exact .none (unitsAgree_refl s).respondOn

theorem unitsChange_stepAgent {a : Agent} (h : stepAgent a s = .next t) : UnitsChange s t := by
  rcases stepAgent_cases h with ⟨w, ws, -, -, h⟩ | ⟨-, -, rfl⟩ | ⟨job, -, -, rfl⟩ |
    ⟨w, ws, -, -, -, h⟩ | ⟨-, -, -, rfl⟩ | ⟨-, rfl⟩ | ⟨-, rfl⟩ | ⟨-, rfl⟩
  · exact (unitsChange_runWord h).of_agree (unitsAgree_of_regs rfl)
  · exact .none (unitsAgree_of_regs rfl)
  · exact (unitsChange_flushStep job _).of_agree (unitsAgree_of_regs rfl)
  · exact (unitsChange_runWord h).of_agree (unitsAgree_of_regs rfl)
  all_goals exact .none (unitsAgree_of_regs rfl)

/-- Power-on leaves every unit at rest (R471). -/
theorem atRest_of_powerOnReset (level : Bool) (s : State) (u : UnitId) :
    atRest { powerOnReset s with rst := level } u :=
  ⟨by cases u <;> rfl, fun k _ => by cases k <;> rfl, fun _ => rfl⟩

/-- What a step does to the units: a change of them, or a power-on made by a move of `rst`. -/
theorem step_unitsChange (h : step s = .next t) : paramsOk s.par = true ∧ (UnitsChange s t ∨
    (∃ level rest, s.moves = .rst level :: rest) ∧ t.par = s.par ∧ t.mode = .idle ∧
      (∀ u, atRest t u) ∧ t.rb = .powerOn) := by
  obtain ⟨hp, ⟨a, rest, -, h⟩ | ⟨level, rest, hm, rfl⟩ | ⟨-, h⟩⟩ := step_cases h
  · exact ⟨hp, .inl ((unitsChange_stepAgent h).of_agree (unitsAgree_of_regs rfl))⟩
  · rcases setRst_cases level { s with moves := rest } with ⟨-, e⟩ | ⟨-, -, e⟩ <;> rw [e]
    · exact ⟨hp, .inr ⟨⟨level, rest, hm⟩, rfl, rfl, atRest_of_powerOnReset level _, rfl⟩⟩
    · exact ⟨hp, .inl (.none (unitsAgree_of_regs rfl))⟩
  · exact ⟨hp, .inl ((unitsChange_stepAgent h).of_agree (unitsAgree_of_regs rfl))⟩

/-- Settles O37: a routed bit appends events, and nothing else touches the stream. -/
theorem eventsAreFinal : Obligations.EventsAreFinal := by
  unfold Obligations.EventsAreFinal
  intro s t h hmoves
  obtain ⟨-, hchange | ⟨⟨level, rest, hm⟩, -⟩⟩ := step_unitsChange h
  · cases hchange with
    | none h => rw [h.events]
    | routed b g x hx ht => rw [ht.events, ← hx.events]; exact events_route b g x
    | reset u x hx ht => rw [ht.events, events_resetUnit, hx.events]
    | activated m x hx ht =>
      obtain ⟨-, -, -, hevents, -⟩ := activate_frame m x
      rw [ht.events, hevents, hx.events]
  · exact absurd hm (hmoves level rest)

/-! ### Inactive units (R55) -/

/-- A unit at rest is at rest after the reset of any unit. -/
theorem atRest_resetUnit {v : UnitId} (u : UnitId) (h : atRest s v) : atRest (resetUnit u s) v := by
  by_cases hv : v = u
  · subst hv
    obtain ⟨hunit, hslots, -⟩ := h
    refine ⟨?_, fun k hk => (slot_resetUnit v s k).trans (hslots k hk), fun hp => ?_⟩
    · rw [unit_resetUnit, hunit]
      rfl
    · rw [hdr_resetUnit, if_pos hp]
  · exact ((onlyUnit_resetUnit u s).keepsUnit hv).atRest h

/-- Settles O42: a routed bit leaves inactive units, and every other change leaves them at rest. -/
theorem inactiveUnitsRest : Obligations.InactiveUnitsRest := by
  unfold Obligations.InactiveUnitsRest
  intro s t hs h u hu
  obtain ⟨-, hchange | ⟨-, -, -, hrest, -⟩⟩ := step_unitsChange h
  · cases hchange with
    | none h => exact (h.keeps u).atRest (hs u (h.mode ▸ hu))
    | routed b g x hx ht =>
      rw [ht.mode, mode_route] at hu
      exact ((hx.keeps u).trans ((keepsUnit_route b g x hu).trans (ht.keeps u))).atRest
        (hs u (hx.mode ▸ hu))
    | reset v x hx ht =>
      rw [ht.mode, (onlyUnit_resetUnit v x).mode, hx.mode] at hu
      exact (ht.keeps u).atRest (atRest_resetUnit v ((hx.keeps u).atRest (hs u hu)))
    | activated m x hx ht => exact (ht.keeps u).atRest (activate_atRest m x u)
  · exact hrest u
end

end Sys2Proof.Machine
end

section
/-! Invariants of the units: what each part of `unit_bit` keeps, every step keeps; and the legal states
of the units (10_state.md R44, R54; 42_frame_common.md R218; 46_proto2.md R338). -/

namespace Sys2Proof.Machine

open Sys2Proof

/-! ### Invariants of one unit -/

/-- A property of the registers of one unit that each part of `unit_bit` keeps, and that `reset(u)`,
activation and power-on establish or keep. -/
structure UnitInvariant (P : UnitId → State → Prop) : Prop where
  congr : ∀ {u s t}, KeepsUnit u s t → t.par = s.par → P u s → P u t
  rest : ∀ {u s}, paramsOk s.par = true → atRest s u → P u s
  reset : ∀ {u s}, P u s → P u (resetUnit u s)
  drop : ∀ {u k s}, slotOf u = some k → P u s →
    P u (s.setSlot k { s.slot k with dly := (s.slot k).dly + 1 })
  receive : ∀ {u s} b tag, paramsOk s.par = true → P u s → P u (trackSlot u tag (takeBit u b s))
  header : ∀ {s}, paramsOk s.par = true → s.hdr.hdp = some s.p2.dp → P .p2 s →
    P .p2 (headerP2 s).state
  frameEnd : ∀ {u s}, paramsOk s.par = true → (s.unit u).enp = some (s.unit u).dp → P u s →
    P u (frameEnd u (s.unit u).dp s).state
  sync : ∀ {u s} i, paramsOk s.par = true → P u s → P u (onSync u i s)
  advance : ∀ {u s}, paramsOk s.par = true → P u s → P u (dpAdvanced u s)

namespace UnitInvariant

variable {P : UnitId → State → Prop} (hP : UnitInvariant P) {u : UnitId} {s t : State}
include hP

theorem headerStep (hp : paramsOk s.par = true) (h : P u s) : P u (headerStep u s).state := by
  rcases headerStep_cases u s with ⟨⟨rfl, hdue⟩, e⟩ | ⟨-, e⟩ <;> rw [e]
  · exact hP.header hp hdue h
  · exact h

theorem frameEndStep (hp : paramsOk s.par = true) (h : P u s) : P u (frameEndStep u s).state := by
  rcases frameEndStep_cases u s with ⟨hdue, e⟩ | ⟨-, e⟩ <;> rw [e]
  · exact hP.frameEnd hp hdue h
  · exact h

theorem correlateStep (hp : paramsOk s.par = true) (h : P u s) : P u (correlateStep u s) := by
  rcases correlateStep_cases u s with ⟨i, -, -, e⟩ | ⟨-, e⟩ <;> rw [e]
  · exact hP.sync i hp h
  · exact h

theorem frameSteps (hp : paramsOk s.par = true) (h : P u s) : P u (frameSteps u s) := by
  have hheader := hP.headerStep hp h
  cases e : Machine.headerStep u s with
  | skip y => rw [e] at hheader; rwa [frameSteps_of_header_skip e]
  | goOn y =>
    rw [e] at hheader
    have hyp : paramsOk y.par = true := par_of_headerStep e ▸ hp
    have hend := hP.frameEndStep hyp hheader
    cases e' : Machine.frameEndStep u y with
    | skip z => rw [e'] at hend; rwa [frameSteps_of_frameEnd_skip e e']
    | goOn z =>
      rw [e'] at hend
      rw [frameSteps_of_goOn e e']
      exact hP.correlateStep (par_of_frameEndStep e' ▸ hyp) hend

theorem unitBit (hp : paramsOk s.par = true) (b : Bool) (tag : Tag) (h : P u s) :
    P u (unitBit b tag s u) := by
  rcases unitBit_cases u b tag s with ⟨k, hk, -, e⟩ | ⟨-, e⟩ <;> rw [e]
  · exact hP.drop hk h
  · have hxp : (trackSlot u tag (takeBit u b s)).par = s.par := (onlyUnit_received u s b tag).par
    have hyp := (onlyUnit_frameSteps u (trackSlot u tag (takeBit u b s))).par
    rw [consumeBit_eq]
    refine hP.advance ?_ (hP.frameSteps ?_ (hP.receive b tag hp h))
    · rw [hyp, hxp]; exact hp
    · rw [hxp]; exact hp

/-- Routing a bit keeps the invariant of every unit. -/
theorem route (hp : paramsOk s.par = true) (b : Bool) (g : Tag) (h : ∀ u, P u s) :
    ∀ u, P u (route b g s) := by
  have hfold : (Machine.route b g s).par = s.par ∧ ∀ u, P u (Machine.route b g s) := by
    refine List.foldlRecOn (motive := fun x : State => x.par = s.par ∧ ∀ u, P u x) s.mode.active
      (Machine.unitBit b g) ⟨rfl, h⟩ fun x ⟨hx, hall⟩ v _ => ?_
    have honly := onlyUnit_unitBit v b g x
    refine ⟨honly.par.trans hx, fun w => ?_⟩
    by_cases hw : w = v
    · subst hw
      exact hP.unitBit (hx ▸ hp) b g (hall w)
    · exact hP.congr (honly.keepsUnit hw) honly.par (hall w)
  exact hfold.2

theorem resetAny (v : UnitId) (h : ∀ u, P u s) : ∀ u, P u (resetUnit v s) := by
  intro u
  by_cases hu : u = v
  · subst hu
    exact hP.reset (h u)
  · exact hP.congr ((onlyUnit_resetUnit v s).keepsUnit hu) (onlyUnit_resetUnit v s).par (h u)

/-- Every step keeps an invariant of the units. -/
theorem step (hs : ∀ u, P u s) (h : step s = .next t) : ∀ u, P u t := by
  have hagree {x y : State} (hxy : UnitsAgree x y) (hx : ∀ u, P u x) : ∀ u, P u y :=
    fun u => hP.congr (hxy.keeps u) hxy.par (hx u)
  obtain ⟨hp, hchange | ⟨-, hpar, -, hrest, -⟩⟩ := step_unitsChange h
  · cases hchange with
    | none h => exact hagree h hs
    | routed b g x hx ht =>
      exact hagree ht (hP.route (hx.par ▸ hp) b g (hagree hx hs))
    | reset v x hx ht => exact hagree ht (hP.resetAny v (hagree hx hs))
    | activated m x hx ht =>
      refine hagree ht fun u => hP.rest ?_ (activate_atRest m x u)
      obtain ⟨hpar, -⟩ := activate_frame m x
      rw [hpar, hx.par]
      exact hp
  · exact fun u => hP.rest (hpar ▸ hp) (hrest u)

end UnitInvariant

/-! ### Legal unit states -/

/-- P2's frame end and header are pending only where its state can act on them. -/
def pendingLegal (r : UnitRegs) (h : HdrRegs) : Prop :=
  (r.enp ≠ none → locked r) ∧ (h.hok = true → locked r) ∧ (locked r → r.enp ≠ none) ∧
    (r.st = .none → h.hdp = none) ∧ (r.st = .sync → h.hdp ≠ none ∧ h.hsy = true)

/-- The registers of a unit are legal: its state, its counter while it is locked, its superframe number,
and the registers it does not have. -/
structure RegsLegal (u : UnitId) (r : UnitRegs) (h : HdrRegs) : Prop where
  state : stateLegal u r.st
  counter : locked r → 1 ≤ r.lc.toNat
  number : r.seq.toNat ≤ 5
  idle : u = .is → r.lc = 0 ∧ r.seq = 0 ∧ r.loss = false
  proto2 : u = .p2 → r.seq = 0 ∧ pendingLegal r h
  proto3 : u = .p3 → r.seq = 0

/-- The three statements about the units are that each unit's registers are legal. -/
theorem regsLegal_iff (s : State) : (∀ u, RegsLegal u (s.unit u) s.hdr) ↔
    unitsLegal s ∧ proto2Pending s ∧ absentRegistersZero s := by
  constructor
  case mp =>
    intro h
    obtain ⟨hlc, hseq, hloss⟩ := (h .is).idle rfl
    obtain ⟨hseq2, hpending⟩ := (h .p2).proto2 rfl
    exact ⟨fun u => ⟨(h u).state, (h u).counter, (h u).number⟩, hpending, hlc, hseq, hloss, hseq2,
      (h .p3).proto3 rfl⟩
  case mpr =>
    rintro ⟨hunits, hpending, hlc, hseq, hloss, hseq2, hseq3⟩ u
    obtain ⟨hstate, hcounter, hnumber⟩ := hunits u
    refine ⟨hstate, hcounter, hnumber, ?_, ?_, ?_⟩ <;> rintro rfl
    · exact ⟨hlc, hseq, hloss⟩
    · exact ⟨hseq2, hpending⟩
    · exact hseq3

section
variable {u : UnitId} {r q : UnitRegs} {h h' : HdrRegs}

/-- Legality speaks of the state, the counter, LOSS, SEQ and ENP, and for P2 of the header. -/
theorem RegsLegal.congr (hl : RegsLegal u r h) (hst : q.st = r.st) (hlc : q.lc = r.lc)
    (hseq : q.seq = r.seq) (hloss : q.loss = r.loss) (henp : q.enp = r.enp) (hh : u = .p2 → h' = h) :
    RegsLegal u q h' where
  state := hst ▸ hl.state
  counter hlocked := hlc ▸ hl.counter (by rwa [locked, hst] at hlocked)
  number := hseq ▸ hl.number
  idle hu := by rw [hlc, hseq, hloss]; exact hl.idle hu
  proto2 hu := by
    rw [hseq, hh hu, pendingLegal, locked, hst, henp]
    exact hl.proto2 hu
  proto3 hu := by rw [hseq]; exact hl.proto3 hu

theorem toNat_zero_le_five : (0 : BitVec 3).toNat ≤ 5 := by decide

/-- The reset values are legal in every unit; IS keeps LOSS clear. -/
theorem regsLegal_afterReset (hloss : u = .is → r.loss = false)
    (hh : u = .p2 → h = .powerOn) : RegsLegal u r.afterReset h where
  state := by cases u <;> simp [stateLegal, UnitRegs.afterReset]
  counter hlocked := by rcases hlocked with h | h <;> cases h
  number := toNat_zero_le_five
  idle hu := ⟨rfl, rfl, hloss hu⟩
  proto2 hu := by
    rw [hh hu]
    refine ⟨rfl, fun hne => absurd rfl hne, fun hok => (by cases hok), fun hl => ?_, fun _ => rfl,
      fun hst => (by cases hst)⟩
    rcases hl with h | h <;> cases h
  proto3 _ := rfl

theorem regsLegal_lost (hu : u ≠ .is) (hh : u = .p2 → h = .powerOn) :
    RegsLegal u { r.afterReset with loss := true } h :=
  (regsLegal_afterReset (r := { r with loss := true }) (fun e => absurd e hu) hh).congr rfl rfl rfl rfl
    rfl fun _ => rfl

/-- A unit other than IS and P2 in a legal state with its counter at 1 or more. -/
theorem regsLegal_of_locksTdma (hu : locksTdma u) (hst : q.st ≠ .sync)
    (hlc : locked q → 1 ≤ q.lc.toNat) (hseq : q.seq.toNat ≤ 5) : RegsLegal u q h where
  state := by rcases hu with rfl | rfl | rfl <;> exact hst
  counter := hlc
  number := hseq
  idle e := absurd e (ne_is_of_locksTdma hu)
  proto2 e := absurd e (ne_p2_of_locksTdma hu)
  proto3 e := by rcases hu with rfl | rfl | rfl <;> cases e
end

theorem one_le_counter_sub_one {lc : BitVec 8} (h : lc - 1 ≠ 0) : 1 ≤ (lc - 1).toNat := by
  bv_omega

theorem one_le_maxLost {p : Params} (hp : paramsOk p = true) {u : UnitId} (hu : u ≠ .is) :
    1 ≤ (BitVec.ofNat 8 (maxLost p u)).toNat := by
  rw [toNat_maxLost hp hu]
  exact (maxLost_range hp hu).1

section
variable {u : UnitId} {s : State}

/-- The registers of unit u are legal. -/
def UnitLegal (u : UnitId) (s : State) : Prop := RegsLegal u (s.unit u) s.hdr

theorem unitLegal_resetUnit (h : UnitLegal u s) : UnitLegal u (resetUnit u s) := by
  rw [UnitLegal, unit_resetUnit, hdr_resetUnit]
  exact regsLegal_afterReset (fun hu => (h.idle hu).2.2) fun hu => if_pos hu

theorem unitLegal_lostUnit (hu : u ≠ .is) : UnitLegal u (lostUnit u s) := by
  rw [UnitLegal, unit_lostUnit, hdr_lostUnit]
  exact regsLegal_lost hu fun hu => if_pos hu

theorem TdmaFrameEnd.unitLegal {period : Nat} {f : Flow} (hf : TdmaFrameEnd u period s f)
    (hp : paramsOk s.par = true) (hu : locksTdma u) (h : UnitLegal u s) : UnitLegal u f.state := by
  have hsync : (s.unit u).st ≠ .sync := by
    have := h.state
    rcases hu with rfl | rfl | rfl <;> exact this
  have hnis := ne_is_of_locksTdma hu
  cases hf with
  | confirmed voice sub st seq hst =>
    rw [UnitLegal, Flow.state, confirmedFrame, unit_act]
    refine regsLegal_of_locksTdma hu ?_ (fun _ => one_le_maxLost hp hnis) ?_
    · rcases hst with ⟨rfl, -⟩ | ⟨rfl, -⟩ <;> simp
    · rcases hst with ⟨-, rfl⟩ | ⟨-, rfl⟩
      · exact toNat_zero_le_five
      · exact h.number
  | dropped hst =>
    rw [UnitLegal, Flow.state, unit_act]
    exact regsLegal_of_locksTdma hu hsync h.counter h.number
  | counted hlc =>
    rw [UnitLegal, Flow.state, unit_act]
    exact regsLegal_of_locksTdma hu hsync (fun _ => one_le_counter_sub_one hlc) h.number
  | continued hlc =>
    rw [UnitLegal, Flow.state, unit_act]
    exact regsLegal_of_locksTdma hu hsync (fun _ => one_le_counter_sub_one hlc)
      ((toNat_nextSeq _).trans_le (nextSeq_le _))
  | rejected => exact unitLegal_resetUnit h
  | ended dt =>
    refine unitLegal_resetUnit ?_
    rw [UnitLegal, unit_emitFrame]
    exact regsLegal_of_locksTdma hu hsync h.counter h.number
  | lost => exact unitLegal_lostUnit hnis

theorem unitLegal_frameEndIdle (h : UnitLegal .is s) : UnitLegal .is (frameEndIdle s).state := by
  obtain ⟨hlc, hseq, hloss⟩ := h.idle rfl
  have hlegal (r : UnitRegs) (hst : r.st = s.is.st) (hlc : r.lc = 0) (hseq : r.seq = 0)
      (hloss : r.loss = false) : RegsLegal .is r s.hdr :=
    ⟨hst ▸ h.state, fun hl => absurd h.state (by
        rw [locked, hst] at hl
        rcases hl with e | e <;> simp [stateLegal, State.unit, e]),
      by rw [hseq]; decide, fun _ => ⟨hlc, hseq, hloss⟩, fun e => (by cases e), fun e => (by cases e)⟩
  by_cases hdt : acceptedDataType s .is = some s.par.idleFwdDt
  · rw [frameEndIdle_of_forwarded hdt]
    exact hlegal _ rfl hlc hseq rfl
  · rw [frameEndIdle_of_other hdt]
    exact hlegal _ rfl hlc hseq hloss

/-- The next frame of P2, from registers `r` of a locked unit. -/
theorem unitLegal_scheduleNextP2 (e : Nat) (hst : locked s.p2) (hlc : 1 ≤ s.p2.lc.toNat)
    (hseq : s.p2.seq = 0) : UnitLegal .p2 (scheduleNextP2 e s) := by
  obtain ⟨hregs, hclear, -⟩ := scheduleNextP2_spec e s
  have hunit : (scheduleNextP2 e s).unit .p2 =
    { nextFrameP2 e s with syp := (scheduleNextP2 e s).p2.syp } := hregs
  rw [UnitLegal, hunit]
  refine ⟨trivial, fun _ => hlc, (by rw [hseq]; decide : s.p2.seq.toNat ≤ 5), fun e => (by cases e),
    fun _ => ⟨hseq, fun _ => hst, fun hok => ?_, fun _ => Option.some_ne_none _, fun hnone => ?_,
      fun hsync => ?_⟩, fun e => (by cases e)⟩
  · rw [hclear] at hok
    cases hok
  · have hnone : s.p2.st = .none := hnone
    rw [locked, hnone] at hst
    simp at hst
  · have hsync : s.p2.st = .sync := hsync
    rw [locked, hsync] at hst
    simp at hst

theorem P2FrameEnd.unitLegal {e : Nat} {f : Flow} (hf : P2FrameEnd e s f)
    (hp : paramsOk s.par = true) (hdue : s.p2.enp = some e) (h : UnitLegal .p2 s) :
    UnitLegal .p2 f.state := by
  obtain ⟨hseq, hpending, -⟩ := h.proto2 rfl
  have hlocked : locked s.p2 := hpending (by
    rw [State.unit, hdue]
    exact Option.some_ne_none e)
  cases hf with
  | ended =>
    rw [UnitLegal, Flow.state, unit_resetUnit, hdr_resetUnit]
    exact regsLegal_afterReset (fun e => by cases e) fun _ => rfl
  | validated hok =>
    exact unitLegal_scheduleNextP2 (s := s.act .p2 _ _) e hlocked
      (one_le_maxLost hp (u := .p2) (by decide)) hseq
  | continued hlc =>
    exact unitLegal_scheduleNextP2 (s := s.act .p2 _ _) e hlocked (one_le_counter_sub_one hlc) hseq
  | missed hlc =>
    exact unitLegal_scheduleNextP2 (s := s.act .p2 _ _) e hlocked (one_le_counter_sub_one hlc) hseq
  | lost => exact unitLegal_lostUnit (by decide)

theorem unitLegal_frameEndP3 (e : Nat) (hp : paramsOk s.par = true) (h : UnitLegal .p3 s) :
    UnitLegal .p3 (frameEndP3 e s).state := by
  by_cases hkept : s.p3.sf = true ∨ s.p3.lc - 1 ≠ 0
  · rw [frameEndP3_eq_of_counting e hkept, UnitLegal, Flow.state, unit_act]
    refine ⟨h.state, fun _ => ?_, h.number, fun e => (by cases e), fun e => (by cases e),
      fun _ => h.proto3 rfl⟩
    cases hsf : s.p3.sf
    · exact one_le_counter_sub_one (hkept.resolve_left (by simp [hsf]))
    · exact one_le_maxLost hp (u := .p3) (by decide)
  · rw [not_or, not_not, Bool.not_eq_true] at hkept
    rw [frameEndP3_eq_of_expired e hkept.1 hkept.2, UnitLegal, Flow.state, unit_act]
    exact regsLegal_lost (by decide) fun e => by cases e

theorem unitLegal_headerP2 (hp : paramsOk s.par = true) (hdue : s.hdr.hdp = some s.p2.dp)
    (h : UnitLegal .p2 s) : UnitLegal .p2 (headerP2 s).state := by
  obtain ⟨hseq, hpending, hvalid, hend, hnone, hsync⟩ := h.proto2 rfl
  have hst : s.p2.st ≠ .none := fun e => by
    rw [hnone e] at hdue
    cases hdue
  cases hheader : validHeader s with
  | none =>
    cases hsy : s.hdr.hsy
    · rw [headerP2_of_invalid_blind hheader hsy]
      refine ⟨h.state, h.counter, h.number, fun e => (by cases e), fun _ => ⟨hseq, hpending,
        fun hok => (by cases hok), hend, fun e => absurd e hst, fun e => ?_⟩, fun e => (by cases e)⟩
      rw [(hsync e).2] at hsy
      cases hsy
    · rw [headerP2_of_invalid_sync hheader hsy]
      exact unitLegal_lostUnit (by decide)
  | some header =>
    rw [headerP2_of_valid hheader, UnitLegal, Flow.state, unit_setUnit_same, hdr_setUnit]
    have hlocked : locked (validatedP2 s (BitVec.ofNat 16 header.2.1) header.2.2) := by
      show stateAfterHeader s.p2.st header.2.2 = .voice ∨ stateAfterHeader s.p2.st header.2.2 = .data
      unfold stateAfterHeader
      cases hs : s.p2.st <;> cases header.2.2 <;> simp_all
    refine ⟨trivial, fun _ => ?_, (by rw [show (validatedP2 s _ _).seq = 0 from hseq]; decide),
      fun e => (by cases e), fun _ => ⟨hseq, fun _ => hlocked, fun _ => hlocked,
        fun _ => Option.some_ne_none _, fun _ => rfl, fun e => ?_⟩, fun e => (by cases e)⟩
    · show 1 ≤ (if s.p2.st = .sync then BitVec.ofNat 8 s.par.maxLostP2 else s.p2.lc).toNat
      by_cases hs : s.p2.st = .sync
      · rw [if_pos hs]
        exact one_le_maxLost hp (u := .p2) (by decide)
      · rw [if_neg hs]
        refine h.counter ?_
        cases hs' : s.p2.st <;> simp_all [locked, State.unit]
    · rw [locked, e] at hlocked
      simp at hlocked

theorem unitLegal_onSync (i : Nat) (hp : paramsOk s.par = true) (h : UnitLegal u s) :
    UnitLegal u (onSync u i s) := by
  cases u
  case p2 =>
    obtain ⟨hseq, hpending, hvalid, hend, -, hsync⟩ := h.proto2 rfl
    rw [onSync, onSyncP2_eq, UnitLegal, unit_setUnit_same, hdr_setUnit]
    by_cases hst : s.p2.st = .none
    · have hfree : ¬ locked s.p2 := by rw [locked, hst]; simp
      rw [if_pos hst]
      refine ⟨trivial, fun hl => (by rcases hl with e | e <;> cases e), h.number, fun e => (by cases e),
        fun _ => ⟨hseq, fun hne => absurd (hpending hne) hfree, fun hok => absurd (hvalid hok) hfree,
          fun hl => (by rcases hl with e | e <;> cases e), fun e => (by cases e),
          fun _ => ⟨Option.some_ne_none _, rfl⟩⟩, fun e => (by cases e)⟩
    · rw [if_neg hst]
      exact ⟨h.state, h.counter, h.number, fun e => (by cases e), fun _ => ⟨hseq, hpending, hvalid, hend,
        fun e => absurd e hst, fun _ => ⟨Option.some_ne_none _, rfl⟩⟩, fun e => (by cases e)⟩
  case p3 =>
    have hmax := one_le_maxLost hp (u := .p3) (by decide)
    rw [onSync, onSyncP3_eq]
    by_cases hst : s.p3.st = .none
    · rw [if_pos hst, if_pos hst]
      exact ⟨.inr rfl, fun _ => hmax, h.number, fun e => (by cases e), fun e => (by cases e),
        fun _ => h.proto3 rfl⟩
    · rw [if_neg hst, if_neg hst]
      exact ⟨h.state, h.counter, h.number, fun e => (by cases e), fun e => (by cases e),
        fun _ => h.proto3 rfl⟩
  all_goals
    rw [onSync, onSyncTdma_eq, UnitLegal, unit_setUnit_same, hdr_setUnit]
    exact ⟨h.state, h.counter, h.number, h.idle, fun e => (by cases e), fun e => (by cases e)⟩
end

/-- Each part of `unit_bit` keeps the unit's registers legal. -/
theorem unitInvariant_unitLegal : UnitInvariant UnitLegal where
  congr hkeeps _ h := by
    rw [UnitLegal, hkeeps.unit]
    exact h.congr rfl rfl rfl rfl rfl hkeeps.hdr
  rest {u s} _ hrest := by
    obtain ⟨hunit, -, hhdr⟩ := hrest
    rw [UnitLegal, hunit]
    exact (regsLegal_afterReset (r := .powerOn) (fun _ => rfl) hhdr).congr rfl rfl rfl rfl rfl fun _ => rfl
  reset h := unitLegal_resetUnit h
  drop {u k s} _ h := by
    rw [UnitLegal, unit_setSlot, hdr_setSlot]
    exact h
  receive {u s} b tag _ h := by
    rw [UnitLegal, unit_trackSlot_takeBit, (received_frame u s b tag).1]
    exact h.congr rfl rfl rfl rfl rfl fun _ => rfl
  header hp hdue h := unitLegal_headerP2 hp hdue h
  frameEnd {u s} hp hdue h := by
    cases u
    case is => exact unitLegal_frameEndIdle h
    case p2 => exact (frameEndP2_cases _ s).unitLegal hp hdue h
    case p3 => exact unitLegal_frameEndP3 _ hp h
    case dx1 => exact (frameEndTdma_cases .dx1 _ s).unitLegal hp (.inl rfl) h
    case dx2 => exact (frameEndTdma_cases .dx2 _ s).unitLegal hp (.inr (.inl rfl)) h
    case sx => exact (frameEndTdma_cases .sx _ s).unitLegal hp (.inr (.inr rfl)) h
  sync i hp h := unitLegal_onSync i hp h
  advance {u s} _ h := by
    rw [UnitLegal, dpAdvanced, unit_setUnit_same, hdr_setUnit]
    exact h.congr rfl rfl rfl rfl rfl fun _ => rfl

/-- Settles O40: legality is an invariant of each unit. -/
theorem unitStatesKept : Obligations.UnitStatesKept := by
  unfold Obligations.UnitStatesKept
  intro s t hunits hpending hzero h
  exact (regsLegal_iff t).1
    (unitInvariant_unitLegal.step ((regsLegal_iff s).2 ⟨hunits, hpending, hzero⟩) h)

end Sys2Proof.Machine
end

section
/-! The storages in canonical form and the positions inside their windows (10_state.md R47 to R49, R56,
R59; 20_memory.md R81), kept by every step; and all invariants at power-on (70_reset_and_hazards.md R471). -/

namespace Sys2Proof.Machine

open Sys2Proof

/-! ### The window and the positions of one unit -/

/-- The window of a unit is stored in canonical form below `w`, and its positions are below `w`. -/
structure RegsInWindow (w : Nat) (r : UnitRegs) : Prop where
  wf : Memory.wf unwrittenBit r.win = true
  below : Memory.below w r.win = true
  dp : r.dp < w
  syp : r.syp < w
  stp : r.stp < w
  enp : ∀ e, r.enp = some e → e < w

section
variable {w n : Nat} {r q : UnitRegs}

theorem RegsInWindow.congr (h : RegsInWindow w r) (hwin : q.win = r.win) (hdp : q.dp = r.dp)
    (hsyp : q.syp = r.syp) (hstp : q.stp = r.stp) (henp : q.enp = r.enp) : RegsInWindow w q where
  wf := hwin ▸ h.wf
  below := hwin ▸ h.below
  dp := hdp ▸ h.dp
  syp := hsyp ▸ h.syp
  stp := hstp ▸ h.stp
  enp := henp ▸ h.enp

/-- New positions below `w`. -/
theorem RegsInWindow.move (h : RegsInWindow w r) (hwin : q.win = r.win) (hdp : q.dp = r.dp)
    (hsyp : q.syp < w) (hstp : q.stp < w) (henp : ∀ e, q.enp = some e → e < w) : RegsInWindow w q where
  wf := hwin ▸ h.wf
  below := hwin ▸ h.below
  dp := hdp ▸ h.dp
  syp := hsyp
  stp := hstp
  enp := henp

theorem lt_of_some_eq {a e : Nat} (ha : a < w) (h : some a = some e) : e < w := Option.some.inj h ▸ ha

theorem RegsInWindow.onePeriodOn (h : RegsInWindow w r) (period : Nat) :
    RegsInWindow w (r.onePeriodOn w period) := by
  have hw : 0 < w := (Nat.zero_le r.dp).trans_lt h.dp
  refine h.move rfl rfl (Nat.mod_lt _ hw) (Nat.mod_lt _ hw) fun e he => ?_
  obtain ⟨a, -, rfl⟩ := Option.map_eq_some_iff.1 he
  exact Nat.mod_lt _ hw

theorem RegsInWindow.afterReset (h : RegsInWindow w r) : RegsInWindow w r.afterReset := by
  have hw : 0 < w := (Nat.zero_le r.dp).trans_lt h.dp
  exact h.move rfl rfl hw hw fun e he => by cases he

theorem regsInWindow_powerOn (hw : 0 < w) : RegsInWindow w .powerOn :=
  ⟨rfl, rfl, hw, hw, hw, fun e he => by cases he⟩
end

/-- The registers of unit u are inside its window, and so are its expected sync position and, for P2,
the pending header. -/
structure UnitInWindow (u : UnitId) (s : State) : Prop where
  regs : RegsInWindow (winLen s.par u) (s.unit u)
  exp : ∀ k, slotOf u = some k → ∀ e, (s.slot k).exp = some e → e < 576
  hdp : u = .p2 → ∀ h, s.hdr.hdp = some h → h < winLen s.par .p2

/-- What the two statements say of the units. -/
theorem unitInWindow_iff (s : State) : (∀ u, UnitInWindow u s) ↔
    (∀ u, Memory.wf unwrittenBit (s.unit u).win = true ∧
      Memory.below (winLen s.par u) (s.unit u).win = true) ∧ positionsInRange s := by
  constructor
  case mp =>
    intro h
    refine ⟨fun u => ⟨(h u).regs.wf, (h u).regs.below⟩, fun u => ?_, fun k => ?_, (h .p2).hdp rfl⟩
    · obtain ⟨-, -, hdp, hsyp, hstp, henp⟩ := (h u).regs
      exact ⟨hdp, hsyp, hstp, henp⟩
    · cases k
      · exact (h .dx1).exp _ rfl
      · exact (h .dx2).exp _ rfl
  case mpr =>
    rintro ⟨hwin, hpos, hexp, hhdp⟩ u
    obtain ⟨hwf, hbelow⟩ := hwin u
    obtain ⟨hdp, hsyp, hstp, henp⟩ := hpos u
    exact ⟨⟨hwf, hbelow, hdp, hsyp, hstp, henp⟩, fun k _ => hexp k, fun _ => hhdp⟩

section
variable {u : UnitId} {s : State}

theorem UnitInWindow.winLen_pos (h : UnitInWindow u s) : 0 < winLen s.par u :=
  (Nat.zero_le _).trans_lt h.regs.dp

theorem UnitInWindow.act (h : UnitInWindow u s) {r : UnitRegs} (hr : RegsInWindow (winLen s.par u) r)
    (es : List Event) : UnitInWindow u (s.act u r es) where
  regs := by rw [unit_act, par_act]; exact hr
  exp k hk := by rw [slot_act]; exact h.exp k hk
  hdp hu := by rw [hdr_act, par_act]; exact h.hdp hu

theorem UnitInWindow.setUnit (h : UnitInWindow u s) {r : UnitRegs}
    (hr : RegsInWindow (winLen s.par u) r) : UnitInWindow u (s.setUnit u r) := by
  rw [setUnit_eq_act]
  exact h.act hr []

theorem UnitInWindow.withHdr (h : UnitInWindow u s) {x : HdrRegs}
    (hx : u = .p2 → ∀ e, x.hdp = some e → e < winLen s.par .p2) :
    UnitInWindow u { s with hdr := x } where
  regs := by cases u <;> exact h.regs
  exp k hk := by cases k <;> exact h.exp _ hk
  hdp := hx

theorem UnitInWindow.reset (h : UnitInWindow u s) : UnitInWindow u (resetUnit u s) := by
  rw [resetUnit_eq_act]
  refine (h.withHdr fun hu e he => ?_).act ?_ []
  · rw [if_pos hu] at he
    cases he
  · exact h.regs.afterReset

theorem UnitInWindow.lost (h : UnitInWindow u s) : UnitInWindow u (lostUnit u s) := by
  rw [lostUnit_eq_act]
  refine (h.withHdr fun hu e he => ?_).act ?_ _
  · rw [if_pos hu] at he
    cases he
  · exact h.regs.afterReset.congr rfl rfl rfl rfl rfl

/-! ### The frame ends -/

theorem TdmaFrameEnd.inWindow {period : Nat} {f : Flow} (hf : TdmaFrameEnd u period s f)
    (h : UnitInWindow u s) : UnitInWindow u f.state := by
  have hon := h.regs.onePeriodOn period
  cases hf with
  | confirmed =>
    refine h.act ?_ _
    exact hon.congr rfl rfl rfl rfl rfl
  | dropped =>
    refine h.act ?_ _
    exact h.regs.move rfl rfl h.regs.syp h.regs.stp fun e he => by cases he
  | counted =>
    refine h.act ?_ _
    exact hon.congr rfl rfl rfl rfl rfl
  | continued =>
    refine h.act ?_ _
    exact hon.congr rfl rfl rfl rfl rfl
  | rejected => exact h.reset
  | ended =>
    rw [emitFrame_eq_act]
    refine (h.act ?_ _).reset
    exact h.regs.congr rfl rfl rfl rfl rfl
  | lost => exact h.lost

theorem inWindow_frameEndIdle (h : UnitInWindow .is s) : UnitInWindow .is (frameEndIdle s).state := by
  have hnone (r : UnitRegs) (hwin : r.win = s.is.win) (hdp : r.dp = s.is.dp) (hsyp : r.syp = s.is.syp)
      (hstp : r.stp = s.is.stp) (henp : r.enp = none) : RegsInWindow (winLen s.par .is) r :=
    h.regs.move hwin hdp (hsyp ▸ h.regs.syp) (hstp ▸ h.regs.stp) fun e he => by
      rw [henp] at he
      cases he
  by_cases hdt : acceptedDataType s .is = some s.par.idleFwdDt
  · rw [frameEndIdle_of_forwarded hdt]
    refine h.act ?_ _
    exact hnone _ rfl rfl rfl rfl rfl
  · rw [frameEndIdle_of_other hdt]
    refine h.act ?_ _
    exact hnone _ rfl rfl rfl rfl rfl

theorem inWindow_scheduleNextP2 (e : Nat) (h : UnitInWindow .p2 s) :
    UnitInWindow .p2 (scheduleNextP2 e s) := by
  have hw : 0 < s.par.wP2 := h.winLen_pos
  by_cases hblind : s.p2.st = .data ∧ s.hdr.hdp = none
  · rw [scheduleNextP2_of_blind hblind.1 hblind.2]
    refine (h.withHdr fun _ _ => lt_of_some_eq (Nat.mod_lt _ hw)).setUnit ?_
    exact h.regs.move rfl rfl (Nat.mod_lt _ hw) (Nat.mod_lt _ hw)
      fun _ => lt_of_some_eq (Nat.mod_lt _ hw)
  · rw [scheduleNextP2_of_pending (Decidable.or_iff_not_imp_left.2 fun hst hhdp =>
      hblind ⟨not_not.1 hst, hhdp⟩)]
    refine (h.withHdr (x := { s.hdr with hok := false }) h.hdp).setUnit ?_
    exact h.regs.move rfl rfl h.regs.syp (Nat.mod_lt _ hw) fun _ => lt_of_some_eq (Nat.mod_lt _ hw)

theorem P2FrameEnd.inWindow {e : Nat} {f : Flow} (hf : P2FrameEnd e s f) (h : UnitInWindow .p2 s) :
    UnitInWindow .p2 f.state := by
  have hkept (lc : BitVec 8) (loss : Bool) (es : List Event) :
      UnitInWindow .p2 (s.act .p2 { s.p2 with lc := lc, loss := loss } es) :=
    h.act (r := { s.p2 with lc := lc, loss := loss }) (h.regs.congr rfl rfl rfl rfl rfl) es
  cases hf with
  | ended =>
    rw [emitFrame_eq_act]
    exact (hkept s.p2.lc false _).reset
  | validated => exact inWindow_scheduleNextP2 e (hkept _ _ _)
  | continued => exact inWindow_scheduleNextP2 e (hkept _ _ _)
  | missed => exact inWindow_scheduleNextP2 e (hkept _ s.p2.loss _)
  | lost => exact h.lost

theorem inWindow_frameEndP3 {e : Nat} (he : e < s.par.wP3) (h : UnitInWindow .p3 s) :
    UnitInWindow .p3 (frameEndP3 e s).state := by
  have hw : 0 < s.par.wP3 := h.winLen_pos
  by_cases hkept : s.p3.sf = true ∨ s.p3.lc - 1 ≠ 0
  · rw [frameEndP3_eq_of_counting e hkept]
    refine h.act ?_ _
    exact h.regs.move rfl rfl he (Nat.mod_lt _ hw) fun _ => lt_of_some_eq (Nat.mod_lt _ hw)
  · rw [not_or, not_not, Bool.not_eq_true] at hkept
    rw [frameEndP3_eq_of_expired e hkept.1 hkept.2]
    refine h.act ?_ _
    exact h.regs.afterReset.congr rfl rfl rfl rfl rfl

theorem inWindow_frameEnd (h : UnitInWindow u s) : UnitInWindow u (frameEnd u (s.unit u).dp s).state := by
  cases u
  case is => exact inWindow_frameEndIdle h
  case p2 => exact (frameEndP2_cases _ s).inWindow h
  case p3 => exact inWindow_frameEndP3 h.regs.dp h
  all_goals exact (frameEndTdma_cases _ _ s).inWindow h

/-! ### The other parts of `unit_bit` -/

theorem inWindow_headerP2 (h : UnitInWindow .p2 s) : UnitInWindow .p2 (headerP2 s).state := by
  have hw : 0 < s.par.wP2 := h.winLen_pos
  cases hheader : validHeader s with
  | none =>
    cases hsy : s.hdr.hsy
    · rw [headerP2_of_invalid_blind hheader hsy]
      exact h.withHdr fun _ e he => by cases he
    · rw [headerP2_of_invalid_sync hheader hsy]
      exact h.lost
  | some header =>
    rw [headerP2_of_valid hheader]
    refine (h.withHdr fun _ e he => by cases he).setUnit ?_
    exact h.regs.move rfl rfl h.regs.syp (modSub_lt hw _ _)
      fun _ => lt_of_some_eq (modSub_lt hw _ _)

theorem inWindow_onSync (i : Nat) (h : UnitInWindow u s) : UnitInWindow u (onSync u i s) := by
  have hw := h.winLen_pos
  cases u
  case p2 =>
    rw [onSync, onSyncP2_eq]
    refine (h.withHdr fun _ _ => lt_of_some_eq (Nat.mod_lt _ hw)).setUnit ?_
    exact h.regs.move rfl rfl h.regs.dp h.regs.stp h.regs.enp
  case p3 =>
    have e : onSyncP3 s = s.setUnit .p3 (onSyncP3 s).p3 := by rw [onSyncP3_eq]; rfl
    rw [onSync, e, onSyncP3_eq]
    refine h.setUnit ?_
    exact h.regs.move rfl rfl h.regs.dp (Nat.mod_lt _ hw) fun _ => lt_of_some_eq (Nat.mod_lt _ hw)
  all_goals
    rw [onSync, onSyncTdma_eq]
    refine h.setUnit ?_
    exact h.regs.move rfl rfl h.regs.dp (modSub_lt hw _ _) fun _ => lt_of_some_eq (Nat.mod_lt _ hw)

theorem inWindow_received (b : Bool) (tag : Tag) (h : UnitInWindow u s) :
    UnitInWindow u (trackSlot u tag (takeBit u b s)) := by
  have hw := h.winLen_pos
  obtain ⟨hhdr, -⟩ := received_frame u s b tag
  refine ⟨?_, fun k hk e he => ?_, fun hu => ?_⟩
  · rw [unit_trackSlot_takeBit, (onlyUnit_received u s b tag).par]
    exact ⟨wf_write h.regs.wf, below_write h.regs.below (Nat.mod_lt _ hw), h.regs.dp, h.regs.syp,
      h.regs.stp, h.regs.enp⟩
  · rw [slot_received u s b tag hk] at he
    by_cases hstart : tag = Config.tagSlot k ∧ (s.slot k).pis = false
    · exact lt_of_some_eq (Nat.mod_lt _ (by decide)) ((if_pos hstart).symm.trans he)
    · exact h.exp k hk e ((if_neg hstart).symm.trans he)
  · rw [hhdr, (onlyUnit_received u s b tag).par]
    exact h.hdp hu
end

/-- Each part of `unit_bit` keeps the unit inside its window. -/
theorem unitInvariant_unitInWindow : UnitInvariant UnitInWindow where
  congr hkeeps hpar h := by
    refine ⟨?_, fun k hk => ?_, fun hu => ?_⟩
    · rw [hkeeps.unit, hpar]
      exact h.regs
    · rw [hkeeps.slots k hk]
      exact h.exp k hk
    · rw [hkeeps.hdr hu, hpar]
      exact h.hdp hu
  rest {u s} hp hrest := by
    obtain ⟨hunit, hslots, hhdr⟩ := hrest
    refine ⟨?_, fun k hk e he => ?_, fun hu e he => ?_⟩
    · rw [hunit]
      exact regsInWindow_powerOn (winLen_pos hp u)
    · rw [hslots k hk] at he
      cases he
    · rw [hhdr hu] at he
      cases he
  reset h := h.reset
  drop {u k s} hk h := by
    refine ⟨?_, fun j hj => ?_, fun hu => ?_⟩
    · rw [unit_setSlot, par_setSlot]
      exact h.regs
    · obtain rfl : k = j := Option.some.inj (hk.symm.trans hj)
      rw [slot_setSlot_same]
      exact h.exp k hk
    · rw [hdr_setSlot, par_setSlot]
      exact h.hdp hu
  receive b tag _ h := inWindow_received b tag h
  header _ _ h := inWindow_headerP2 h
  frameEnd _ _ h := inWindow_frameEnd h
  sync i _ h := inWindow_onSync i h
  advance {u s} _ h := h.setUnit
    ⟨h.regs.wf, h.regs.below, Nat.mod_lt _ h.winLen_pos, h.regs.syp, h.regs.stp, h.regs.enp⟩

/-! ### The storage of the ring buffer -/

/-- The ring buffer's storage is in canonical form and lists entries below L. -/
def RingStored (s : State) : Prop :=
  Memory.wf Sample.unwritten s.rb.mem = true ∧ Memory.below (capacity s.par) s.rb.mem = true

section
variable {s t : State}

theorem ringStored_congr (hpar : t.par = s.par) (hmem : t.rb.mem = s.rb.mem) (h : RingStored s) :
    RingStored t := by
  rw [RingStored, hpar, hmem]
  exact h

theorem ringStored_ringPush (x : Sample) (h : RingStored s) : RingStored (ringPush s x) := by
  obtain ⟨hwf, hbelow⟩ := h
  exact ⟨wf_write hwf, below_write hbelow (Nat.mod_lt _ (capacity_pos _))⟩

theorem ringStored_finishFlush {total : Nat} {act : Option Mode} (h : RingStored s) :
    RingStored (finishFlush total act s) := by
  obtain ⟨hpar, hrb, -⟩ := finishFlush_frame total act s
  exact ringStored_congr hpar (congrArg RingRegs.mem hrb) h

theorem ringStored_flushStep {job : FlushJob} (h : RingStored s) : RingStored (flushStep job s) := by
  rcases flushStep_cases job s with ⟨-, e⟩ | ⟨-, e⟩ <;> rw [e]
  · refine ringStored_finishFlush ?_
    exact ringStored_congr (s := s) rfl rfl h
  · exact ringStored_congr (s := s) rfl rfl h

theorem Effect.ringStored {i : Instr} (he : Effect s i t) (h : RingStored s) : RingStored t := by
  have hresp {x : State} {w : Word} (hx : RingStored x) : RingStored (x.respondOn s.port w) :=
    ringStored_congr (par_respondOn _ _ _) (congrArg _ (rb_respondOn _ _ _)) hx
  cases he
  case put x w _ => exact hresp (ringStored_ringPush x h)
  case feed w _ _ =>
    have hpop : RingStored (ringPop s) := ringStored_congr (s := s) rfl rfl h
    exact hresp (ringStored_congr (par_route _ _ _) (congrArg _ (rb_route _ _ _)) hpop)
  case databit b g w =>
    exact hresp (ringStored_congr (par_route b g s) (congrArg _ (rb_route b g s)) h)
  case fsmReset x u w =>
    have honly := onlyUnit_resetUnit u s
    exact hresp (ringStored_congr honly.par (congrArg _ honly.rb) h)
  case flush act _ _ =>
    rcases startFlush_cases act s with ⟨-, e⟩ | ⟨-, e⟩ <;> rw [e]
    · exact ringStored_finishFlush h
    · exact ringStored_congr (s := s) rfl rfl h
  all_goals exact hresp (ringStored_congr (s := s) rfl rfl h)

theorem ringStored_runWord {w : Word} (hr : runWord w s = .next t) (h : RingStored s) :
    RingStored t := by
  rcases runWord_cases hr with ⟨-, rfl⟩ | ⟨-, i, -, hi⟩ | ⟨-, c, -, rfl⟩
  · exact h
  · exact (exec_effect hi).ringStored h
  · exact (Effect.of_fail (i := .rbGet) rfl).ringStored h

theorem ringStored_stepAgent {a : Agent} (ha : stepAgent a s = .next t) (h : RingStored s) :
    RingStored t := by
  rcases stepAgent_cases ha with ⟨w, ws, -, -, e⟩ | ⟨-, -, rfl⟩ | ⟨job, -, -, rfl⟩ |
    ⟨w, ws, -, -, -, e⟩ | ⟨-, -, -, rfl⟩ | ⟨-, rfl⟩ | ⟨-, rfl⟩ | ⟨-, rfl⟩
  · exact ringStored_runWord e (ringStored_congr (s := s) rfl rfl h)
  · exact ringStored_congr (s := s) rfl rfl h
  · exact ringStored_flushStep (ringStored_congr (s := s) rfl rfl h)
  · exact ringStored_runWord e (ringStored_congr (s := s) rfl rfl h)
  all_goals exact ringStored_congr (s := s) rfl rfl h

theorem ringStored_step (ht : step s = .next t) (h : RingStored s) : RingStored t := by
  obtain ⟨-, ⟨a, rest, -, e⟩ | ⟨level, rest, -, rfl⟩ | ⟨-, e⟩⟩ := step_cases ht
  · exact ringStored_stepAgent e (ringStored_congr (s := s) rfl rfl h)
  · rcases setRst_cases level { s with moves := rest } with ⟨-, e⟩ | ⟨-, -, e⟩ <;> rw [e]
    · exact ⟨rfl, rfl⟩
    · exact ringStored_congr (s := s) rfl rfl h
  · exact ringStored_stepAgent e (ringStored_congr (s := s) rfl rfl h)
end

/-- The two statements about storage and positions, as the ring buffer's and each unit's part. -/
theorem storage_and_positions_iff (s : State) : storageCanonical s ∧ positionsInRange s ↔
    RingStored s ∧ ∀ u, UnitInWindow u s := by
  rw [unitInWindow_iff, storageCanonical, RingStored]
  tauto

/-- Settles O41: the ring buffer's storage and each unit's window and positions are kept. -/
theorem storageAndPositionsKept : Obligations.StorageAndPositionsKept := by
  unfold Obligations.StorageAndPositionsKept
  intro s t hstored hpos h
  obtain ⟨hring, hunits⟩ := (storage_and_positions_iff s).1 ⟨hstored, hpos⟩
  exact (storage_and_positions_iff t).2
    ⟨ringStored_step h hring, unitInvariant_unitInWindow.step hunits h⟩

/-! ### Power-on (R471) -/

theorem atRest_powerOn (p : Params) (u : UnitId) : atRest (State.powerOn p) u :=
  ⟨by cases u <;> rfl, fun k _ => by cases k <;> rfl, fun _ => rfl⟩

/-- Settles O23: with every unit at rest each invariant of the units holds. -/
theorem invariantsAtPowerOn : Obligations.InvariantsAtPowerOn := by
  unfold Obligations.InvariantsAtPowerOn
  intro s hs
  obtain ⟨p, hp, rfl⟩ : ∃ p, paramsOk p = true ∧ s = State.powerOn p :=
    hs.elim id fun h => ⟨sampleParams, Tests.params_ok, h⟩
  have hrest := atRest_powerOn p
  obtain ⟨hunits, hpending, hzero⟩ := (regsLegal_iff (State.powerOn p)).1 fun u =>
    unitInvariant_unitLegal.rest hp (hrest u)
  obtain ⟨hstored, hpos⟩ := (storage_and_positions_iff (State.powerOn p)).2 ⟨⟨rfl, rfl⟩, fun u =>
    unitInvariant_unitInWindow.rest hp (hrest u)⟩
  exact ⟨ringInvariant_of_powerOn rfl rfl, hunits, hpending, hzero, hstored, hpos,
    fun u _ => hrest u⟩

end Sys2Proof.Machine
end

section
/-! What a bit does to a unit depends on that unit alone (42_frame_common.md R228): the unit's part of one
state is put into another, and every part of `unit_bit` does the same to it there. -/

namespace Sys2Proof.Machine

open Sys2Proof

/-- `t` with everything unit u can see taken from `x`, and with the events of `x` appended. -/
def State.graft (t : State) (u : UnitId) (x : State) : State :=
  let y := { t with par := x.par, cfg := x.cfg, draws := x.draws, events := t.events ++ x.events }
  match u with
  | .dx1 => { y with dx1 := x.dx1, slot1 := x.slot1 }
  | .dx2 => { y with dx2 := x.dx2, slot2 := x.slot2 }
  | .sx => { y with sx := x.sx }
  | .is => { y with is := x.is }
  | .p2 => { y with p2 := x.p2, hdr := x.hdr }
  | .p3 => { y with p3 := x.p3 }

/-- The state of a flow changed, the flow kept. -/
def Flow.map (f : State → State) : Flow → Flow
  | .goOn s => .goOn (f s)
  | .skip s => .skip (f s)

section
variable {t x : State} {u : UnitId}

/-! ### Reads of the grafted unit -/

@[simp] theorem unit_graft : (t.graft u x).unit u = x.unit u := by cases u <;> rfl

@[simp] theorem par_graft : (t.graft u x).par = x.par := by cases u <;> rfl

@[simp] theorem cfg_graft : (t.graft u x).cfg = x.cfg := by cases u <;> rfl

@[simp] theorem draws_graft : (t.graft u x).draws = x.draws := by cases u <;> rfl

@[simp] theorem events_graft : (t.graft u x).events = t.events ++ x.events := by cases u <;> rfl

theorem slot_graft {k : SlotId} (hk : slotOf u = some k) : (t.graft u x).slot k = x.slot k := by
  cases u <;> cases hk <;> rfl

@[simp] theorem hdr_graft_p2 : (t.graft .p2 x).hdr = x.hdr := rfl

@[simp] theorem p2_graft_p2 : (t.graft .p2 x).p2 = x.p2 := rfl

theorem winRead_graft (i : Nat) : winRead (t.graft u x) u i = winRead x u i := by
  rw [winRead, unit_graft, par_graft, winRead]

theorem frameEvent_graft (sync voice : Bool) (sub : BitVec 4) (len : Nat) :
    frameEvent (t.graft u x) u sync voice sub len = frameEvent x u sync voice sub len :=
  frameEvent_congr par_graft cfg_graft draws_graft (by rw [unit_graft]) (by rw [unit_graft])
    (by rw [unit_graft]) sync voice sub len

/-! ### Writes to the grafted unit -/

@[simp] theorem setUnit_graft (r : UnitRegs) :
    (t.graft u x).setUnit u r = t.graft u (x.setUnit u r) := by cases u <;> rfl

theorem setSlot_graft {k : SlotId} (hk : slotOf u = some k) (r : SlotRegs) :
    (t.graft u x).setSlot k r = t.graft u (x.setSlot k r) := by
  cases u <;> cases hk <;> rfl

theorem act_graft (r : UnitRegs) (es : List Event) :
    (t.graft u x).act u r es = t.graft u (x.act u r es) := by
  have h : t.events ++ x.events ++ es = t.events ++ (x.events ++ es) := List.append_assoc _ _ _
  unfold State.act
  rw [events_graft, draws_graft, cfg_graft, h]
  cases u <;> rfl

@[simp] theorem emitFrame_graft (sync voice : Bool) (sub : BitVec 4) (len : Nat) :
    emitFrame u sync voice sub len (t.graft u x) = t.graft u (emitFrame u sync voice sub len x) := by
  rw [emitFrame_eq_act, emitFrame_eq_act, frameEvent_graft, unit_graft, act_graft]

@[simp] theorem resetUnit_graft : resetUnit u (t.graft u x) = t.graft u (resetUnit u x) := by
  cases u <;> rfl

@[simp] theorem lostUnit_graft : lostUnit u (t.graft u x) = t.graft u (lostUnit u x) := by
  have h : t.events ++ x.events ++ [.lost u] = t.events ++ (x.events ++ [.lost u]) :=
    List.append_assoc _ _ _
  have hemit : (t.graft u x).emit (.lost u) = t.graft u (x.emit (.lost u)) := by
    rw [State.emit, events_graft, h]
    cases u <;> rfl
  simp only [lostUnit, hemit, unit_graft, setUnit_graft, resetUnit_graft]

@[simp] theorem advanceFrame_graft (period : Nat) :
    advanceFrame u period (t.graft u x) = t.graft u (advanceFrame u period x) := by
  simp only [advanceFrame, unit_graft, par_graft, setUnit_graft]

@[simp] theorem lockLoss_graft (confirmed : Bool) :
    lockLoss u confirmed (t.graft u x) = (lockLoss u confirmed x).map (t.graft u) := by
  simp only [lockLoss, unit_graft, par_graft, setUnit_graft, lostUnit_graft]
  split
  · rfl
  · split <;> rfl

/-! ### The TDMA units -/

theorem slotTypeField_graft : slotTypeField (t.graft u x) u = slotTypeField x u := by
  have hbit : frameBit (t.graft u x) u = frameBit x u := by
    funext j
    rw [frameBit, unit_graft, winRead_graft, frameBit]
  rw [slotTypeField, hbit, par_graft, slotTypeField]

@[simp] theorem acceptedDataType_graft :
    acceptedDataType (t.graft u x) u = acceptedDataType x u := by
  rw [acceptedDataType, slotTypeField_graft, par_graft, cfg_graft, acceptedDataType]

@[simp] theorem tdmaPeriodEnd_graft (period : Nat) (confirmed : Bool) :
    tdmaPeriodEnd u period confirmed (t.graft u x) =
      (tdmaPeriodEnd u period confirmed x).map (t.graft u) := by
  unfold tdmaPeriodEnd
  rw [unit_graft, lockLoss_graft]
  split
  · rw [setUnit_graft]; rfl
  · cases lockLoss u confirmed x with
    | skip y => rfl
    | goOn y =>
      simp only [Flow.map, unit_graft, par_graft, setUnit_graft, emitFrame_graft]
      split <;> simp only [unit_graft, setUnit_graft, advanceFrame_graft]

@[simp] theorem tdmaDataFrame_graft (period : Nat) (dt : BitVec 4) :
    tdmaDataFrame u period dt (t.graft u x) = (tdmaDataFrame u period dt x).map (t.graft u) := by
  unfold tdmaDataFrame
  simp only [unit_graft, par_graft, setUnit_graft, emitFrame_graft, tdmaPeriodEnd_graft,
    resetUnit_graft]
  split
  · rfl
  · split <;> rfl
  all_goals rfl

theorem frameEndTdma_graft (period : Nat) :
    frameEndTdma u period (t.graft u x) = (frameEndTdma u period x).map (t.graft u) := by
  unfold frameEndTdma tdmaValidationFailure
  simp only [unit_graft, par_graft, setUnit_graft, emitFrame_graft, tdmaPeriodEnd_graft,
    acceptedDataType_graft, tdmaDataFrame_graft, resetUnit_graft, lostUnit_graft]
  split
  · split
    · rfl
    · split
      · split <;> rfl
      · rfl
  · rfl

theorem frameEndIdle_graft :
    frameEndIdle (t.graft .is x) = (frameEndIdle x).map (t.graft .is) := by
  unfold frameEndIdle
  simp only [acceptedDataType_graft, par_graft, emitFrame_graft]
  split
  · split <;> simp only [unit_graft, setUnit_graft] <;> rfl
  · simp only [unit_graft, setUnit_graft]
    rfl

/-! ### P2 and P3 -/

theorem headerP2_graft : headerP2 (t.graft .p2 x) = (headerP2 x).map (t.graft .p2) := by
  cases h : validHeader x with
  | none =>
    cases hsy : x.hdr.hsy
    · rw [headerP2_of_invalid_blind h hsy, headerP2_of_invalid_blind (s := t.graft .p2 x) h hsy]
      rfl
    · rw [headerP2_of_invalid_sync h hsy, headerP2_of_invalid_sync (s := t.graft .p2 x) h hsy,
        lostUnit_graft]
      rfl
  | some header =>
    rw [headerP2_of_valid h, headerP2_of_valid (s := t.graft .p2 x) h]
    rfl

theorem scheduleNextP2_graft (e : Nat) :
    scheduleNextP2 e (t.graft .p2 x) = t.graft .p2 (scheduleNextP2 e x) := by
  by_cases h : x.p2.st = .data ∧ x.hdr.hdp = none
  · rw [scheduleNextP2_of_blind h.1 h.2, scheduleNextP2_of_blind (s := t.graft .p2 x) h.1 h.2]
    rfl
  · have hpending : x.p2.st ≠ .data ∨ x.hdr.hdp ≠ none :=
      Decidable.or_iff_not_imp_left.2 fun hst hhdp => h ⟨not_not.1 hst, hhdp⟩
    rw [scheduleNextP2_of_pending hpending, scheduleNextP2_of_pending (s := t.graft .p2 x) hpending]
    rfl

theorem frameEndP2_graft (e : Nat) :
    frameEndP2 e (t.graft .p2 x) = (frameEndP2 e x).map (t.graft .p2) := by
  cases hok : x.hdr.hok
  · by_cases hlc : x.p2.lc - 1 = 0
    · rw [frameEndP2_of_lost hok hlc, frameEndP2_of_lost (s := t.graft .p2 x) hok hlc, lostUnit_graft]
      rfl
    · rw [frameEndP2_of_missed hok hlc, frameEndP2_of_missed (s := t.graft .p2 x) hok hlc,
        frameEvent_graft, act_graft, act_graft, p2_graft_p2]
      simp only [hdr_graft_p2]
      split <;> rw [scheduleNextP2_graft] <;> rfl
  · by_cases hcl : x.hdr.cl = .term
    · rw [frameEndP2_of_term hok hcl, frameEndP2_of_term (s := t.graft .p2 x) hok hcl,
        emitFrame_graft, resetUnit_graft]
      rfl
    · rw [frameEndP2_of_validated hok hcl, frameEndP2_of_validated (s := t.graft .p2 x) hok hcl,
        frameEvent_graft, act_graft, scheduleNextP2_graft]
      rfl

theorem frameEndP3_graft (e : Nat) :
    frameEndP3 e (t.graft .p3 x) = (frameEndP3 e x).map (t.graft .p3) := by
  have hsf : (t.graft .p3 x).p3 = x.p3 := rfl
  unfold frameEndP3
  simp only [hsf, par_graft, emitFrame_graft, lockLoss_graft]
  cases lockLoss .p3 x.p3.sf _ <;> rfl

/-! ### The steps of `unit_bit` -/

theorem frameEnd_graft (e : Nat) : frameEnd u e (t.graft u x) = (frameEnd u e x).map (t.graft u) := by
  cases u
  case is => exact frameEndIdle_graft
  case p2 => exact frameEndP2_graft e
  case p3 => exact frameEndP3_graft e
  all_goals exact frameEndTdma_graft _

theorem headerStep_graft : headerStep u (t.graft u x) = (headerStep u x).map (t.graft u) := by
  unfold headerStep
  by_cases hu : u = .p2
  · subst hu
    simp only [hdr_graft_p2, p2_graft_p2, headerP2_graft]
    split <;> rfl
  · rw [if_neg fun h => hu h.1, if_neg fun h => hu h.1]
    rfl

theorem frameEndStep_graft : frameEndStep u (t.graft u x) = (frameEndStep u x).map (t.graft u) := by
  unfold frameEndStep
  simp only [unit_graft, frameEnd_graft]
  split <;> rfl

theorem onSync_graft (i : Nat) : onSync u i (t.graft u x) = t.graft u (onSync u i x) := by
  cases u
  case p2 =>
    rw [onSync, onSync, onSyncP2_eq, onSyncP2_eq]
    rfl
  case p3 =>
    rw [onSync, onSync, onSyncP3_eq, onSyncP3_eq]
    rfl
  all_goals
    rw [onSync, onSync, onSyncTdma_eq, onSyncTdma_eq, unit_graft, par_graft, setUnit_graft]

theorem gateOpen_graft : gateOpen u (t.graft u x) = gateOpen u x := by
  unfold gateOpen
  rw [unit_graft]
  split
  · rfl
  · next k hk => rw [slot_graft hk]

theorem correlateStep_graft : correlateStep u (t.graft u x) = t.graft u (correlateStep u x) := by
  unfold correlateStep
  simp only [gateOpen_graft, unit_graft, par_graft, onSync_graft]
  split
  · split <;> rfl
  · rfl

theorem frameSteps_graft : frameSteps u (t.graft u x) = t.graft u (frameSteps u x) := by
  unfold frameSteps
  rw [headerStep_graft]
  cases headerStep u x with
  | skip y => rfl
  | goOn y =>
    simp only [Flow.map, frameEndStep_graft]
    cases frameEndStep u y with
    | skip z => rfl
    | goOn z => exact correlateStep_graft

theorem received_graft (b : Bool) (tag : Tag) : trackSlot u tag (takeBit u b (t.graft u x)) =
    t.graft u (trackSlot u tag (takeBit u b x)) := by
  rw [takeBit_eq, takeBit_eq, unit_graft, par_graft, setUnit_graft]
  unfold trackSlot
  split
  · next k hk => simp only [tagTrack, slot_graft hk, unit_graft, par_graft, setSlot_graft hk]
  · rfl

theorem unitBit_graft (b : Bool) (tag : Tag) :
    unitBit b tag (t.graft u x) u = t.graft u (unitBit b tag x u) := by
  have hconsume : consumeBit u b tag (t.graft u x) = t.graft u (consumeBit u b tag x) := by
    rw [consumeBit_eq, consumeBit_eq, received_graft, frameSteps_graft, dpAdvanced, unit_graft,
      par_graft, setUnit_graft, dpAdvanced]
  unfold unitBit
  split
  · next k hk =>
    rw [slot_graft hk, cfg_graft, setSlot_graft hk, hconsume]
    split <;> rfl
  · exact hconsume
end

/-- A state that unit u cannot tell from `s` is a graft of `s` without its events. -/
theorem eq_graft_of_sameForUnit {u : UnitId} {s t : State} (h : SameForUnit u s t) :
    t = t.graft u { s with events := [] } := by
  obtain ⟨hpar, hcfg, hdraws, hunit, hslots, hhdr⟩ := h
  cases u <;> simp only [State.graft, State.unit, List.append_nil] at hunit ⊢ <;>
    rw [hpar, hcfg, hdraws, hunit]
  case dx1 =>
    have hslot : s.slot1 = t.slot1 := hslots .slot1 rfl
    rw [hslot]
  case dx2 =>
    have hslot : s.slot2 = t.slot2 := hslots .slot2 rfl
    rw [hslot]
  case p2 => rw [hhdr rfl]

/-- Settles O35: both states are grafts of what unit u sees. -/
theorem unitSeesOnlyItself : Obligations.UnitSeesOnlyItself := by
  unfold Obligations.UnitSeesOnlyItself
  intro u b tag s t h
  have hs := eq_graft_of_sameForUnit (u := u) (s := s) (t := s) ⟨rfl, rfl, rfl, rfl, fun _ _ => rfl,
    fun _ => rfl⟩
  have ht := eq_graft_of_sameForUnit h
  generalize ({ s with events := [] } : State) = x at hs ht
  have hs' : unitBit b tag s u = s.graft u (unitBit b tag x u) := by
    rw [← unitBit_graft, ← hs]
  have ht' : unitBit b tag t u = t.graft u (unitBit b tag x u) := by
    rw [← unitBit_graft, ← ht]
  rw [hs', ht']
  refine ⟨⟨?_, ?_, ?_, ?_, fun k hk => ?_, fun hu => ?_⟩, _, events_graft, events_graft⟩
  · rw [par_graft, par_graft]
  · rw [cfg_graft, cfg_graft]
  · rw [draws_graft, draws_graft]
  · rw [unit_graft, unit_graft]
  · rw [slot_graft hk, slot_graft hk]
  · subst hu
    rw [hdr_graft_p2, hdr_graft_p2]

end Sys2Proof.Machine
end
